-- ==== Sys2Proof/Word.lean ====
section
/-! DEFINITION. The word types of the block: bytes, request and response words, buffer addresses, status-port registers and pin levels (R12, R13). -/

namespace Sys2Proof

/-- One byte: a pixel-buffer byte, an init-ROM byte, or a byte of a bus transaction. -/
abbrev Byte := BitVec 8

/-- A host request or a host response (R12, R300, R320). -/
abbrev HostWord := BitVec 32

/-- A pixel-buffer address as a request carries it (R12). -/
abbrev BufAddr := BitVec 16

/-- A register of the status port (R12, R130). -/
abbrev StatusWord := BitVec 16

/-- The level of an output line: `true` is 1 and `false` is 0 (R114, R115, R116). -/
abbrev Level := Bool

end Sys2Proof
end

