-- ==== Sys2Proof/Config.lean ====
section
/-! DEFINITION. The implementation parameters of R9 with their defaults, the fixed constants of R11, and the three free values (GEOM while CFG_HEIGHT holds no legal height, CUR_REQ while the block is idle, the duration of a reset hold). -/

namespace Sys2Proof

/-- The panel geometry (R10, R17): 96 or 128 rows. -/
inductive Geometry where
  | h96
  | h128
  deriving DecidableEq, Repr, Inhabited

/-- INIT_FRAMING (R9): how the init stream is cut into transactions (R651, R652). -/
inductive InitFraming where
  /-- The whole init stream is one transaction (R651). -/
  | blob
  /-- One transaction for each init command (R652). -/
  | discrete
  deriving DecidableEq, Repr

/-- The parameters of R9 that a model takes as arguments, fixed for a whole run (log 1).
T_HOLD_MIN has one legal value and is the constant `tHoldMinUs`. -/
structure Params where
  /-- CMD_WRITE_RAM: the byte of the enable-data-write command (R669). -/
  cmdWriteRam : Byte
  /-- CS_SELECT_LEVEL: the chip-select level that selects the panel (R601). -/
  csSelectLevel : Level
  /-- DC_CMD_LEVEL: the command/data level that says command (R601). -/
  dcCmdLevel : Level
  /-- INIT_FRAMING (R651, R652). -/
  initFraming : InitFraming
  deriving DecidableEq, Repr

/-- The defaults of R9. -/
def Params.default : Params :=
  { cmdWriteRam := 0x5C, csSelectLevel := false, dcCmdLevel := false, initFraming := .blob }

/-- CS_IDLE = 1 - CS_SELECT_LEVEL (R9, R601). -/
def Params.csIdle (p : Params) : Level := !p.csSelectLevel

/-- DC_DATA_LEVEL = 1 - DC_CMD_LEVEL (R9, R601). -/
def Params.dcDataLevel (p : Params) : Level := !p.dcCmdLevel

/-- N_SCAN: scan lines of one refresh (R11). -/
def nScan : Nat := 128

/-- BPP: bytes of one pixel (R11). -/
def bytesPerPixel : Nat := 2

/-- INIT_LEN: bytes of the init stream (R11, R650). -/
def initLen : Nat := 57

/-- T_HOLD_MIN, 1 ms (R9), in microseconds (log 12, DESIGN CHOICE of the unit). -/
def tHoldMinUs : Nat := 1000

/-- GEOM while CFG_HEIGHT holds neither 96 nor 128: R103 calls it undefined and U18 says that any value
may be taken and none is read. A free value: it has no body, so nothing can be proved of it (log 5). -/
opaque freeGeometry : BitVec 8 → Geometry

/-- What CUR_REQ holds once the request it copied has ended: R120 says nothing of it and U18 says that any
value may be taken and none is read. A free value: its n-th draw, with no body (log 3). -/
opaque freeCurReq : Nat → HostWord

/-- How many microseconds beyond T_HOLD_MIN a reset hold lasts whose duration no act of the delay timer has
fixed: R454 and U5 let it be any, drawn for each hold. A free value: its n-th draw, with no body (log 12). -/
opaque freeHold : Nat → Nat

end Sys2Proof
end

