-- ==== Sys2Proof/Syntax.lean ====
section
/-! DEFINITION. The instructions: one constructor for each row of spec/opcode_table.json. Six are host requests (R302) that the block decodes, seventeen are panel commands (R326) that the block's streamer takes from the init ROM, or from the parameter CMD_WRITE_RAM, and emits. -/

namespace Sys2Proof

/-- The 23 rows of the opcode table. Operands are the fields of the row's format. -/
inductive Instr where
  /-- CONSTRUCT h, w, cb (format K, R303, R450). -/
  | construct (h w : Byte) (cb : Bool)
  /-- SHOW (format N, R304, R550). -/
  | showFrame
  /-- BWR a, d (format W, R305, R410). -/
  | bwr (a : BufAddr) (d : Byte)
  /-- BRD a (format R, R306, R420). -/
  | brd (a : BufAddr)
  /-- ENC r, g, b (format E, R307, R400). -/
  | enc (r g b : Byte)
  /-- REMAP l (format L, R308, R510). -/
  | remap (l : BitVec 7)
  /-- 0xAE (sleep), no arguments (R653). -/
  | sleep
  /-- 0xA0 (remap/depth), one argument (R654). -/
  | remapDepth (x : Byte)
  /-- 0xA1 (start line), one argument (R655). -/
  | startLine (x : Byte)
  /-- 0xA2 (offset), one argument (R656). -/
  | offset (x : Byte)
  /-- 0xA6 (display mode), no arguments (R657). -/
  | displayMode
  /-- 0xAD (master config), one argument (R658). -/
  | masterConfig (x : Byte)
  /-- 0xB0 (power save), one argument (R659). -/
  | powerSave (x : Byte)
  /-- 0xB1 (precharge), one argument (R660). -/
  | precharge (x : Byte)
  /-- 0xB3 (clock/osc), one argument (R661). -/
  | clockOsc (x : Byte)
  /-- 0xB8 (grayscale LUT), 25 arguments (R662, R671). -/
  | grayscaleLut (lut : List Byte)
  /-- 0xBB (precharge voltage), three arguments, for channels A, B and C (R663). -/
  | prechargeVoltage (x y z : Byte)
  /-- 0xBE (VCOMH), one argument (R664). -/
  | vcomh (x : Byte)
  /-- 0xC1 (contrast), three arguments (R665). -/
  | contrast (x y z : Byte)
  /-- 0xC7 (master current), one argument (R666). -/
  | masterCurrent (x : Byte)
  /-- 0xCA (MUX ratio), one argument (R667). -/
  | muxRatio (x : Byte)
  /-- 0xAF (display on), no arguments (R668). -/
  | displayOn
  /-- CMD_WRITE_RAM (enable data write), no arguments; its byte is the parameter CMD_WRITE_RAM (R669). -/
  | enableDataWrite
  deriving DecidableEq, Repr

/-- The instruction is one of the six host requests of R302; the others are emitted panel commands (R326). -/
def Instr.isRequest : Instr → Bool
  | .construct _ _ _ => true
  | .showFrame => true
  | .bwr _ _ => true
  | .brd _ => true
  | .enc _ _ _ => true
  | .remap _ => true
  | .sleep => false
  | .remapDepth _ => false
  | .startLine _ => false
  | .offset _ => false
  | .displayMode => false
  | .masterConfig _ => false
  | .powerSave _ => false
  | .precharge _ => false
  | .clockOsc _ => false
  | .grayscaleLut _ => false
  | .prechargeVoltage _ _ _ => false
  | .vcomh _ => false
  | .contrast _ _ _ => false
  | .masterCurrent _ => false
  | .muxRatio _ => false
  | .displayOn => false
  | .enableDataWrite => false

end Sys2Proof
end

