-- ==== Sys2Proof/WellFormed.lean ====
section
/-! DEFINITION. Which terms of Instr an encoding admits. Every field but one has exactly the width of its format, so the only check is the argument count of the grayscale LUT (R326, R671). -/

namespace Sys2Proof

/-- The number of argument bytes of the grayscale LUT command (R326, R662). -/
def lutArguments : Nat := 25

/-- The instruction is one that its row's format can spell. -/
def Instr.wellFormed : Instr → Bool
  | .construct _ _ _ => true
  | .showFrame => true
  | .bwr _ _ => true
  | .brd _ => true
  | .enc _ _ _ => true
  | .remap _ => true
  | .sleep => true
  | .remapDepth _ => true
  | .startLine _ => true
  | .offset _ => true
  | .displayMode => true
  | .masterConfig _ => true
  | .powerSave _ => true
  | .precharge _ => true
  | .clockOsc _ => true
  | .grayscaleLut lut => lut.length == lutArguments
  | .prechargeVoltage _ _ _ => true
  | .vcomh _ => true
  | .contrast _ _ _ => true
  | .masterCurrent _ => true
  | .muxRatio _ => true
  | .displayOn => true
  | .enableDataWrite => true

end Sys2Proof
end

