-- ==== Sys2Proof/Decode.lean ====
section
/-! DEFINITION. The decoder, total on any word and any bytes, rejecting by name; and after it the encoder, written from the same formats (R302 to R309, R325, R326). -/

namespace Sys2Proof

/-- Why something decodes to no instruction. The first two are the illegal host encodings of R328. -/
inductive DecodeError where
  /-- OP is 0x0 or 0x7 to 0xF (R302, R328). -/
  | reservedOp
  /-- OP is 0x1 to 0x6 and a reserved bit of its format is set (R309, R328). -/
  | reservedBits
  /-- A byte that is the opcode of none of the 16 init commands of R326. -/
  | unknownCommand
  /-- A panel command with fewer argument bytes than R326 gives it. -/
  | missingArguments
  /-- A byte where the enable-data-write command is fetched that is not CMD_WRITE_RAM (R669). -/
  | notCmdWriteRam
  deriving DecidableEq, Repr

/-- Bits hi down to lo of a request word, with width hi - lo + 1 (R13). -/
def field (lo width : Nat) (w : HostWord) : BitVec width := w.extractLsb' lo width

/-- Bits [3:0], the OP field (R300). -/
def opField (w : HostWord) : BitVec 4 := field 0 4 w

/-- A word selects a row of the opcode table when (w & mask) = match (R309). -/
def selects (w mask pattern : HostWord) : Bool := (w &&& mask) == pattern

/-- Decoding of a host request word (R302 to R309), by the masks of the opcode table. -/
def decodeRequest (w : HostWord) : Except DecodeError Instr :=
  if selects w 0xFF0000EF 0x00000001 then .ok (.construct (field 8 8 w) (field 16 8 w) (w.getLsbD 4))
  else if selects w 0xFFFFFFFF 0x00000002 then .ok .showFrame
  else if selects w 0x000000FF 0x00000003 then .ok (.bwr (field 8 16 w) (field 24 8 w))
  else if selects w 0xFF0000FF 0x00000004 then .ok (.brd (field 8 16 w))
  else if selects w 0x000000FF 0x00000005 then .ok (.enc (field 8 8 w) (field 16 8 w) (field 24 8 w))
  else if selects w 0xFFFF80FF 0x00000006 then .ok (.remap (field 8 7 w))
  else if 1 ≤ (opField w).toNat ∧ (opField w).toNat ≤ 6 then .error .reservedBits
  else .error .reservedOp

/-- A panel command with one argument byte, taken from the bytes after its opcode. -/
def oneArgument (k : Byte → Instr) : List Byte → Except DecodeError Instr
  | x :: _ => .ok (k x)
  | [] => .error .missingArguments

/-- A panel command with three argument bytes, taken from the bytes after its opcode. -/
def threeArguments (k : Byte → Byte → Byte → Instr) : List Byte → Except DecodeError Instr
  | x :: y :: z :: _ => .ok (k x y z)
  | _ => .error .missingArguments

/-- The grayscale LUT with its 25 argument bytes (R662). -/
def lutCommand (rest : List Byte) : Except DecodeError Instr :=
  if lutArguments ≤ rest.length then .ok (.grayscaleLut (rest.take lutArguments)) else .error .missingArguments

/-- The sixteen init commands: each opcode byte, and how the bytes after it are read (R326). -/
def commandTable : List (Byte × (List Byte → Except DecodeError Instr)) :=
  [(0xAE, fun _ => .ok .sleep), (0xA0, oneArgument .remapDepth), (0xA1, oneArgument .startLine),
   (0xA2, oneArgument .offset), (0xA6, fun _ => .ok .displayMode), (0xAD, oneArgument .masterConfig),
   (0xB0, oneArgument .powerSave), (0xB1, oneArgument .precharge), (0xB3, oneArgument .clockOsc), (0xB8, lutCommand),
   (0xBB, threeArguments .prechargeVoltage), (0xBE, oneArgument .vcomh), (0xC1, threeArguments .contrast),
   (0xC7, oneArgument .masterCurrent), (0xCA, oneArgument .muxRatio), (0xAF, fun _ => .ok .displayOn)]

/-- The init command that stands at the head of a byte stream: the opcode byte alone fixes how many
argument bytes follow (R326). Bytes after the command are not looked at. -/
def decodeCommand : List Byte → Except DecodeError Instr
  | [] => .error .missingArguments
  | op :: rest =>
    match commandTable.lookup op with
    | some read => read rest
    | none => .error .unknownCommand

/-- The command fetched in SHOW_CMD: the one byte of the parameter CMD_WRITE_RAM (R552, R669). -/
def decodeEnable (p : Params) (b : Byte) : Except DecodeError Instr :=
  if b = p.cmdWriteRam then .ok .enableDataWrite else .error .notCmdWriteRam

/-- An encoded instruction, by the place it is fetched from: the host's request port, the init ROM, or
the parameter CMD_WRITE_RAM. -/
inductive Encoded where
  /-- A host request word (R300). -/
  | request (w : HostWord)
  /-- The bytes of an init command (R326). -/
  | command (bytes : List Byte)
  /-- The byte of the enable-data-write command (R669). -/
  | enable (b : Byte)
  deriving DecidableEq, Repr

/-- The instruction an encoded one stands for, under the parameters of the run. -/
def decode (p : Params) : Encoded → Except DecodeError Instr
  | .request w => decodeRequest w
  | .command bytes => decodeCommand bytes
  | .enable b => decodeEnable p b

/-- The request word of a host request (R303 to R308); 0, which is no request (R302), for a panel command. -/
def requestWord : Instr → HostWord
  | .construct h w cb => (0 : BitVec 8) ++ w ++ h ++ (0 : BitVec 3) ++ BitVec.ofBool cb ++ (1 : BitVec 4)
  | .showFrame => 0x00000002
  | .bwr a d => d ++ a ++ (0x03 : BitVec 8)
  | .brd a => (0 : BitVec 8) ++ a ++ (0x04 : BitVec 8)
  | .enc r g b => b ++ g ++ r ++ (0x05 : BitVec 8)
  | .remap l => (0 : BitVec 17) ++ l ++ (0x06 : BitVec 8)
  | .sleep => 0
  | .remapDepth _ => 0
  | .startLine _ => 0
  | .offset _ => 0
  | .displayMode => 0
  | .masterConfig _ => 0
  | .powerSave _ => 0
  | .precharge _ => 0
  | .clockOsc _ => 0
  | .grayscaleLut _ => 0
  | .prechargeVoltage _ _ _ => 0
  | .vcomh _ => 0
  | .contrast _ _ _ => 0
  | .masterCurrent _ => 0
  | .muxRatio _ => 0
  | .displayOn => 0
  | .enableDataWrite => 0

/-- The bytes the block emits for a panel command, opcode first (R326, R653 to R669); none for a host request. -/
def commandBytes (p : Params) : Instr → List Byte
  | .construct _ _ _ => []
  | .showFrame => []
  | .bwr _ _ => []
  | .brd _ => []
  | .enc _ _ _ => []
  | .remap _ => []
  | .sleep => [0xAE]
  | .remapDepth x => [0xA0, x]
  | .startLine x => [0xA1, x]
  | .offset x => [0xA2, x]
  | .displayMode => [0xA6]
  | .masterConfig x => [0xAD, x]
  | .powerSave x => [0xB0, x]
  | .precharge x => [0xB1, x]
  | .clockOsc x => [0xB3, x]
  | .grayscaleLut lut => 0xB8 :: lut
  | .prechargeVoltage x y z => [0xBB, x, y, z]
  | .vcomh x => [0xBE, x]
  | .contrast x y z => [0xC1, x, y, z]
  | .masterCurrent x => [0xC7, x]
  | .muxRatio x => [0xCA, x]
  | .displayOn => [0xAF]
  | .enableDataWrite => [p.cmdWriteRam]

/-- The encoded form of an instruction, with the place it is fetched from. -/
def encode (p : Params) : Instr → Encoded
  | .construct h w cb => .request (requestWord (.construct h w cb))
  | .showFrame => .request (requestWord .showFrame)
  | .bwr a d => .request (requestWord (.bwr a d))
  | .brd a => .request (requestWord (.brd a))
  | .enc r g b => .request (requestWord (.enc r g b))
  | .remap l => .request (requestWord (.remap l))
  | .sleep => .command (commandBytes p .sleep)
  | .remapDepth x => .command (commandBytes p (.remapDepth x))
  | .startLine x => .command (commandBytes p (.startLine x))
  | .offset x => .command (commandBytes p (.offset x))
  | .displayMode => .command (commandBytes p .displayMode)
  | .masterConfig x => .command (commandBytes p (.masterConfig x))
  | .powerSave x => .command (commandBytes p (.powerSave x))
  | .precharge x => .command (commandBytes p (.precharge x))
  | .clockOsc x => .command (commandBytes p (.clockOsc x))
  | .grayscaleLut lut => .command (commandBytes p (.grayscaleLut lut))
  | .prechargeVoltage x y z => .command (commandBytes p (.prechargeVoltage x y z))
  | .vcomh x => .command (commandBytes p (.vcomh x))
  | .contrast x y z => .command (commandBytes p (.contrast x y z))
  | .masterCurrent x => .command (commandBytes p (.masterCurrent x))
  | .muxRatio x => .command (commandBytes p (.muxRatio x))
  | .displayOn => .command (commandBytes p .displayOn)
  | .enableDataWrite => .enable p.cmdWriteRam

/-- Byte k of a table word: bits 8k + 7 down to 8k. -/
def tableByte (w k : Nat) : Byte := BitVec.ofNat 8 (w / 2 ^ (8 * k))

/-- The bytes of a table word, first byte first, with zero bytes above up to the longest command. -/
def tableBytes (w : Nat) : List Byte :=
  [tableByte w 0, tableByte w 1, tableByte w 2, tableByte w 3] ++ List.replicate 22 0

/-- The panel command of a table word, where the command has at least the nbits the table gives it. -/
def decodeTableCommand (nbits w : Nat) : Option Instr :=
  let found : Except DecodeError Instr :=
    match decodeCommand (tableBytes w) with
    | .ok i => .ok i
    | .error _ => decodeEnable Params.default (tableByte w 0)
  match found with
  | .ok i => if nbits ≤ 8 * (commandBytes Params.default i).length then some i else none
  | .error _ => none

/-- The decoder on an instruction's bits as the opcode table numbers them. A row of more than 8 bits is a
host request word; a row of 8 bits is a panel command's opcode byte, its argument bytes zero. A word of
more than 8 bits that is no request is read as the bytes of a panel command (log 20). -/
def decodeTableWord (nbits w : Nat) : Option Instr :=
  if nbits ≤ 8 then decodeTableCommand nbits w
  else
    match decodeRequest (BitVec.ofNat 32 w) with
    | .ok i => some i
    | .error _ => decodeTableCommand nbits w

end Sys2Proof
end

