-- ==== Sys2Proof/Machine/InitRom.lean ====
section
/-! DEFINITION. The init ROM's 57 bytes (R650) and the sixteen byte ranges that its commands occupy (R652). -/

namespace Sys2Proof.Machine

/-- The 25 argument bytes of the grayscale LUT command: 1 + 5·i for i = 0 to 24 (R671). -/
def initLut : List Byte := (List.range 25).map fun i => BitVec.ofNat 8 (1 + 5 * i)

/-- ROM indices 0 to 15 (R650): sleep to clock/osc. -/
def initRomHead : List Byte :=
  [0xAE, 0xA0, 0xB4, 0xA1, 0x00, 0xA2, 0x00, 0xA6, 0xAD, 0x8E, 0xB0, 0x05, 0xB1, 0x11, 0xB3, 0xF0]

/-- ROM indices 42 to 56 (R650): precharge voltage to display on. -/
def initRomTail : List Byte :=
  [0xBB, 0x1C, 0x1C, 0x1C, 0xBE, 0x3F, 0xC1, 0xDC, 0xD2, 0xFF, 0xC7, 0x0A, 0xCA, 0x7F, 0xAF]

/-- The init ROM: byte i is the i-th byte sent (R650). -/
def initRom : List Byte := initRomHead ++ 0xB8 :: initLut ++ initRomTail

/-- The ranges [a, b) of ROM indices of the sixteen init commands, in the order of R652. -/
def initRanges : List (Nat × Nat) :=
  [(0, 1), (1, 3), (3, 5), (5, 7), (7, 8), (8, 10), (10, 12), (12, 14), (14, 16), (16, 42), (42, 46), (46, 48),
   (48, 52), (52, 54), (54, 56), (56, 57)]

end Sys2Proof.Machine
end

