-- ==== Sys2Proof/Machine/State.lean ====
section
/-! DEFINITION. The state of the machine as plain data: every register, pin and store of 10_state.md, the parameters of R9, the model's own record of what the block emitted, and the mailboxes of the four environment agents of R7; the faults and refusals; and the state after reset. -/

namespace Sys2Proof.Machine

/-- PHASE (R106), by the names of its nine values; the values 9 to 15 never occur (log 15). -/
inductive Phase where
  | unconf
  | rstLo
  | rstHi
  | cbInit
  | init
  | cbShow
  | showCmd
  | showLines
  | ready
  deriving DecidableEq, Repr

/-- OPKIND (R108): which request made the block busy. -/
inductive OpKind where
  | construct
  | showFrame
  deriving DecidableEq, Repr

/-- WAIT (R119): which agent the sequencer waits for. -/
inductive Wait where
  /-- HOST: idle, waiting for a request. -/
  | host
  /-- DELAY: a reset hold is running. -/
  | delay
  /-- CB: a callback is running. -/
  | cb
  /-- BUS: a byte write is running. -/
  | bus
  deriving DecidableEq, Repr

/-- The result codes of R700; the codes 6 to 15 are never returned (log 15). -/
inductive ResultCode where
  | ok
  | configurationError
  | busError
  | illegalRequest
  | stateError
  | addressRange
  deriving DecidableEq, Repr

/-- The three output lines (R114, R115, R116). -/
inductive Pin where
  | res
  | cs
  | dc
  deriving DecidableEq, Repr

/-- An event on the block's outputs (R8). -/
inductive Event where
  /-- `PIN(p, v)`: the block drives line p to level v, also where the level does not change (R610). -/
  | pin (p : Pin) (v : Level)
  /-- `DELAY`: a reset hold. -/
  | delay
  /-- `CB_REQ`: a callback handshake (R117). -/
  | cbReq
  /-- `WRITE(bytes)`: one call of the transport's byte-write primitive. -/
  | write (bytes : List Byte)
  deriving DecidableEq, Repr

/-- The transport's answer to one WRITE (R605). -/
inductive BusAnswer where
  /-- OK: all the bytes were written. -/
  | ok
  /-- ERR: a prefix of the bytes reached the wire, of a length the block never learns; the transport's
  draw is `delivered`, cut to the length of the WRITE (log 14). -/
  | err (delivered : Nat)
  deriving DecidableEq, Repr

/-- The pixel buffer's contents: (address, byte) pairs in the canonical form of `Memory.wf`. -/
abbrev Memory := List Host.Cell

/-- What an address that memory does not list reads as: the zero fill of CONSTRUCT (R201). After power-on
the contents are unspecified and unreachable, and the same byte stands for them (log 4, DESIGN CHOICE). -/
def unlistedByte : Byte := 0x00

/-- The canonical form: addresses strictly rising, no entry equal to what an unlisted address reads as. -/
abbrev Memory.wf (m : Memory) : Prop :=
  m.Pairwise (fun c d => c.1 < d.1) ∧ ∀ c ∈ m, c.2 ≠ unlistedByte

/-- The state. -/
structure State where
  /-- CFG_HEIGHT (R102). -/
  cfgHeight : BitVec 8
  /-- CFG_WIDTH (R104). -/
  cfgWidth : BitVec 8
  /-- CFG_CB_EN (R105). -/
  cfgCbEn : Bool
  /-- PHASE, the sequencer's position (R106). -/
  phase : Phase
  /-- OPKIND (R108). -/
  opKind : OpKind
  /-- INIT_IDX: init-ROM bytes whose transaction completed (R109). -/
  initIdx : BitVec 6
  /-- LINE: the scan line being sent (R110). -/
  line : BitVec 8
  /-- LAST_RC (R111). -/
  lastRc : ResultCode
  /-- ERR_STICKY (R112). -/
  errSticky : Bool
  /-- FAIL_PHASE (R122). -/
  failPhase : BitVec 4
  /-- RES, the panel reset line (R114). -/
  res : Level
  /-- CS, the chip-select line (R115). -/
  cs : Level
  /-- DC, the command/data line (R116). -/
  dc : Level
  /-- BUF, the pixel buffer (R200). -/
  buf : Memory
  /-- The init ROM (R203, R650); no step writes it (log 8). -/
  rom : List Byte
  /-- WAIT (R119). -/
  wait : Wait
  /-- CUR_REQ (R120): the request being executed while BUSY = 1, a free value after it (log 3). -/
  curReq : HostWord
  /-- The implementation parameters of R9, fixed for a run; no step writes them (log 1). -/
  params : Params
  /-- The model's own: within a step, the sequencer is about to take its next panel command from the init ROM
  or from CMD_WRITE_RAM. At every waiting point it is false, so no agent finds it true (R16, log 6). -/
  fetching : Bool
  /-- The model's own: the bytes of the transaction whose WRITE is running (WAIT = BUS), or, within a step,
  that is being put together (log 7). -/
  txBytes : List Byte
  /-- The model's own: the events emitted so far, oldest first (R8, log 13). -/
  trace : List Event
  /-- The model's own: the responses returned so far, oldest first (R320, log 13). -/
  responses : List HostWord
  /-- Host agent: the request words presented and not yet accepted, oldest first (R301, log 2). -/
  hostReqs : List HostWord
  /-- Transport agent: its answers to the running and the coming WRITEs, in order (R605, log 2). -/
  busAnswers : List BusAnswer
  /-- Callback agent: how many CB_ACKs it has given that no callback has taken (R608, log 2). -/
  cbAcks : Nat
  /-- Delay timer: how many microseconds beyond T_HOLD_MIN the running and the coming holds last, in order, as
  far as the timer has fixed it; a hold it has not fixed lasts a free value (R454, R807, log 12). -/
  holds : List Nat
  /-- Delay timer: the lengths in microseconds of the holds that have ended, oldest first (R812, log 12). -/
  holdTimes : List Nat
  /-- Transport agent: the bytes that reached the wire, oldest first (R605, log 14). -/
  wire : List Byte
  /-- The block's power-on reset input: `some k` where a reset arrives, with k the number of bytes of a
  running WRITE that had reached the wire (R802, U19, log 11). -/
  porIn : Option Nat
  /-- The model's own: how many free values the block has drawn, so that each is a fresh one (log 3, 12). -/
  draws : Nat
  deriving DecidableEq, Repr

/-- Why the machine stops with a fault. -/
inductive Fault where
  /-- Raised by `step` alone, where WAIT and PHASE hold a pair that R119 excludes. No run from reset reaches
  it; the spec says nothing of such a state, so stopping is safe (log 10). -/
  | waitPhaseMismatch
  deriving DecidableEq, Repr

/-- Why the machine gives an instruction no meaning. -/
inductive Refusal where
  /-- An instruction whose meaning is not written yet; raised only by an arm of `exec`; safe. -/
  | notModelled (mnemonic : String)
  /-- Raised by `step` alone, where no init command stands at the ROM position that the streamer fetches.
  With the ROM of R650 no run reaches it; R672 gives such bytes no effect, so stopping is safe (log 8). -/
  | noCommandInRom
  deriving DecidableEq, Repr

/-- The block after its power-on reset (R800), for given parameters: no environment agent has acted yet. -/
def State.powerOn (p : Params) : State :=
  { cfgHeight := 0, cfgWidth := 0, cfgCbEn := false
    phase := .unconf, opKind := .construct, initIdx := 0, line := 0
    lastRc := .ok, errSticky := false, failPhase := 0
    res := true, cs := p.csIdle, dc := p.dcCmdLevel
    buf := [], rom := initRom, wait := .host, curReq := 0
    params := p, fetching := false, txBytes := [], trace := [], responses := []
    hostReqs := [], busAnswers := [], cbAcks := 0, holds := [], holdTimes := [], wire := [], porIn := none, draws := 0 }

/-- The machine right after reset (R800), with the default parameters of R9. CUR_REQ is unspecified after
reset: the model's value is 0 (log 3, DESIGN CHOICE). -/
def State.reset : State := State.powerOn Params.default

end Sys2Proof.Machine
end

