-- ==== Sys2Proof/Machine/Flags.lean ====
section
/-! DEFINITION. The status flags and the status port: the numbers of PHASE, OPKIND and the result codes, BUSY (R107), and the four status registers (R130). The block has no arithmetic flags (R113). -/

namespace Sys2Proof.Machine

/-- The 4-bit value of PHASE (R106). -/
def Phase.bits : Phase → BitVec 4
  | .unconf => 0
  | .rstLo => 1
  | .rstHi => 2
  | .cbInit => 3
  | .init => 4
  | .cbShow => 5
  | .showCmd => 6
  | .showLines => 7
  | .ready => 8

/-- The 1-bit value of OPKIND (R108). -/
def OpKind.bit : OpKind → BitVec 1
  | .construct => 0
  | .showFrame => 1

/-- The 4-bit result code (R700). -/
def ResultCode.bits : ResultCode → BitVec 4
  | .ok => 0
  | .configurationError => 1
  | .busError => 2
  | .illegalRequest => 3
  | .stateError => 4
  | .addressRange => 5

/-- BUSY as a function of PHASE: 1 ≤ PHASE ≤ 7 (R107). -/
def Phase.busy (p : Phase) : Bool := decide (1 ≤ p.bits.toNat ∧ p.bits.toNat ≤ 7)

/-- BUSY (R107): while it holds the block accepts no request (R301). -/
def State.busy (s : State) : Bool := s.phase.busy

/-- Status register 0, STATUS (R130). -/
def State.statusReg (s : State) : StatusWord :=
  s.failPhase ++ s.lastRc.bits ++ BitVec.ofBool s.errSticky ++ BitVec.ofBool s.cfgCbEn
    ++ BitVec.ofBool (s.cfgHeight == 128) ++ BitVec.ofBool s.busy ++ s.phase.bits

/-- Status register 1, CFG (R130). -/
def State.cfgReg (s : State) : StatusWord := s.cfgHeight ++ s.cfgWidth

/-- Status register 2, SEQPOS (R130). -/
def State.seqposReg (s : State) : StatusWord := (0 : BitVec 1) ++ s.opKind.bit ++ s.initIdx ++ s.line

/-- A read of the status port, which changes no state (R130, R211). -/
def State.statusPort (s : State) (n : BitVec 2) : StatusWord :=
  if n = 0 then s.statusReg else if n = 1 then s.cfgReg else if n = 2 then s.seqposReg else 0

end Sys2Proof.Machine
end

