-- ==== Sys2Proof/Machine/Operands.lean ====
section
/-! DEFINITION. Quantities a request computes from its operands and the configuration registers: the geometry, buffer sizes and addresses (R11, R103, R202, R310), the RowRemapper (R500, R506, R507), and the RGB565 value (R400). -/

namespace Sys2Proof.Machine

/-- GEOM as a function of CFG_HEIGHT (R103). For any other height the spec leaves it undefined: a free
value (log 5). -/
def geometryOf (height : BitVec 8) : Geometry :=
  if height = 128 then .h128 else if height = 96 then .h96 else freeGeometry height

/-- The number of buffer rows of a geometry (R10). -/
def geometryRows : Geometry → Nat
  | .h96 => 96
  | .h128 => 128

/-- HEIGHT and WIDTH are values that CONSTRUCT accepts (R10, R451). -/
def legalConfig (h w : BitVec 8) : Bool := (h == 96 || h == 128) && w != 0

/-- LINE_BYTES = 2·W, the bytes of one buffer row (R11, R202). -/
def State.lineBytes (s : State) : Nat := bytesPerPixel * s.cfgWidth.toNat

/-- BUF_BYTES = 2·W·H (R11, R200). -/
def State.bufBytes (s : State) : Nat := 2 * s.cfgWidth.toNat * s.cfgHeight.toNat

/-- GEOM of the configured block (R103). -/
def State.geometry (s : State) : Geometry := geometryOf s.cfgHeight

/-- RemapRow(G, l), the buffer row of scan line l (R500). The H96 tail is the formula's, rows 95 to 64 (R505). -/
def remapRow (g : Geometry) (l : Nat) : Nat :=
  match g with
  | .h128 => ((95 - (l : Int)) % 128).toNat
  | .h96 => if l < 64 then 63 - l else if l < 96 then 0 else 191 - l

/-- RowOffset(G, W, l), the byte offset of that row in BUF (R500). -/
def rowOffset (g : Geometry) (w l : Nat) : Nat := remapRow g l * 2 * w

/-- Dead(G, l): the scan line is in the dead band of H96 (R506). -/
def deadLine (g : Geometry) (l : Nat) : Bool := g == .h96 && decide (64 ≤ l ∧ l < 96)

/-- The RowMapping of a geometry: the buffer row of each of the 128 scan lines (R501). -/
def rowMapping (g : Geometry) : List Nat := (List.range nScan).map (remapRow g)

/-- The gate-level form of RemapRow on a 7-bit scan line (R507). -/
def remapRowGates (g : Geometry) (l : BitVec 7) : BitVec 7 :=
  match g with
  | .h128 => 0x5F - l
  | .h96 =>
    if l.getLsbD 6 = false then (~~~ (l.extractLsb' 0 6)).zeroExtend 7
    else if l.getLsbD 5 = false then 0
    else (2 : BitVec 2) ++ ~~~ (l.extractLsb' 0 5)

/-- The RGB565 value of three 8-bit channels, by the formula of R400 on 16 bits. -/
def encodeRgb565 (r g b : Byte) : BitVec 16 :=
  ((r.zeroExtend 16 &&& 0xF8) <<< 8) ||| ((g.zeroExtend 16 &&& 0xFC) <<< 3) ||| (b.zeroExtend 16 >>> 3)

/-- The address of the first byte of pixel (x, y) for width w (R202). -/
def pixelAddress (w x y : Nat) : Nat := (y * w + x) * 2

end Sys2Proof.Machine
end

