-- ==== Sys2Proof/Machine/Ops.lean ====
section
/-! DEFINITION. The named operations every meaning and every sequencer step is written over: the pixel buffer (R200, R206), the output lines (R15), responses (R320), ending a request with an error (R701) and with BusError (R705), transactions (R601), holds (R454), callbacks (R608), the gates of R702, and the power-on reset (R800, R802). -/

namespace Sys2Proof.Machine

/-! ## The pixel buffer -/

/-- One byte of memory (R15, MemRead of one byte). -/
def Memory.read : Memory → Nat → Byte
  | [], _ => unlistedByte
  | (k, v) :: rest, a => if k = a then v else Memory.read rest a

/-- Stores one byte and keeps the canonical form (R15, MemWrite). -/
def Memory.write : Memory → Nat → Byte → Memory
  | [], a, v => if v = unlistedByte then [] else [(a, v)]
  | (k, x) :: rest, a, v =>
    if a < k then (if v = unlistedByte then (k, x) :: rest else (a, v) :: (k, x) :: rest)
    else if a = k then (if v = unlistedByte then rest else (a, v) :: rest)
    else (k, x) :: Memory.write rest a v

/-- The n bytes from address a, in rising address order (R15, MemRead; R206). -/
def Memory.readRun (m : Memory) (a n : Nat) : List Byte := (List.range n).map fun i => m.read (a + i)

/-- BUF[a]. -/
def State.readBuf (s : State) (a : Nat) : Byte := Memory.read s.buf a

/-- BUF[a] <- v. -/
def State.writeBuf (s : State) (a : Nat) (v : Byte) : State := { s with buf := Memory.write s.buf a v }

/-- The bytes of the buffer row that scan line l sends (R500, R553). -/
def State.rowBytes (s : State) (l : Nat) : List Byte :=
  Memory.readRun s.buf (rowOffset s.geometry s.cfgWidth.toNat l) s.lineBytes

/-! ## Output lines and events -/

/-- `Pin(p, v)`: drives line p to level v and emits `PIN(p, v)` (R15), also where the level does not change (R610). -/
def State.drive (s : State) (p : Pin) (v : Level) : State :=
  match p with
  | .res => { s with res := v, trace := s.trace ++ [.pin .res v] }
  | .cs => { s with cs := v, trace := s.trace ++ [.pin .cs v] }
  | .dc => { s with dc := v, trace := s.trace ++ [.pin .dc v] }

/-! ## Responses and errors -/

/-- The response word of a request that ends with OK (R320). -/
def okWord (row : BitVec 7) (dead : Bool) (result : BitVec 16) : HostWord :=
  result ++ BitVec.ofBool dead ++ row ++ (0 : BitVec 4) ++ ResultCode.ok.bits

/-- The response word of a request that ends with an error: exactly zext_32(RC) (R320, R701). -/
def errorWord (e : ResultCode) : HostWord := e.bits.zeroExtend 32

/-- LAST_RC <- rc and the response, in one atomic step (R111, R321). -/
def State.respond (s : State) (rc : ResultCode) (w : HostWord) : State :=
  { s with lastRc := rc, responses := s.responses ++ [w] }

/-- `respond(OK, result)` with ROW and DEAD (R15, R320). -/
def State.respondOk (s : State) (row : BitVec 7) (dead : Bool) (result : BitVec 16) : State :=
  s.respond .ok (okWord row dead result)

/-- `raise E`: the request ends at once with result code E (R701). This is the block's whole counterpart of
taking an exception; there is nothing to return from (R709, R710). For IllegalRequest, StateError,
ConfigurationError and AddressRange it is the whole effect (R703, R704). -/
def State.raise (s : State) (e : ResultCode) : State := s.respond e (errorWord e)

/-- The phase a failed request leaves the block in: UNCONF after CONSTRUCT, READY after SHOW (R705). -/
def failedPhase : OpKind → Phase
  | .construct => .unconf
  | .showFrame => .ready

/-- The BusError exit (R705), in one atomic step: the failure is located, the request ends with code 2, CS and
DC keep their levels, no event is emitted. CUR_REQ is no longer live and takes a free value (U18, log 3). -/
def State.busErrorExit (s : State) : State :=
  { s with
    failPhase := s.phase.bits, errSticky := true, phase := failedPhase s.opKind, wait := .host, txBytes := []
    lastRc := .busError, responses := s.responses ++ [errorWord .busError]
    curReq := freeCurReq s.draws, draws := s.draws + 1 }

/-! ## Transactions, holds and callbacks -/

/-- The mode of a transaction (R600). -/
inductive BusMode where
  | cmd
  | data
  deriving DecidableEq, Repr

/-- The DC level of a mode (R601, step b). -/
def Params.modeLevel (p : Params) : BusMode → Level
  | .cmd => p.dcCmdLevel
  | .data => p.dcDataLevel

/-- Steps a to d of `Transact(mode, bytes)` up to the transport's answer (R601): CS idle, DC to the mode, CS
to select, WRITE, in this order; then WAIT = BUS. -/
def State.startTransaction (s : State) (mode : BusMode) (bytes : List Byte) : State :=
  { s with
    dc := Params.modeLevel s.params mode, cs := s.params.csSelectLevel, wait := .bus, txBytes := bytes
    fetching := false
    trace := s.trace ++ [.pin .cs s.params.csIdle, .pin .dc (Params.modeLevel s.params mode),
      .pin .cs s.params.csSelectLevel, .write bytes] }

/-- Step e of `Transact` after the answer OK (R601). -/
def State.endTransaction (s : State) : State :=
  { s with cs := s.params.csIdle, trace := s.trace ++ [.pin .cs s.params.csIdle], txBytes := [] }

/-- `Delay()`: emits DELAY and waits for the timer (R15). -/
def State.startHold (s : State) : State := { s with trace := s.trace ++ [.delay], wait := .delay }

/-- `Callback()`: emits CB_REQ and waits for the callback agent; no pin is written (R608). -/
def State.startCallback (s : State) : State := { s with trace := s.trace ++ [.cbReq], wait := .cb }

/-- PHASE <- p (R15). -/
def State.goTo (s : State) (p : Phase) : State := { s with phase := p }

/-- Goes on to a phase whose first act is to take a panel command: INIT (R457) or SHOW_CMD (R552). The same
step takes it (R16, `State.settle`), so WAIT is left for the WRITE to set. -/
def State.enterFetch (s : State) (p : Phase) : State := { s with phase := p, fetching := true, txBytes := [] }

/-- The start of ShowBody (R551): the callback where CFG_CB_EN = 1, else straight to SHOW_CMD. -/
def State.showBody (s : State) : State :=
  if s.cfgCbEn then (s.goTo .cbShow).startCallback else s.enterFetch .showCmd

/-- Issues the data transaction of the scan line in LINE (R553). -/
def State.sendLine (s : State) : State := s.startTransaction .data (s.rowBytes s.line.toNat)

/-! ## The gates of R702 -/

/-- A request that is legal in UNCONF and READY. While BUSY it is held unaccepted: nothing changes (R301, R702, log 9). -/
def State.whenIdle (s : State) (f : State → State) : State := if s.busy then s else f s

/-- A request that is legal in READY only: StateError in UNCONF, held while BUSY (R702, R706). -/
def State.whenReady (s : State) (f : State → State) : State :=
  s.whenIdle fun t => if t.phase = .ready then f t else t.raise .stateError

/-- A buffer access: AddressRange at or above BUF_BYTES (R212, R704), checked after the state (R706). -/
def State.whenInBuf (s : State) (a : BufAddr) (f : State → State) : State :=
  if s.bufBytes ≤ a.toNat then s.raise .addressRange else f s

/-! ## Emitting panel commands -/

/-- The bytes join the transaction that is being put together (log 7). -/
def State.gather (s : State) (bytes : List Byte) : State := { s with txBytes := s.txBytes ++ bytes }

/-- The init streamer's act on one init command (R651, R652): its bytes join the transaction being put
together, which is issued after every command under DISCRETE and after ROM index 56 under BLOB (log 7).
Outside INIT the block emits no init command (R600, R672), so nothing changes (log 9). -/
def State.sendInitCommand (s : State) (bytes : List Byte) : State :=
  if s.phase = .init ∧ s.fetching = true then
    if s.params.initFraming = .discrete ∨ initLen ≤ s.initIdx.toNat + (s.txBytes ++ bytes).length then
      s.startTransaction .cmd (s.txBytes ++ bytes)
    else s.gather bytes
  else s

/-- The enable-data-write command, a transaction of its own in SHOW_CMD and nowhere else (R552, R669). -/
def State.sendEnable (s : State) (b : Byte) : State :=
  if s.phase = .showCmd ∧ s.fetching = true then s.startTransaction .cmd [b] else s

/-! ## The power-on reset -/

/-- The block's power-on reset in a running machine (R800, R802), where k bytes of a running WRITE had
reached the wire: every register and pin at its power-on value, no event and no response. The answer of
the agent the sequencer waited for is never learnt; what was observed before, the ROM and the parameters
stay, and so do requests that were not yet accepted (log 11). -/
def State.powerOnReset (s : State) (k : Nat) : State :=
  { State.powerOn s.params with
    rom := s.rom, trace := s.trace, responses := s.responses, holdTimes := s.holdTimes
    hostReqs := s.hostReqs, draws := s.draws
    busAnswers := if s.wait = .bus then s.busAnswers.tail else s.busAnswers
    cbAcks := if s.wait = .cb then s.cbAcks - 1 else s.cbAcks
    holds := if s.wait = .delay then s.holds.tail else s.holds
    wire := if s.wait = .bus then s.wire ++ s.txBytes.take k else s.wire }

end Sys2Proof.Machine
end

