-- ==== Sys2Proof/Machine/Load.lean ====
section
/-! DEFINITION. How an instruction is placed where the sequencer takes its next one: what withFetchWord stands for (log 2). -/

namespace Sys2Proof.Machine

/-- An idle block to which the host presents the request word w first. A block that is not idle is put in READY. -/
def State.loadRequest (s : State) (w : Nat) : State :=
  { s with
    porIn := none, fetching := false, wait := .host, phase := if s.busy then .ready else s.phase
    hostReqs := BitVec.ofNat 32 w :: s.hostReqs }

/-- The ROM with the bytes of one command in the place of its last ones. -/
def romEndingIn (rom bytes : List Byte) : List Byte := rom.take (initLen - bytes.length) ++ bytes

/-- A block about to take a panel command: an init command whose bytes are the last of the ROM, in INIT with all
bytes before it sent, so that either framing issues it at once; or, where no init command has that opcode, the
enable-data-write command, in SHOW_CMD. -/
def State.loadCommand (s : State) (w : Nat) : State :=
  match decodeCommand (tableBytes w) with
  | .ok i =>
    { s with
      porIn := none, fetching := true, phase := .init, txBytes := []
      initIdx := BitVec.ofNat 6 (initLen - (commandBytes s.params i).length)
      rom := romEndingIn s.rom (commandBytes s.params i) }
  | .error _ =>
    { s with
      porIn := none, fetching := true, phase := .showCmd, txBytes := []
      params := { s.params with cmdWriteRam := tableByte w 0 } }

end Sys2Proof.Machine
end

