-- ==== Sys2Proof/Machine/Construct.lean ====
section
/-! DEFINITION. CONSTRUCT (R450 to R454): validation, commit, and the first level of the reset pulse. The later phases are the sequencer's own steps (Machine/Sequencer.lean). -/

namespace Sys2Proof.Machine

/-- The commit step of CONSTRUCT (R452), with CUR_REQ taking the request word (R120). The zero fill of BUF
is memory with nothing listed (R201). -/
def State.commitConstruct (s : State) (h w : Byte) (cb : Bool) : State :=
  { s with
    cfgHeight := h, cfgWidth := w, cfgCbEn := cb, buf := [], opKind := .construct, initIdx := 0, line := 0
    curReq := requestWord (.construct h w cb) }

/-- CONSTRUCT h, w, cb (R450): ConfigurationError changes only LAST_RC (R451); otherwise commit, then RST_LO
with `Pin(RES, 0)` and `Delay()` (R454). -/
def execConstruct (h w : Byte) (cb : Bool) (s : State) : Host.Outcome State Fault Refusal :=
  .next <| s.whenIdle fun t =>
    if legalConfig h w then (((t.commitConstruct h w cb).goTo .rstLo).drive .res false).startHold
    else t.raise .configurationError

end Sys2Proof.Machine
end

