-- ==== Sys2Proof/Machine/PanelCommands.lean ====
section
/-! DEFINITION. The panel commands the block emits: the sixteen init commands (R653 to R668) and the enable-data-write command (R669). What the block does with one is to send its bytes in command mode; its effect on the panel is outside the block (R6). -/

namespace Sys2Proof.Machine

/-- 0xAE (sleep): the init streamer sends the opcode byte (R653). -/
def execSleep (s : State) : Host.Outcome State Fault Refusal :=
  .next (s.sendInitCommand [0xAE])

/-- 0xA0 (remap/depth): the init streamer sends the opcode and its argument byte (R654). -/
def execRemapDepth (x : Byte) (s : State) : Host.Outcome State Fault Refusal :=
  .next (s.sendInitCommand [0xA0, x])

/-- 0xA1 (start line): the init streamer sends the opcode and its argument byte (R655). -/
def execStartLine (x : Byte) (s : State) : Host.Outcome State Fault Refusal :=
  .next (s.sendInitCommand [0xA1, x])

/-- 0xA2 (offset): the init streamer sends the opcode and its argument byte (R656). -/
def execOffset (x : Byte) (s : State) : Host.Outcome State Fault Refusal :=
  .next (s.sendInitCommand [0xA2, x])

/-- 0xA6 (display mode): the init streamer sends the opcode byte (R657). -/
def execDisplayMode (s : State) : Host.Outcome State Fault Refusal :=
  .next (s.sendInitCommand [0xA6])

/-- 0xAD (master config): the init streamer sends the opcode and its argument byte (R658). -/
def execMasterConfig (x : Byte) (s : State) : Host.Outcome State Fault Refusal :=
  .next (s.sendInitCommand [0xAD, x])

/-- 0xB0 (power save): the init streamer sends the opcode and its argument byte (R659). -/
def execPowerSave (x : Byte) (s : State) : Host.Outcome State Fault Refusal :=
  .next (s.sendInitCommand [0xB0, x])

/-- 0xB1 (precharge): the init streamer sends the opcode and its argument byte (R660). -/
def execPrecharge (x : Byte) (s : State) : Host.Outcome State Fault Refusal :=
  .next (s.sendInitCommand [0xB1, x])

/-- 0xB3 (clock/osc): the init streamer sends the opcode and its argument byte (R661). -/
def execClockOsc (x : Byte) (s : State) : Host.Outcome State Fault Refusal :=
  .next (s.sendInitCommand [0xB3, x])

/-- 0xB8 (grayscale LUT): the init streamer sends the opcode and its 25 argument bytes (R662). -/
def execGrayscaleLut (lut : List Byte) (s : State) : Host.Outcome State Fault Refusal :=
  .next (s.sendInitCommand (0xB8 :: lut))

/-- 0xBB (precharge voltage), for channels A, B and C in that order: the init streamer sends the opcode and its three argument bytes (R663). -/
def execPrechargeVoltage (x y z : Byte) (s : State) : Host.Outcome State Fault Refusal :=
  .next (s.sendInitCommand [0xBB, x, y, z])

/-- 0xBE (VCOMH): the init streamer sends the opcode and its argument byte (R664). -/
def execVcomh (x : Byte) (s : State) : Host.Outcome State Fault Refusal :=
  .next (s.sendInitCommand [0xBE, x])

/-- 0xC1 (contrast): the init streamer sends the opcode and its three argument bytes (R665). -/
def execContrast (x y z : Byte) (s : State) : Host.Outcome State Fault Refusal :=
  .next (s.sendInitCommand [0xC1, x, y, z])

/-- 0xC7 (master current): the init streamer sends the opcode and its argument byte (R666). -/
def execMasterCurrent (x : Byte) (s : State) : Host.Outcome State Fault Refusal :=
  .next (s.sendInitCommand [0xC7, x])

/-- 0xCA (MUX ratio): the init streamer sends the opcode and its argument byte (R667). -/
def execMuxRatio (x : Byte) (s : State) : Host.Outcome State Fault Refusal :=
  .next (s.sendInitCommand [0xCA, x])

/-- 0xAF (display on): the init streamer sends the opcode byte (R668). -/
def execDisplayOn (s : State) : Host.Outcome State Fault Refusal :=
  .next (s.sendInitCommand [0xAF])

/-- CMD_WRITE_RAM (enable data write): sent alone at the start of every ShowBody, its byte the parameter
CMD_WRITE_RAM (R669). -/
def execEnableDataWrite (s : State) : Host.Outcome State Fault Refusal :=
  .next (s.sendEnable s.params.cmdWriteRam)

end Sys2Proof.Machine
end

