-- ==== Sys2Proof/Machine/PixelData.lean ====
section
/-! DEFINITION. The pixel data requests ENC (R400), BWR (R410) and BRD (R420). -/

namespace Sys2Proof.Machine

/-- ENC r, g, b (R400): legal in UNCONF and READY, answers the RGB565 value, touches nothing else. -/
def execEnc (r g b : Byte) (s : State) : Host.Outcome State Fault Refusal :=
  .next <| s.whenIdle fun t => t.respondOk 0 false (encodeRgb565 r g b)

/-- BWR a, d (R410): stores one byte of BUF, or ends with StateError or AddressRange. -/
def execBwr (a : BufAddr) (d : Byte) (s : State) : Host.Outcome State Fault Refusal :=
  .next <| s.whenReady fun t => t.whenInBuf a fun u => (u.writeBuf a.toNat d).respondOk 0 false 0

/-- BRD a (R420): answers one byte of BUF zero-extended to 16 bits, or ends with StateError or AddressRange. -/
def execBrd (a : BufAddr) (s : State) : Host.Outcome State Fault Refusal :=
  .next <| s.whenReady fun t => t.whenInBuf a fun u => u.respondOk 0 false ((u.readBuf a.toNat).zeroExtend 16)

end Sys2Proof.Machine
end

