-- ==== Sys2Proof/Machine/Remap.lean ====
section
/-! DEFINITION. REMAP, the host's query of the RowRemapper (R510). -/

namespace Sys2Proof.Machine

/-- REMAP l (R510): answers the buffer row, its byte offset and the dead-band flag of scan line l. -/
def execRemap (l : BitVec 7) (s : State) : Host.Outcome State Fault Refusal :=
  .next <| s.whenReady fun t =>
    t.respondOk (BitVec.ofNat 7 (remapRow t.geometry l.toNat)) (deadLine t.geometry l.toNat)
      (BitVec.ofNat 16 (rowOffset t.geometry t.cfgWidth.toNat l.toNat))

end Sys2Proof.Machine
end

