-- ==== Sys2Proof/Machine/Show.lean ====
section
/-! DEFINITION. SHOW (R550): the state gate and the start of ShowBody. The rest of ShowBody is the enable-data-write command and the sequencer's own steps (Machine/Sequencer.lean). -/

namespace Sys2Proof.Machine

/-- What SHOW writes when it is accepted in READY: OPKIND (R550), and CUR_REQ the request word (R120). -/
def State.commitShow (s : State) : State := { s with opKind := .showFrame, curReq := requestWord .showFrame }

/-- SHOW (R550): in READY OPKIND <- 1, then ShowBody (R551). -/
def execShow (s : State) : Host.Outcome State Fault Refusal :=
  .next <| s.whenReady fun t => t.commitShow.showBody

end Sys2Proof.Machine
end

