-- ==== Sys2Proof/Machine/Dispatch.lean ====
section
/-! DEFINITION. The meaning of every instruction: one arm for each constructor of Instr. -/

namespace Sys2Proof.Machine

def exec (i : Instr) (s : State) : Host.Outcome State Fault Refusal :=
  match i with
  -- host requests (R302)
  | .construct h w cb => Sys2Proof.Machine.execConstruct h w cb s
  | .showFrame => Sys2Proof.Machine.execShow s
  | .bwr a d => Sys2Proof.Machine.execBwr a d s
  | .brd a => Sys2Proof.Machine.execBrd a s
  | .enc r g b => Sys2Proof.Machine.execEnc r g b s
  | .remap l => Sys2Proof.Machine.execRemap l s
  -- emitted panel commands (R326)
  | .sleep => Sys2Proof.Machine.execSleep s
  | .remapDepth x => Sys2Proof.Machine.execRemapDepth x s
  | .startLine x => Sys2Proof.Machine.execStartLine x s
  | .offset x => Sys2Proof.Machine.execOffset x s
  | .displayMode => Sys2Proof.Machine.execDisplayMode s
  | .masterConfig x => Sys2Proof.Machine.execMasterConfig x s
  | .powerSave x => Sys2Proof.Machine.execPowerSave x s
  | .precharge x => Sys2Proof.Machine.execPrecharge x s
  | .clockOsc x => Sys2Proof.Machine.execClockOsc x s
  | .grayscaleLut lut => Sys2Proof.Machine.execGrayscaleLut lut s
  | .prechargeVoltage x y z => Sys2Proof.Machine.execPrechargeVoltage x y z s
  | .vcomh x => Sys2Proof.Machine.execVcomh x s
  | .contrast x y z => Sys2Proof.Machine.execContrast x y z s
  | .masterCurrent x => Sys2Proof.Machine.execMasterCurrent x s
  | .muxRatio x => Sys2Proof.Machine.execMuxRatio x s
  | .displayOn => Sys2Proof.Machine.execDisplayOn s
  | .enableDataWrite => Sys2Proof.Machine.execEnableDataWrite s

end Sys2Proof.Machine
end

