-- ==== Sys2Proof/Machine/Sequencer.lean ====
section
/-! DEFINITION. The sequencer's own steps: fetching a request or a panel command, and going on when the timer ends a hold (R454, R455), the callback agent answers (R456, R551) or the transport answers (R457, R552 to R554, R603, R705). A step that finds no answer of the transport or of the callback agent leaves the state as it is (R606, R608, log 18). -/

namespace Sys2Proof.Machine

/-- The block with the oldest presented request accepted, so that rest are still presented (R301). -/
def State.accepted (s : State) (rest : List HostWord) : State := { s with hostReqs := rest }

/-- The oldest request presented, and the block with that request accepted (R301). -/
def State.takeRequest (s : State) : Option (HostWord × State) :=
  match s.hostReqs with
  | [] => none
  | w :: rest => some (w, s.accepted rest)

/-- The ROM position of the next init command: after the bytes of completed transactions (R109) and the
bytes already gathered for the next one (log 7). -/
def State.romPosition (s : State) : Nat := s.initIdx.toNat + s.txBytes.length

/-- The panel command the sequencer takes next: from the ROM in INIT (R457), the byte CMD_WRITE_RAM in
SHOW_CMD (R552); none in another phase. -/
def State.fetchCommand (s : State) : Option (Except DecodeError Instr) :=
  match s.phase with
  | .init => some (decode s.params (.command (s.rom.drop s.romPosition)))
  | .showCmd => some (decode s.params (.enable s.params.cmdWriteRam))
  | _ => none

/-- The timer has ended a hold, the `extra` microseconds after T_HOLD_MIN that it had fixed (R454, log 12). -/
def State.tookHold (s : State) (extra : Nat) (rest : List Nat) : State :=
  { s with holds := rest, holdTimes := s.holdTimes ++ [tHoldMinUs + extra] }

/-- The timer has ended a hold whose duration it had not fixed: a free value beyond T_HOLD_MIN (R454, U5, log 12). -/
def State.drewHold (s : State) : State :=
  { s with holdTimes := s.holdTimes ++ [tHoldMinUs + freeHold s.draws], draws := s.draws + 1 }

/-- What follows a hold (R455): from RST_LO the line goes high and the second hold starts; from RST_HI the
block goes on to the callback or to the init stream. -/
def State.afterHold (s : State) : Host.Outcome State Fault Refusal :=
  match s.phase with
  | .rstLo => .next ((s.goTo .rstHi).drive .res true).startHold
  | .rstHi => .next (if s.cfgCbEn then (s.goTo .cbInit).startCallback else s.enterFetch .init)
  | _ => .fault .waitPhaseMismatch

/-- WAIT = DELAY: the sequencer's next step is the one that follows the end of the hold (R7), which never
comes before T_HOLD_MIN (R454, R463). -/
def State.stepDelay (s : State) : Host.Outcome State Fault Refusal :=
  match s.holds with
  | [] => s.drewHold.afterHold
  | extra :: rest => (s.tookHold extra rest).afterHold

/-- The callback agent has answered, and n of its CB_ACKs are left (R608). -/
def State.tookAck (s : State) (n : Nat) : State := { s with cbAcks := n }

/-- What follows a callback: from CB_INIT the init stream (R456), from CB_SHOW SHOW_CMD (R551). -/
def State.afterCallback (s : State) : Host.Outcome State Fault Refusal :=
  match s.phase with
  | .cbInit => .next (s.enterFetch .init)
  | .cbShow => .next (s.enterFetch .showCmd)
  | _ => .fault .waitPhaseMismatch

/-- WAIT = CB: the callback ends when the callback agent answers (R608). -/
def State.stepCallback (s : State) : Host.Outcome State Fault Refusal :=
  match s.cbAcks with
  | 0 => .next s
  | n + 1 => (s.tookAck n).afterCallback

/-- The transport has answered, and n of the bytes of the WRITE reached the wire (R605, log 14). -/
def State.tookAnswer (s : State) (rest : List BusAnswer) (n : Nat) : State :=
  { s with busAnswers := rest, wire := s.wire ++ s.txBytes.take n }

/-- INIT_IDX <- INIT_IDX + n (R109). -/
def State.advanceInit (s : State) (n : Nat) : State := { s with initIdx := s.initIdx + BitVec.ofNat 6 n }

/-- An init transaction of n bytes ended with OK (R457, R651, R652): INIT_IDX grows by n; at 57 the block
goes on to ShowBody, before that it takes the next command. -/
def State.afterInitWrite (s : State) (n : Nat) : State :=
  if initLen ≤ (s.advanceInit n).initIdx.toNat then (s.advanceInit n).showBody else (s.advanceInit n).enterFetch .init

/-- LINE <- 0; PHASE <- SHOW_LINES (R552). -/
def State.enterLines (s : State) : State := { s with line := 0, phase := .showLines }

/-- LINE <- LINE + 1 (R553). -/
def State.advanceLine (s : State) : State := { s with line := s.line + 1 }

/-- PHASE <- READY; respond(OK, 0): the end of a request that made the block busy (R459, R550).
CUR_REQ is no longer live and takes a free value (U18, log 3). -/
def State.finish (s : State) : State :=
  { s with
    phase := .ready, wait := .host, lastRc := .ok, responses := s.responses ++ [okWord 0 false 0]
    curReq := freeCurReq s.draws, draws := s.draws + 1 }

/-- The transaction of scan line LINE ended with OK (R553, R554): the next line, or the end of the request. -/
def State.afterLineWrite (s : State) : State :=
  if s.advanceLine.line.toNat < nScan then s.advanceLine.sendLine else s.advanceLine.finish

/-- A transaction that sent n bytes was answered OK and step e is done: what comes next in its phase. -/
def State.afterWrite (s : State) (n : Nat) : Host.Outcome State Fault Refusal :=
  match s.phase with
  | .init => .next (s.afterInitWrite n)
  | .showCmd => .next s.enterLines.sendLine
  | .showLines => .next s.afterLineWrite
  | _ => .fault .waitPhaseMismatch

/-- The BusError exit, for the phases that perform transactions (R600, R705). -/
def State.failWrite (s : State) : Host.Outcome State Fault Refusal :=
  match s.phase with
  | .init => .next s.busErrorExit
  | .showCmd => .next s.busErrorExit
  | .showLines => .next s.busErrorExit
  | _ => .fault .waitPhaseMismatch

/-- WAIT = BUS: the transport's answer to the running WRITE (R605). On OK all its bytes reached the wire, on
ERR the prefix the transport drew (log 14). -/
def State.stepBus (s : State) : Host.Outcome State Fault Refusal :=
  match s.busAnswers with
  | [] => .next s
  | .ok :: rest => (s.tookAnswer rest s.txBytes.length).endTransaction.afterWrite s.txBytes.length
  | .err k :: rest => (s.tookAnswer rest k).failWrite

end Sys2Proof.Machine
end

