-- ==== Sys2Proof/Machine/Streamer.lean ====
section
/-! DEFINITION. The sequencer's work between two waiting points is one step (R16): a step that brings it to a panel command takes and runs the commands, one after the other, until a WRITE is running. -/

namespace Sys2Proof.Machine

/-- Takes and runs the next panel command (R457, R552). -/
def State.takeCommand (s : State) : Host.Outcome State Fault Refusal :=
  match s.fetchCommand with
  | none => .fault .waitPhaseMismatch
  | some (.ok i) => exec i s
  | some (.error _) => .refused .noCommandInRom

/-- Goes on to the next waiting point (R16), over at most n panel commands. -/
def State.settle : Nat → State → Host.Outcome State Fault Refusal
  | 0, s => .next s
  | n + 1, s =>
    if s.fetching then
      match s.takeCommand with
      | .next t => State.settle n t
      | .fault r => .fault r
      | .refused r => .refused r
    else .next s

/-- The outcome of a step whose work so far came to o. An init transaction has at most INIT_LEN commands, one for
each of its bytes, so INIT_LEN commands always reach a waiting point. -/
def settled (o : Host.Outcome State Fault Refusal) : Host.Outcome State Fault Refusal :=
  match o with
  | .next t => t.settle initLen
  | .fault r => .fault r
  | .refused r => .refused r

/-- WAIT = HOST: accepts and runs the oldest request presented, where IllegalRequest answers a word that decodes
to none (R301, R706). -/
def State.stepHost (s : State) : Host.Outcome State Fault Refusal :=
  if s.busy then .fault .waitPhaseMismatch
  else
    match s.takeRequest with
    | none => .next s
    | some (w, t) =>
      match decodeRequest w with
      | .ok i => exec i t
      | .error _ => .next (t.raise .illegalRequest)

/-- The first work of a step: what WAIT says (R119), or nothing where a panel command is about to be taken. -/
def State.advance (s : State) : Host.Outcome State Fault Refusal :=
  if s.fetching then .next s
  else
    match s.wait with
    | .host => s.stepHost
    | .delay => s.stepDelay
    | .cb => s.stepCallback
    | .bus => s.stepBus

end Sys2Proof.Machine
end

