-- ==== Sys2Proof/Machine/Step.lean ====
section
/-! DEFINITION. One step of the sequencer, and the state whose next step runs a given instruction. -/

namespace Sys2Proof.Machine

/-- One step of the block, from one waiting point to the next (R16). A power-on reset comes first (R802).
Otherwise the step goes on from the waiting point WAIT names (R119), and then to the next one. -/
def step (s : State) : Host.Outcome State Fault Refusal :=
  match s.porIn with
  | some k => .next (s.powerOnReset k)
  | none => settled s.advance

/-- The state with the instruction of nbits bits w placed where the next step takes its instruction (log 2):
a request word at the head of the host's mailbox of an idle block; an init command's bytes as the last of the
ROM of a block in INIT; the byte of the enable-data-write command as CMD_WRITE_RAM of a block in SHOW_CMD. -/
def State.withFetchWord (s : State) (nbits w : Nat) : State :=
  match decodeTableWord nbits w with
  | some i => if i.isRequest then s.loadRequest w else s.loadCommand w
  | none => s.loadRequest w

end Sys2Proof.Machine
end

