-- ==== Sys2Proof/Machine/Agents.lean ====
section
/-! DEFINITION. The steps of the environment agents of R7: what the host, the transport, the callback agent, the delay timer and the power-on reset input may do to the block's inputs, between any two steps of the sequencer (log 2). -/

namespace Sys2Proof.Machine

/-- One act of an environment agent. -/
inductive AgentAction where
  /-- The host presents a request word (R301). -/
  | present (w : HostWord)
  /-- The host, or any agent, reads a register of the status port (R130). -/
  | readStatus (n : BitVec 2)
  /-- The transport answers OK to the running WRITE, or to the next one not yet answered (R605). -/
  | answerOk
  /-- The transport answers ERR, after a prefix of `delivered` bytes (R605). -/
  | answerErr (delivered : Nat)
  /-- The callback agent gives CB_ACK (R608). -/
  | callbackAck
  /-- The delay timer ends a hold, `extra` microseconds after T_HOLD_MIN (R454, R807). -/
  | endHold (extra : Nat)
  /-- A power-on reset arrives, `delivered` bytes into a running WRITE (R802, U19). -/
  | powerOnReset (delivered : Nat)
  deriving DecidableEq, Repr

/-- The state after an act of an environment agent: its mailbox has grown; nothing of the block has changed. -/
def State.agent (s : State) (a : AgentAction) : State :=
  match a with
  | .present w => { s with hostReqs := s.hostReqs ++ [w] }
  | .readStatus _ => s
  | .answerOk => { s with busAnswers := s.busAnswers ++ [.ok] }
  | .answerErr k => { s with busAnswers := s.busAnswers ++ [.err k] }
  | .callbackAck => { s with cbAcks := s.cbAcks + 1 }
  | .endHold extra => { s with holds := s.holds ++ [extra] }
  | .powerOnReset k => { s with porIn := some k }

end Sys2Proof.Machine
end

