-- ==== Sys2Proof/Machine/Assembler.lean ====
section
/-! DEFINITION. The host's side: the host-program syntax (R330) and the pseudo-instructions PIXW, PIXR and PIXRGB (R331), with the big-endian host convention (R207). -/

namespace Sys2Proof.Machine

/-- One line of a host program (R330, R331). Operands are numbers; one that does not fit its field is an
assembly error. -/
inductive AsmLine where
  | construct (h w : Nat) (cb : Bool)
  | showFrame
  | bwr (a d : Nat)
  | brd (a : Nat)
  | enc (r g b : Nat)
  | remap (l : Nat)
  | word (v : Nat)
  | pixw (x y v : Nat)
  | pixr (x y : Nat)
  | pixrgb (x y r g b : Nat)
  deriving DecidableEq, Repr

/-- The word, where the operands fit their fields. -/
def fits (ok : Bool) (w : Nat) : Option HostWord := if ok then some (BitVec.ofNat 32 w) else none

/-- `BWR a, d` as the syntax table computes its word (R330). -/
def bwrWord (a d : Nat) : Option HostWord :=
  fits (decide (a < 65536 ∧ d < 256)) ((d <<< 24) ||| (a <<< 8) ||| 0x03)

/-- `BRD a` as the syntax table computes its word (R330). -/
def brdWord (a : Nat) : Option HostWord := fits (decide (a < 65536)) ((a <<< 8) ||| 0x04)

/-- `ENC r, g, b` as the syntax table computes its word (R330). -/
def encWord (r g b : Nat) : Option HostWord :=
  fits (decide (r < 256 ∧ g < 256 ∧ b < 256)) ((b <<< 24) ||| (g <<< 16) ||| (r <<< 8) ||| 0x05)

/-- Both words of a two-request expansion, or an assembly error. -/
def both (v w : Option HostWord) : Option (List HostWord) :=
  match v, w with
  | some v, some w => some [v, w]
  | _, _ => none

/-- `PIXW x, y, v` for width w: the high byte of v at the even address, the low byte after it (R331, R207). -/
def pixw (w x y v : Nat) : Option (List HostWord) :=
  if v < 65536 then both (bwrWord (pixelAddress w x y) (v / 256)) (bwrWord (pixelAddress w x y + 1) (v % 256))
  else none

/-- `PIXR x, y` for width w: the two reads (R331). -/
def pixr (w x y : Nat) : Option (List HostWord) :=
  both (brdWord (pixelAddress w x y)) (brdWord (pixelAddress w x y + 1))

/-- The pixel value the host assembles from the responses of PIXR's two reads (R331). -/
def pixrValue (first second : HostWord) : BitVec 16 := first.extractLsb' 16 8 ++ second.extractLsb' 16 8

/-- The requests of PIXRGB after its ENC: PIXW with the RESULT of the ENC response, which the host carries
over (R331). A pixel address that does not fit BWR's ADDR field is reported here, after the ENC has been assembled
(DESIGN CHOICE, log 22). -/
def pixrgbRest (w x y : Nat) (encResponse : HostWord) : Option (List HostWord) :=
  pixw w x y (encResponse.extractLsb' 16 16).toNat

/-- The request words of one line, for the assembly-time width w; none is an assembly error (R330). For
PIXRGB it is the ENC alone, whatever x and y are: the words of `pixrgbRest` depend on its response. R330 does not
say whether a PIXRGB whose pixel address does not fit still gives its ENC; here it does (DESIGN CHOICE, log 22). -/
def assemble (w : Nat) : AsmLine → Option (List HostWord)
  | .construct h wd cb =>
    (fits (decide (h < 256 ∧ wd < 256)) ((wd <<< 16) ||| (h <<< 8) ||| (if cb then 0x11 else 0x01))).map ([·])
  | .showFrame => some [0x00000002]
  | .bwr a d => (bwrWord a d).map ([·])
  | .brd a => (brdWord a).map ([·])
  | .enc r g b => (encWord r g b).map ([·])
  | .remap l => (fits (decide (l < 128)) ((l <<< 8) ||| 0x06)).map ([·])
  | .word v => (fits (decide (v < 2 ^ 32)) v).map ([·])
  | .pixw x y v => pixw w x y v
  | .pixr x y => pixr w x y
  | .pixrgb _ _ r g b => (encWord r g b).map ([·])

/-! ## The text of a line (log 17) -/

/-- A finished token, where there is one, before the tokens that follow it. -/
def flush (cur : List Char) (rest : List (List Char)) : List (List Char) := if cur = [] then rest else cur :: rest

/-- The tokens of a line: blanks separate, a comma and an equals sign stand alone, `;` starts a comment. -/
def tokens : List Char → List Char → List (List Char)
  | cur, [] => flush cur []
  | cur, c :: cs =>
    if c = ';' then flush cur []
    else if c = ' ' ∨ c = '\t' then flush cur (tokens [] cs)
    else if c = ',' ∨ c = '=' then flush cur ([c] :: tokens [] cs)
    else tokens (cur ++ [c]) cs

/-- The value of a digit in a base up to 16. -/
def digit (base : Nat) (c : Char) : Option Nat :=
  let n := c.toNat
  let v := if 48 ≤ n ∧ n ≤ 57 then n - 48 else if 97 ≤ n ∧ n ≤ 102 then n - 87 else if 65 ≤ n ∧ n ≤ 70 then n - 55 else 16
  if v < base then some v else none

/-- The number spelled by digits, after the value read so far. -/
def digits (base : Nat) : Nat → List Char → Option Nat
  | acc, [] => some acc
  | acc, c :: cs =>
    match digit base c with
    | some v => digits base (acc * base + v) cs
    | none => none

/-- A number: decimal or 0x-hex (R330). -/
def number : List Char → Option Nat
  | [] => none
  | '0' :: 'x' :: c :: cs => digits 16 0 (c :: cs)
  | cs => digits 10 0 cs

/-- The numbers of an operand list, with commas between them. -/
def operands : List (List Char) → Option (List Nat)
  | [] => some []
  | [t] => (number t).map ([·])
  | t :: [','] :: u :: rest =>
    match number t, operands (u :: rest) with
    | some n, some ns => some (n :: ns)
    | _, _ => none
  | _ => none

/-- The line that a mnemonic and its operand tokens spell (R330, R331). -/
def parseTokens : List (List Char) → Option AsmLine
  | ['C', 'O', 'N', 'S', 'T', 'R', 'U', 'C', 'T'] :: ['h'] :: ['='] :: h :: [','] :: ['w'] :: ['='] :: w :: tail =>
    match number h, number w with
    | some h, some w =>
      if tail = [] then some (.construct h w false)
      else if tail = [[','], ['c', 'b']] then some (.construct h w true) else none
    | _, _ => none
  | m :: rest =>
    match operands rest with
    | some ns =>
      if m = ['S', 'H', 'O', 'W'] ∧ ns = [] then some .showFrame
      else
        match ns with
        | [a] =>
          if m = ['B', 'R', 'D'] then some (.brd a)
          else if m = ['R', 'E', 'M', 'A', 'P'] then some (.remap a)
          else if m = ['.', 'w', 'o', 'r', 'd'] then some (.word a) else none
        | [a, b] =>
          if m = ['B', 'W', 'R'] then some (.bwr a b) else if m = ['P', 'I', 'X', 'R'] then some (.pixr a b) else none
        | [a, b, c] =>
          if m = ['E', 'N', 'C'] then some (.enc a b c) else if m = ['P', 'I', 'X', 'W'] then some (.pixw a b c) else none
        | [a, b, c, d, e] => if m = ['P', 'I', 'X', 'R', 'G', 'B'] then some (.pixrgb a b c d e) else none
        | _ => none
    | none => none
  | [] => none

/-- A line of a host program; a line with no token, blank or comment, spells nothing. -/
def parseLine (text : List Char) : Option AsmLine := parseTokens (tokens [] text)

end Sys2Proof.Machine
end

