-- ==== Sys2Proof/Safety.lean ====
section
/-! DEFINITION. The terms claims are stated in: the event trace of transactions, refreshes and constructions (R462, R557, R601), the conditions under which an instruction is taken, the invariant of the block (`State.Consistent`), and which states a run can reach. -/

namespace Sys2Proof.Machine

/-! ## Traces, written from the spec's own listings -/

/-- The DC level of a mode (R601). -/
def dcOf (p : Params) : BusMode → Level
  | .cmd => p.dcCmdLevel
  | .data => !p.dcCmdLevel

/-- The events of a transaction up to its WRITE: steps a to d of R601. -/
def framedStart (p : Params) (m : BusMode) (bytes : List Byte) : List Event :=
  [.pin .cs (!p.csSelectLevel), .pin .dc (dcOf p m), .pin .cs p.csSelectLevel, .write bytes]

/-- T(m, bytes): the five events of a completed transaction (R601). -/
def framed (p : Params) (m : BusMode) (bytes : List Byte) : List Event :=
  framedStart p m bytes ++ [.pin .cs (!p.csSelectLevel)]

/-- The state in which the WRITE of a transaction with these bytes has just been issued (R601, R602). -/
def State.issued (s : State) (m : BusMode) (bytes : List Byte) : State :=
  { s with
    cs := s.params.csSelectLevel, dc := dcOf s.params m, wait := .bus, fetching := false, txBytes := bytes
    trace := s.trace ++ framedStart s.params m bytes }

/-- BUF[RowRange(GEOM, W, l)]: the bytes that scan line l sends, in rising address order (R500, R206). -/
def State.lineData (s : State) (l : Nat) : List Byte :=
  (List.range (2 * s.cfgWidth.toNat)).map fun i => s.readBuf (remapRow s.geometry l * 2 * s.cfgWidth.toNat + i)

/-- `[CB_REQ]`, where CFG_CB_EN = 1 (R462, R557). -/
def callbackEvents (cb : Bool) : List Event := if cb then [.cbReq] else []

/-- The transactions of the scan lines 0 to n - 1 (R553). -/
def State.linesTrace (s : State) (n : Nat) : List Event :=
  (List.range n).flatMap fun l => framed s.params .data (s.lineData l)

/-- The event trace of a ShowBody that completes (R557). -/
def State.showTrace (s : State) : List Event :=
  callbackEvents s.cfgCbEn ++ framed s.params .cmd [s.params.cmdWriteRam] ++ s.linesTrace nScan

/-- The ROM bytes of one range of R652. -/
def romSlice (rom : List Byte) (r : Nat × Nat) : List Byte := (rom.drop r.1).take (r.2 - r.1)

/-- The event trace of an init stream that completes: one transaction, or sixteen (R651, R652). -/
def initTrace (p : Params) : List Event :=
  match p.initFraming with
  | .blob => framed p .cmd initRom
  | .discrete => initRanges.flatMap fun r => framed p .cmd (romSlice initRom r)

/-- The number of WRITEs of an init stream (R813). -/
def initWrites : InitFraming → Nat
  | .blob => 1
  | .discrete => 16

/-- The event trace of a successful CONSTRUCT (R462), for the configuration in s (BUF all zero). -/
def State.constructTrace (s : State) : List Event :=
  [.pin .res false, .delay, .pin .res true, .delay] ++ callbackEvents s.cfgCbEn ++ initTrace s.params ++ s.showTrace

/-- The bytes that reach the wire in a refresh that completes. -/
def State.showBytes (s : State) : List Byte :=
  s.params.cmdWriteRam :: (List.range nScan).flatMap fun l => s.lineData l

/-- The level line p has after the events, where it had level v before them. -/
def levelAfter (p : Pin) (v : Level) (events : List Event) : Level :=
  events.foldl (fun cur e => match e with | .pin q w => if q = p then w else cur | _ => cur) v

/-! ## When the block takes what -/

/-- The block is at the waiting point w (R16, R119), and no reset arrives. -/
abbrev State.waitsFor (s : State) (w : Wait) : Prop := s.porIn = none ∧ s.fetching = false ∧ s.wait = w

/-- The block is idle: it waits for a request, BUSY = 0, and no reset arrives (R107, R119). -/
def State.idle (s : State) : Prop := s.waitsFor .host ∧ s.busy = false

/-- Within a step, the sequencer is about to take an init command (INIT, R457, log 6). -/
def State.inInit (s : State) : Prop := s.phase = .init ∧ s.fetching = true

/-- Within a step, the sequencer is about to send the enable-data-write command (R552, log 6). -/
def State.inShowCmd (s : State) : Prop := s.phase = .showCmd ∧ s.fetching = true

/-- What the init streamer does with one command's bytes (R651, R652): under DISCRETE, and at the end of the
stream, the transaction is issued; under BLOB before that, the bytes are gathered (log 7). -/
def State.afterInitCommand (s : State) (bytes : List Byte) : State :=
  if s.params.initFraming = .discrete ∨ 57 ≤ s.initIdx.toNat + s.txBytes.length + bytes.length then
    s.issued .cmd (s.txBytes ++ bytes)
  else { s with txBytes := s.txBytes ++ bytes }

/-- The transport's OK to the running WRITE, with step e of the transaction done (R601): CS is idle. -/
def State.answeredOk (s : State) (rest : List BusAnswer) : State :=
  { s with
    busAnswers := rest, wire := s.wire ++ s.txBytes, cs := !s.params.csSelectLevel, txBytes := []
    trace := s.trace ++ [.pin .cs (!s.params.csSelectLevel)] }

/-- 1 while a request is being executed, else 0. -/
def State.outstanding (s : State) : Nat := if s.busy then 1 else 0

/-- CB_EN as a count (R462, R813). -/
def cbCount (cb : Bool) : Nat := if cb then 1 else 0

/-- The bytes of the first init transaction: the whole ROM, or its first command (R651, R652). -/
def firstInitBytes (p : Params) : List Byte :=
  match p.initFraming with
  | .blob => initRom
  | .discrete => romSlice initRom (0, 1)

/-- The events at the start of a ShowBody, up to its first waiting point: the callback where one is configured,
else the enable-data-write command up to its WRITE (R551, R552). -/
def State.showStart (s : State) : List Event :=
  if s.cfgCbEn then [.cbReq] else framedStart s.params .cmd [s.params.cmdWriteRam]

/-- Under DISCRETE, the events that follow n completed init transactions, up to the next waiting point: the start of
the next transaction, or of ShowBody after the last one (R652, R457). -/
def State.initStartAfter (s : State) (n : Nat) : List Event :=
  match initRanges[n]? with
  | some r => framedStart s.params .cmd (romSlice initRom r)
  | none => s.showStart

/-- A reserved encoding (R302 to R309, R328): a reserved OP, or a reserved bit of the OP's format set. -/
def reservedWord (w : HostWord) : Prop :=
  (w.extractLsb' 0 4 = 0 ∨ 7 ≤ (w.extractLsb' 0 4).toNat)
    ∨ (w.extractLsb' 0 4 = 1 ∧ (w.extractLsb' 5 3 ≠ 0 ∨ w.extractLsb' 24 8 ≠ 0))
    ∨ (w.extractLsb' 0 4 = 2 ∧ w.extractLsb' 4 28 ≠ 0)
    ∨ (w.extractLsb' 0 4 = 3 ∧ w.extractLsb' 4 4 ≠ 0)
    ∨ (w.extractLsb' 0 4 = 4 ∧ (w.extractLsb' 4 4 ≠ 0 ∨ w.extractLsb' 24 8 ≠ 0))
    ∨ (w.extractLsb' 0 4 = 5 ∧ w.extractLsb' 4 4 ≠ 0)
    ∨ (w.extractLsb' 0 4 = 6 ∧ (w.extractLsb' 4 4 ≠ 0 ∨ w.extractLsb' 15 17 ≠ 0))

/-- The request ends with the error e: LAST_RC and the response zext_32(e), and nothing else (R701, R703, R704). -/
def State.errored (s : State) (e : ResultCode) (code : HostWord) : State :=
  { s with lastRc := e, responses := s.responses ++ [code] }

/-! ## The invariant of the block -/

/-- WAIT has the value that R119 gives for PHASE. -/
def waitFits : Phase → Wait → Bool
  | .unconf, w => w == .host
  | .rstLo, w => w == .delay
  | .rstHi, w => w == .delay
  | .cbInit, w => w == .cb
  | .init, w => w == .bus
  | .cbShow, w => w == .cb
  | .showCmd, w => w == .bus
  | .showLines, w => w == .bus
  | .ready, w => w == .host

/-- The invariant: what holds of the block in every state a run reaches, whatever its environment does. -/
structure State.Consistent (s : State) : Prop where
  /-- The ROM holds the fixed 57 bytes (R650). -/
  rom : s.rom = initRom
  /-- BUF is in canonical form. -/
  bufCanonical : Memory.wf s.buf
  /-- BUF lists no address at or above BUF_BYTES (R200, R212). -/
  bufBounded : ∀ c ∈ s.buf, c.1 < 2 * s.cfgWidth.toNat * s.cfgHeight.toNat
  /-- The configuration is legal, or the block has committed none since its power-on (R102, R104, R451). -/
  config : legalConfig s.cfgHeight s.cfgWidth = true
    ∨ (s.phase = .unconf ∧ s.cfgHeight = 0 ∧ s.cfgWidth = 0 ∧ s.cfgCbEn = false)
  /-- The block is at a waiting point: no state between two of them is ever seen (R16, log 6). -/
  settled : s.fetching = false
  /-- WAIT agrees with PHASE (R119). -/
  waitPhase : waitFits s.phase s.wait = true
  /-- INIT_IDX is in 0 to 57 (R109). -/
  initRange : s.initIdx.toNat ≤ 57
  /-- INIT_IDX is 57 once the stream is done (R109, R459). -/
  initDone : s.phase = .cbShow ∨ s.phase = .showCmd ∨ s.phase = .showLines ∨ s.phase = .ready → s.initIdx = 57
  /-- INIT_IDX is 0 before the stream (R452). -/
  initNotBegun : s.phase = .rstLo ∨ s.phase = .rstHi ∨ s.phase = .cbInit → s.initIdx = 0
  /-- LINE is in 0 to 128 (R110). -/
  lineRange : s.line.toNat ≤ 128
  /-- In SHOW_LINES a scan line is being sent (R110). -/
  lineRunning : s.phase = .showLines → s.line.toNat < 128
  /-- The phases before ShowBody belong to a CONSTRUCT (R108). -/
  constructing : s.phase = .rstLo ∨ s.phase = .rstHi ∨ s.phase = .cbInit ∨ s.phase = .init → s.opKind = .construct
  /-- A callback runs only where one is configured (R609). -/
  callback : s.phase = .cbInit ∨ s.phase = .cbShow → s.cfgCbEn = true
  /-- The panel reset line is low in RST_LO and nowhere else (R114, R454, R455). -/
  resetLine : s.res = false ↔ s.phase = .rstLo
  /-- Chip-select is at the select level for the whole of a WRITE (R602). -/
  writeSelected : s.wait = .bus → s.cs = s.params.csSelectLevel
  /-- The mode line says data for the whole of a scan line's WRITE (R602). -/
  writeDataMode : s.wait = .bus → s.phase = .showLines → s.dc = !s.params.dcCmdLevel
  /-- The mode line says command for the whole of every other WRITE (R602). -/
  writeCmdMode : s.wait = .bus → s.phase ≠ .showLines → s.dc = s.params.dcCmdLevel
  /-- Outside a WRITE chip-select is idle, unless a BusError left it selected (R603, R610). -/
  csIdle : s.wait ≠ .bus → s.cs = (!s.params.csSelectLevel) ∨ s.errSticky = true
  /-- BLOB: the init WRITE carries the whole ROM (R651). -/
  blobTransfer : s.phase = .init → s.params.initFraming = .blob → s.initIdx = 0 ∧ s.txBytes = initRom
  /-- DISCRETE: INIT_IDX is the start of a command's range, and the init WRITE carries that range (R652). -/
  discreteTransfer : s.phase = .init → s.params.initFraming = .discrete →
    ∃ r ∈ initRanges, s.initIdx.toNat = r.1 ∧ s.txBytes = romSlice initRom r
  /-- In SHOW_CMD the WRITE carries the enable-data-write command (R552). -/
  enableTransfer : s.phase = .showCmd → s.txBytes = [s.params.cmdWriteRam]
  /-- In SHOW_LINES the WRITE carries the buffer row of scan line LINE (R553). -/
  lineTransfer : s.phase = .showLines → s.txBytes = s.lineData s.line.toNat
  /-- In the other phases no transaction is at hand (R600). -/
  noTransfer : s.phase ≠ .init → s.phase ≠ .showCmd → s.phase ≠ .showLines → s.txBytes = []
  /-- FAIL_PHASE is 0 without a BusError since power-on (R122). -/
  noFailure : s.errSticky = false → s.failPhase = 0
  /-- FAIL_PHASE is 4, 6 or 7 after a BusError (R112, R122). -/
  failure : s.errSticky = true → s.failPhase = 4 ∨ s.failPhase = 6 ∨ s.failPhase = 7
  /-- While a CONSTRUCT runs, CUR_REQ is its request, with the committed operands (R120). -/
  constructRequest : s.busy = true → s.opKind = .construct →
    s.curReq = requestWord (.construct s.cfgHeight s.cfgWidth s.cfgCbEn)
  /-- While a SHOW runs, CUR_REQ is its request (R120). -/
  showRequest : s.busy = true → s.opKind = .showFrame → s.curReq = requestWord .showFrame

/-! ## Runs -/

/-- The states of a run: power-on with any parameters, then steps of the sequencer and acts of the
environment agents in any order (R7). -/
inductive Reachable : State → Prop where
  | powerOn (p : Params) : Reachable (State.powerOn p)
  | step (s t : State) : Reachable s → Sys2Proof.Machine.step s = .next t → Reachable t
  | agent (s : State) (a : AgentAction) : Reachable s → Reachable (s.agent a)

/-- n steps of the sequencer lead from s to t, and none of them stops. -/
def runs : Nat → State → State → Prop
  | 0, s, t => s = t
  | n + 1, s, t => ∃ u, Sys2Proof.Machine.step s = .next u ∧ runs n u t

/-! ## Endless runs and weak fairness (R812) -/

/-- An endless run of the five agents (R7): from power-on with any parameters, each state follows from the one
before by a step of the sequencer or by an act of an environment agent, and the sequencer, which is the hardware,
is never stopped for good. The delay timer needs no condition: it ends every hold (R7, R454), and the sequencer's
next step is the one that follows. -/
structure Execution (σ : Nat → State) : Prop where
  start : ∃ p, σ 0 = State.powerOn p
  next : ∀ n, Sys2Proof.Machine.step (σ n) = .next (σ (n + 1)) ∨ ∃ a, σ (n + 1) = (σ n).agent a
  live : ∀ n, ∃ m, n ≤ m ∧ Sys2Proof.Machine.step (σ m) = .next (σ (m + 1))

/-- The transport is weakly fair: a WRITE does not run for ever without an answer (R605, R812). -/
def transportAnswers (σ : Nat → State) : Prop :=
  ∀ n, (σ n).wait = .bus → ∃ m, n ≤ m ∧ ((σ m).wait = .bus → (σ m).busAnswers ≠ [])

/-- The callback agent is weakly fair: a callback does not run for ever without its CB_ACK (R608, R812). -/
def callbackAnswers (σ : Nat → State) : Prop :=
  ∀ n, (σ n).wait = .cb → ∃ m, n ≤ m ∧ ((σ m).wait = .cb → (σ m).cbAcks ≠ 0)

/-- How many waiting points a busy block may still pass before BUSY = 0, at most. -/
def State.toGo (s : State) : Nat :=
  match s.phase with
  | .unconf => 0
  | .rstLo => 192
  | .rstHi => 191
  | .cbInit => 190
  | .init => 189 - s.initIdx.toNat
  | .cbShow => 131
  | .showCmd => 130
  | .showLines => 129 - s.line.toNat
  | .ready => 0

end Sys2Proof.Machine
end

