-- ==== Sys2Proof/Certificates/Slice0/Obligations.lean ====
section
/-! DEFINITION. The statements for the provers. Each docstring names the rule of spec/ it follows. -/

open Sys2Proof Sys2Proof.Machine

/-! ## Encodings -/

/-- Decoding an encoded well-formed instruction gives it back, for all 23 rows and every operand (R302 to
R308, R326, R669). -/
def Obligations.DecodeOfEncode : Prop :=
  ∀ (p : Params) (i : Instr), i.wellFormed = true → decode p (encode p i) = .ok i

/-- Every request word that decodes is the one word of its instruction: no bit of it is dropped (R309, D4). -/
def Obligations.RequestWordOfDecode : Prop :=
  ∀ (w : HostWord) (i : Instr), decodeRequest w = .ok i → i.isRequest = true ∧ requestWord i = w

/-- The words that decode are exactly those that are not reserved (R309, R328). -/
def Obligations.RequestDecodesUnlessReserved : Prop :=
  ∀ w : HostWord, (∃ i, decodeRequest w = .ok i) ↔ ¬ reservedWord w

/-- The opcode byte alone says how many argument bytes follow: what stands after a command does not change
what it decodes to (R326). -/
def Obligations.InitCommandLengthFromOpcode : Prop :=
  ∀ (p : Params) (i : Instr) (rest : List Byte), i.wellFormed = true → i.isRequest = false → i ≠ .enableDataWrite →
    decodeCommand (commandBytes p i ++ rest) = .ok i

/-- The ROM's 57 bytes as the table of R650 lists them, and the LUT's bytes as R671 gives them. -/
def Obligations.InitRomIsTheFixedStream : Prop :=
  initRom = [0xAE, 0xA0, 0xB4, 0xA1, 0x00, 0xA2, 0x00, 0xA6, 0xAD, 0x8E, 0xB0, 0x05, 0xB1, 0x11, 0xB3, 0xF0, 0xB8,
      0x01, 0x06, 0x0B, 0x10, 0x15, 0x1A, 0x1F, 0x24, 0x29, 0x2E, 0x33, 0x38, 0x3D, 0x42, 0x47, 0x4C, 0x51, 0x56, 0x5B,
      0x60, 0x65, 0x6A, 0x6F, 0x74, 0x79, 0xBB, 0x1C, 0x1C, 0x1C, 0xBE, 0x3F, 0xC1, 0xDC, 0xD2, 0xFF, 0xC7, 0x0A, 0xCA,
      0x7F, 0xAF]
    ∧ initRom.length = 57
    ∧ ∀ i, i < 25 → initRom[17 + i]? = some (BitVec.ofNat 8 (1 + 5 * i))

/-- At the ROM positions of R652 the streamer reads the sixteen commands of R653 to R668, each exactly its
range, and the ranges together are the whole ROM (R670). -/
def Obligations.RomSplitsIntoSixteenCommands : Prop :=
  ∃ cmds : List Instr,
    cmds = [.sleep, .remapDepth 0xB4, .startLine 0x00, .offset 0x00, .displayMode, .masterConfig 0x8E, .powerSave 0x05,
      .precharge 0x11, .clockOsc 0xF0, .grayscaleLut ((List.range 25).map fun i => BitVec.ofNat 8 (1 + 5 * i)),
      .prechargeVoltage 0x1C 0x1C 0x1C, .vcomh 0x3F, .contrast 0xDC 0xD2 0xFF, .masterCurrent 0x0A, .muxRatio 0x7F,
      .displayOn]
    ∧ initRanges.map (fun r => (decodeCommand (initRom.drop r.1)).toOption) = cmds.map some
    ∧ initRanges.map (romSlice initRom) = cmds.map (commandBytes Params.default)
    ∧ (initRanges.map (romSlice initRom)).flatten = initRom

/-- Words of the spec's worked examples (95_test_vectors.md) decode to the requests they are written for. -/
def Obligations.SpecWordsDecode : Prop :=
  decodeRequest 0x00808001 = .ok (.construct 128 128 false) ∧ decodeRequest 0x00606011 = .ok (.construct 96 96 true)
    ∧ decodeRequest 0x00000002 = .ok .showFrame ∧ decodeRequest 0xAB7FFF03 = .ok (.bwr 0x7FFF 0xAB)
    ∧ decodeRequest 0x007FFF04 = .ok (.brd 0x7FFF) ∧ decodeRequest 0x56341205 = .ok (.enc 0x12 0x34 0x56)
    ∧ decodeRequest 0x00007906 = .ok (.remap 121) ∧ decodeRequest 0x00806481 = .error .reservedBits
    ∧ decodeRequest 0x00000007 = .error .reservedOp

/-- The words of the assembler's syntax table are the encodings of the six formats, for every operand that
fits its field (R330). -/
def Obligations.AssemblerWritesTheEncodings : Prop :=
  ∀ (width : Nat) (h w d r g b : Byte) (cb : Bool) (a : BufAddr) (l : BitVec 7),
    assemble width (.construct h.toNat w.toNat cb) = some [requestWord (.construct h w cb)]
    ∧ assemble width .showFrame = some [requestWord .showFrame]
    ∧ assemble width (.bwr a.toNat d.toNat) = some [requestWord (.bwr a d)]
    ∧ assemble width (.brd a.toNat) = some [requestWord (.brd a)]
    ∧ assemble width (.enc r.toNat g.toNat b.toNat) = some [requestWord (.enc r g b)]
    ∧ assemble width (.remap l.toNat) = some [requestWord (.remap l)]

/-! ## Reset and the status port -/

/-- The status port reads zero in all four registers after power-on, for any parameters (R131). -/
def Obligations.PowerOnStatusPortReadsZero : Prop :=
  ∀ (p : Params) (n : BitVec 2), (State.powerOn p).statusPort n = 0

/-- A power-on reset takes effect in any state, abandons the request without a response or an event, and puts
every register and line at the level or value R800 gives (R802). -/
def Obligations.PowerOnResetAbandonsTheRequest : Prop :=
  ∀ (s : State) (k : Nat), s.porIn = some k → ∃ t, step s = .next t
    ∧ t.trace = s.trace ∧ t.responses = s.responses ∧ t.params = s.params ∧ t.rom = s.rom
    ∧ (t.cfgHeight = 0 ∧ t.cfgWidth = 0 ∧ t.cfgCbEn = false)
    ∧ (t.phase = .unconf ∧ t.wait = .host ∧ t.opKind = .construct ∧ t.initIdx = 0 ∧ t.line = 0)
    ∧ (t.lastRc = .ok ∧ t.errSticky = false ∧ t.failPhase = 0)
    ∧ (t.res = true ∧ t.cs = (!s.params.csSelectLevel) ∧ t.dc = s.params.dcCmdLevel)

/-- The fields of the four status registers (R130), with BUSY as R107 defines it; a read changes nothing. -/
def Obligations.StatusPortRegisters : Prop :=
  ∀ s : State,
    ((s.statusPort 0).extractLsb' 0 4 = s.phase.bits ∧ (s.statusPort 0).getLsbD 4 = s.busy
      ∧ (s.statusPort 0).getLsbD 5 = decide (s.cfgHeight = 128) ∧ (s.statusPort 0).getLsbD 6 = s.cfgCbEn
      ∧ (s.statusPort 0).getLsbD 7 = s.errSticky ∧ (s.statusPort 0).extractLsb' 8 4 = s.lastRc.bits
      ∧ (s.statusPort 0).extractLsb' 12 4 = s.failPhase)
    ∧ ((s.statusPort 1).extractLsb' 0 8 = s.cfgWidth ∧ (s.statusPort 1).extractLsb' 8 8 = s.cfgHeight)
    ∧ ((s.statusPort 2).extractLsb' 0 8 = s.line ∧ (s.statusPort 2).extractLsb' 8 6 = s.initIdx
      ∧ (s.statusPort 2).extractLsb' 14 1 = s.opKind.bit ∧ (s.statusPort 2).getLsbD 15 = false)
    ∧ s.statusPort 3 = 0
    ∧ (s.busy = true ↔ 1 ≤ s.phase.bits.toNat ∧ s.phase.bits.toNat ≤ 7)
    ∧ ∀ n, s.agent (.readStatus n) = s

/-! ## A step runs the decoded instruction -/

/-- An idle block accepts the oldest request presented and runs the instruction it decodes to (R301, R302), and
the step then goes on to the next waiting point (R16, log 6): exec itself gets there, unless it is a SHOW in READY
without a callback, whose enable-data-write command the same step sends. -/
def Obligations.StepRunsAcceptedRequest : Prop :=
  ∀ (s : State) (w : HostWord) (rest : List HostWord) (i : Instr), s.idle → s.hostReqs = w :: rest →
    decodeRequest w = .ok i →
    step s = settled (exec i { s with hostReqs := rest })
    ∧ (i ≠ .showFrame ∨ s.phase ≠ .ready ∨ s.cfgCbEn = true → step s = exec i { s with hostReqs := rest })

/-- A step that gets to INIT runs the command at the streamer's ROM position and goes on; one that gets to
SHOW_CMD runs the enable-data-write command, which ends it (R16, R457, R552). States in which a command is about to
be taken stand within a step (log 6); withFetchWord makes one, and there step is this too (log 2, 8). -/
def Obligations.StepRunsFetchedCommand : Prop :=
  (∀ (s : State) (i : Instr), s.inInit →
    decodeCommand (s.rom.drop (s.initIdx.toNat + s.txBytes.length)) = .ok i →
    settled (.next s) = settled (exec i s) ∧ (s.porIn = none → step s = settled (exec i s)))
  ∧ ∀ s : State, s.inShowCmd →
    settled (.next s) = exec .enableDataWrite s ∧ (s.porIn = none → step s = exec .enableDataWrite s)

/-- A reserved word is answered with IllegalRequest and changes nothing but LAST_RC (R309). The mailbox the
word leaves and the list of responses are the model's own record of the host port (log 2, 13). -/
def Obligations.ReservedWordsAnswerIllegalRequest : Prop :=
  ∀ (s : State) (w : HostWord) (rest : List HostWord), s.idle → s.hostReqs = w :: rest → reservedWord w →
    step s = .next ({ s with hostReqs := rest }.errored .illegalRequest 3)

/-! ## ENC, BWR and BRD -/

/-- ENC answers the value of the source's formula in UNCONF and READY, and writes only LAST_RC (R400). -/
def Obligations.EncAnswersRgb565 : Prop :=
  ∀ (r g b : Byte) (s : State), s.busy = false → exec (.enc r g b) s = .next { s with
    lastRc := .ok
    responses := s.responses ++ [(((r.zeroExtend 16 &&& 0xF8) <<< 8) ||| ((g.zeroExtend 16 &&& 0xFC) <<< 3)
      ||| (b.zeroExtend 16 >>> 3)) ++ (0 : BitVec 16)] }

/-- The bit layout of the RGB565 value: the high bits of each channel, truncated (R401). -/
def Obligations.EncBitLayout : Prop :=
  ∀ r g b : Byte, (encodeRgb565 r g b).extractLsb' 11 5 = r.extractLsb' 3 5
    ∧ (encodeRgb565 r g b).extractLsb' 5 6 = g.extractLsb' 2 6
    ∧ (encodeRgb565 r g b).extractLsb' 0 5 = b.extractLsb' 3 5

/-- The value depends exactly on the top 5, 6 and 5 bits, and every value is some channels' value (R402). -/
def Obligations.EncDependsOnTopBitsOnly : Prop :=
  (∀ r g b r' g' b' : Byte, encodeRgb565 r g b = encodeRgb565 r' g' b' ↔
    r.extractLsb' 3 5 = r'.extractLsb' 3 5 ∧ g.extractLsb' 2 6 = g'.extractLsb' 2 6
      ∧ b.extractLsb' 3 5 = b'.extractLsb' 3 5)
  ∧ ∀ v : BitVec 16, ∃ r g b : Byte, encodeRgb565 r g b = v

/-- BWR in READY, inside the buffer: the byte is stored, every other byte reads as before, and nothing but
BUF and LAST_RC changes (R410). -/
def Obligations.BwrStoresOneByte : Prop :=
  ∀ (a : BufAddr) (d : Byte) (s : State), s.phase = .ready → a.toNat < 2 * s.cfgWidth.toNat * s.cfgHeight.toNat →
    Memory.wf s.buf →
    ∃ t, exec (.bwr a d) s = .next t ∧ t = { s with buf := t.buf, lastRc := .ok, responses := s.responses ++ [0] }
      ∧ t.readBuf a.toNat = d ∧ (∀ x, x ≠ a.toNat → t.readBuf x = s.readBuf x) ∧ Memory.wf t.buf

/-- BRD in READY, inside the buffer: the byte comes back zero-extended in RESULT, and only LAST_RC is written
(R420). -/
def Obligations.BrdAnswersTheByte : Prop :=
  ∀ (a : BufAddr) (s : State), s.phase = .ready → a.toNat < 2 * s.cfgWidth.toNat * s.cfgHeight.toNat →
    exec (.brd a) s = .next { s with
      lastRc := .ok, responses := s.responses ++ [(0 : BitVec 8) ++ s.readBuf a.toNat ++ (0 : BitVec 16)] }

/-- BWR and BRD at or above BUF_BYTES end with AddressRange and access nothing (R212, R704). -/
def Obligations.BufferAccessBeyondEndIsAddressRange : Prop :=
  ∀ (a : BufAddr) (d : Byte) (s : State), s.phase = .ready → 2 * s.cfgWidth.toNat * s.cfgHeight.toNat ≤ a.toNat →
    exec (.bwr a d) s = .next (s.errored .addressRange 5) ∧ exec (.brd a) s = .next (s.errored .addressRange 5)

/-- A byte that BWR stores is the byte that a BRD of the same address, presented next, answers (R214, R410, R420). -/
def Obligations.BwrThenBrdReadsBack : Prop :=
  ∀ (a : BufAddr) (d : Byte) (s : State) (rest : List HostWord), s.idle → s.phase = .ready → Memory.wf s.buf →
    a.toNat < 2 * s.cfgWidth.toNat * s.cfgHeight.toNat →
    s.hostReqs = requestWord (.bwr a d) :: requestWord (.brd a) :: rest →
    ∃ t, runs 2 s t ∧ t.hostReqs = rest ∧ t.responses = s.responses ++ [0, (0 : BitVec 8) ++ d ++ (0 : BitVec 16)]

/-- PIXW and then PIXR of a pixel of the panel give the 16-bit value back, by the big-endian host convention
(R207, R331). -/
def Obligations.PixwThenPixrReadsBack : Prop :=
  ∀ (x y : Nat) (v : BitVec 16) (s : State) (rest : List HostWord), s.idle → s.phase = .ready → Memory.wf s.buf →
    legalConfig s.cfgHeight s.cfgWidth = true → x < s.cfgWidth.toNat → y < s.cfgHeight.toNat →
    ∃ put get, pixw s.cfgWidth.toNat x y v.toNat = some put ∧ pixr s.cfgWidth.toNat x y = some get
      ∧ (s.hostReqs = put ++ get ++ rest → ∃ t first second, runs 4 s t ∧ t.hostReqs = rest
          ∧ t.responses = s.responses ++ [0, 0, first, second] ∧ pixrValue first second = v)

/-! ## The RowRemapper and REMAP -/

/-- REMAP in READY answers the buffer row, its byte offset and the dead-band flag of the scan line, and writes
only LAST_RC (R510, R320). -/
def Obligations.RemapAnswersRowOffsetAndDead : Prop :=
  ∀ (l : BitVec 7) (s : State), s.phase = .ready → legalConfig s.cfgHeight s.cfgWidth = true →
    ∃ w : HostWord, exec (.remap l) s = .next { s with lastRc := .ok, responses := s.responses ++ [w] }
      ∧ w.extractLsb' 0 8 = 0
      ∧ (w.extractLsb' 8 7).toNat = remapRow (if s.cfgHeight = 128 then .h128 else .h96) l.toNat
      ∧ w.getLsbD 15 = decide (s.cfgHeight = 96 ∧ 64 ≤ l.toNat ∧ l.toNat < 96)
      ∧ (w.extractLsb' 16 16).toNat
        = remapRow (if s.cfgHeight = 128 then .h128 else .h96) l.toNat * 2 * s.cfgWidth.toNat

/-- RemapRow by the two formulas, RowOffset and RowRange (R500). -/
def Obligations.RemapRowFormulas : Prop :=
  ∀ l, l < 128 →
    ((remapRow .h128 l : Int) = (95 - (l : Int)) % 128)
    ∧ (l < 64 → remapRow .h96 l = 63 - l) ∧ (64 ≤ l ∧ l < 96 → remapRow .h96 l = 0)
    ∧ (96 ≤ l → remapRow .h96 l = 191 - l)
    ∧ (∀ (g : Geometry) (w : Nat), rowOffset g w l = remapRow g l * 2 * w)
    ∧ ∀ s : State, s.rowBytes l = (List.range (2 * s.cfgWidth.toNat)).map
        fun i => s.readBuf (rowOffset s.geometry s.cfgWidth.toNat l + i)

/-- The gate-level form agrees with the formulas on all 256 pairs, and the largest offset is 64770 (R507): no
offset exceeds it, and scan line 96 has it at H = 128, W = 255. -/
def Obligations.RemapGatesAgree : Prop :=
  (∀ (g : Geometry) (l : BitVec 7), (remapRowGates g l).toNat = remapRow g l.toNat
    ∧ ∀ w : BitVec 8, rowOffset g w.toNat l.toNat ≤ 64770)
  ∧ rowOffset .h128 255 96 = 64770

/-- The H128 mapping is 95 down to 0, then 127 down to 96: a bijection on [0, 128), the reversal followed by a
rotation by 96 (R502). -/
def Obligations.H128MappingIsBijection : Prop :=
  rowMapping .h128 = (List.range 96).map (95 - ·) ++ (List.range 32).map (127 - ·)
    ∧ (∀ row, row < 128 → (rowMapping .h128).count row = 1)
    ∧ ∀ l, l < 128 → remapRow .h128 l = ((127 - l) + 96) % 128

/-- The H96 mapping has three segments; row 0 is sent 33 times and every other row once (R503). -/
def Obligations.H96MappingSegments : Prop :=
  rowMapping .h96 = (List.range 64).map (63 - ·) ++ List.replicate 32 0 ++ (List.range 32).map (95 - ·)
    ∧ (rowMapping .h96).count 0 = 33 ∧ ∀ row, 1 ≤ row → row < 96 → (rowMapping .h96).count row = 1

/-- For every legal configuration each row range lies inside the buffer, and every buffer row is sent (R504). -/
def Obligations.RowsStayInsideTheBuffer : Prop :=
  ∀ h w : BitVec 8, legalConfig h w = true →
    (∀ l, l < 128 → remapRow (geometryOf h) l < h.toNat
      ∧ rowOffset (geometryOf h) w.toNat l + 2 * w.toNat ≤ 2 * w.toNat * h.toNat)
    ∧ ∀ row, row < h.toNat → ∃ l, l < 128 ∧ remapRow (geometryOf h) l = row

/-! ## CONSTRUCT and SHOW -/

/-- An illegal height, or width 0, ends with ConfigurationError and changes only LAST_RC (R451). -/
def Obligations.ConstructRefusesIllegalGeometry : Prop :=
  ∀ (h w : Byte) (cb : Bool) (s : State), s.busy = false → (h ≠ 96 ∧ h ≠ 128) ∨ w = 0 →
    exec (.construct h w cb) s = .next (s.errored .configurationError 1)

/-- A legal CONSTRUCT commits the configuration and a zeroed buffer, and goes to RST_LO with the reset line
low and a hold running (R452, R454). CUR_REQ takes the request word (R120). -/
def Obligations.ConstructCommitsAndPullsResetLow : Prop :=
  ∀ (h w : Byte) (cb : Bool) (s : State), s.busy = false → h = 96 ∨ h = 128 → w ≠ 0 →
    ∃ t, exec (.construct h w cb) s = .next t
      ∧ t = { s with
          cfgHeight := h, cfgWidth := w, cfgCbEn := cb, buf := t.buf, opKind := .construct, initIdx := 0, line := 0
          curReq := requestWord (.construct h w cb), phase := .rstLo, wait := .delay, res := false
          trace := s.trace ++ [.pin .res false, .delay] }
      ∧ (∀ a, t.readBuf a = 0x00) ∧ t.bufBytes = 2 * w.toNat * h.toNat

/-- SHOW in READY starts ShowBody: the callback where one is configured, else SHOW_CMD (R550, R551), where exec
leaves the block within a step (log 6) and the step sends the enable-data-write command (R552). CUR_REQ takes the
request word (R120, log 3). -/
def Obligations.ShowStartsShowBody : Prop :=
  ∀ s : State, s.phase = .ready →
    (s.cfgCbEn = true → exec .showFrame s = .next { s with
      opKind := .showFrame, curReq := 2, phase := .cbShow, wait := .cb, trace := s.trace ++ [.cbReq] })
    ∧ (s.cfgCbEn = false → exec .showFrame s = .next { s with
      opKind := .showFrame, curReq := 2, phase := .showCmd, fetching := true, txBytes := [] })
    ∧ ∀ rest, s.idle → s.cfgCbEn = false → s.hostReqs = requestWord .showFrame :: rest →
      step s = .next ({ s with hostReqs := rest, opKind := .showFrame, curReq := 2, phase := .showCmd }.issued .cmd
        [s.params.cmdWriteRam])

/-- Before a successful CONSTRUCT, SHOW, BWR, BRD and REMAP are StateErrors that change only LAST_RC (R702, R703). -/
def Obligations.RequestsBeforeConstructAreStateErrors : Prop :=
  ∀ (s : State) (a : BufAddr) (d : Byte) (l : BitVec 7), s.phase = .unconf →
    exec .showFrame s = .next (s.errored .stateError 4) ∧ exec (.bwr a d) s = .next (s.errored .stateError 4)
    ∧ exec (.brd a) s = .next (s.errored .stateError 4) ∧ exec (.remap l) s = .next (s.errored .stateError 4)

/-- While BUSY = 1 no host request has an effect: it is held unaccepted (R301, R702, log 9). -/
def Obligations.RequestsAreHeldWhileBusy : Prop :=
  ∀ (i : Instr) (s : State), i.isRequest = true → s.busy = true → exec i s = .next s

/-- The block accepts a request only when BUSY = 0, at most one in a step and in the order presented, and
answers each with exactly one response (R301): presented, running and answered requests keep their sum. -/
def Obligations.RequestsAreAcceptedOneAtATime : Prop :=
  ∀ s t : State, s.porIn = none → step s = .next t →
    (s.busy = true → t.hostReqs = s.hostReqs)
    ∧ (t.hostReqs = s.hostReqs ∨ ∃ w, s.hostReqs = w :: t.hostReqs)
    ∧ t.hostReqs.length + t.outstanding + t.responses.length = s.hostReqs.length + s.outstanding + s.responses.length

/-! ## The panel commands -/

/-- The three argumentless init commands send their opcode byte (R653, R657, R668). -/
def Obligations.ArgumentlessInitCommands : Prop :=
  ∀ s : State, s.inInit →
    exec .sleep s = .next (s.afterInitCommand [0xAE]) ∧ exec .displayMode s = .next (s.afterInitCommand [0xA6])
    ∧ exec .displayOn s = .next (s.afterInitCommand [0xAF])

/-- The ten init commands with one argument send the opcode and then the argument (R654 to R656, R658 to R661,
R664, R666, R667). -/
def Obligations.OneArgumentInitCommands : Prop :=
  ∀ (x : Byte) (s : State), s.inInit →
    exec (.remapDepth x) s = .next (s.afterInitCommand [0xA0, x])
    ∧ exec (.startLine x) s = .next (s.afterInitCommand [0xA1, x])
    ∧ exec (.offset x) s = .next (s.afterInitCommand [0xA2, x])
    ∧ exec (.masterConfig x) s = .next (s.afterInitCommand [0xAD, x])
    ∧ exec (.powerSave x) s = .next (s.afterInitCommand [0xB0, x])
    ∧ exec (.precharge x) s = .next (s.afterInitCommand [0xB1, x])
    ∧ exec (.clockOsc x) s = .next (s.afterInitCommand [0xB3, x])
    ∧ exec (.vcomh x) s = .next (s.afterInitCommand [0xBE, x])
    ∧ exec (.masterCurrent x) s = .next (s.afterInitCommand [0xC7, x])
    ∧ exec (.muxRatio x) s = .next (s.afterInitCommand [0xCA, x])

/-- The two init commands with three arguments send them in order after the opcode (R663, R665). -/
def Obligations.ThreeArgumentInitCommands : Prop :=
  ∀ (x y z : Byte) (s : State), s.inInit →
    exec (.prechargeVoltage x y z) s = .next (s.afterInitCommand [0xBB, x, y, z])
    ∧ exec (.contrast x y z) s = .next (s.afterInitCommand [0xC1, x, y, z])

/-- The grayscale LUT command sends 26 bytes: its opcode and its 25 arguments (R662). -/
def Obligations.GrayscaleLutCommand : Prop :=
  ∀ (lut : List Byte) (s : State), s.inInit → lut.length = 25 →
    (0xB8 :: lut : List Byte).length = 26 ∧ exec (.grayscaleLut lut) s = .next (s.afterInitCommand (0xB8 :: lut))

/-- The enable-data-write command is a command-mode transaction of the one byte CMD_WRITE_RAM (R552, R669). -/
def Obligations.EnableDataWriteIsSentAlone : Prop :=
  ∀ s : State, s.inShowCmd → exec .enableDataWrite s = .next (s.issued .cmd [s.params.cmdWriteRam])

/-- Outside INIT no init command has an effect, in SHOW_CMD neither, and outside SHOW_CMD the enable-data-write
command has none, in INIT neither: the model's reading of R600 and R672 (log 9). -/
def Obligations.PanelCommandsOutsideTheirPhase : Prop :=
  (∀ (i : Instr) (s : State), i.isRequest = false → i ≠ .enableDataWrite → s.phase ≠ .init → exec i s = .next s)
  ∧ ∀ s : State, s.phase ≠ .showCmd → exec .enableDataWrite s = .next s

/-! ## The sequencer -/

/-- InitStream under BLOB: one transaction of all 57 bytes, put together within one step (R16, log 6, 7); on OK
INIT_IDX is 57 and ShowBody starts (R651). -/
def Obligations.BlobInitStream : Prop :=
  ∀ s : State, s.porIn = none → s.inInit → s.initIdx = 0 → s.txBytes = [] → s.rom = initRom →
    s.params.initFraming = .blob →
    step s = .next (s.issued .cmd initRom)
    ∧ ∀ rest, s.busAnswers = .ok :: rest → ∃ t, runs 2 s t ∧ t.initIdx = 57
      ∧ t.trace = s.trace ++ framed s.params .cmd initRom ++ s.showStart
      ∧ t.phase = if s.cfgCbEn then .cbShow else .showCmd

/-- InitStream under DISCRETE: sixteen transactions, one for each range [a, b) of R652 in its order; INIT_IDX
is a while one runs and b once it has ended with OK (R652). Each step runs from one WRITE to the next (R16, log 6),
so the trace after the answer already shows the next one's start. -/
def Obligations.DiscreteInitStream : Prop :=
  ∀ (s : State) (rest : List BusAnswer), s.porIn = none → s.inInit → s.initIdx = 0 → s.txBytes = [] →
    s.rom = initRom → s.params.initFraming = .discrete → s.busAnswers = List.replicate 16 .ok ++ rest →
    ∀ n a b, initRanges[n]? = some (a, b) →
      (∃ t, runs (n + 1) s t ∧ t.phase = .init ∧ t.wait = .bus ∧ t.initIdx.toNat = a
        ∧ t.trace = s.trace ++ ((initRanges.take n).flatMap fun r => framed s.params .cmd (romSlice initRom r))
          ++ framedStart s.params .cmd (romSlice initRom (a, b)))
      ∧ ∃ t, runs (n + 2) s t ∧ t.initIdx.toNat = b
        ∧ t.trace = s.trace ++ ((initRanges.take (n + 1)).flatMap fun r => framed s.params .cmd (romSlice initRom r))
          ++ s.initStartAfter (n + 1)

/-- The reset FSM: a hold ends after at least 1 ms, be its length one the timer has fixed or a free one; then the
line goes high for the second hold, and after that the block goes on to CB_INIT, or to INIT and its first WRITE in
the same step (R16, R454, R455). The list of lengths, in microseconds, is the model's record of the timer (log 12);
where a step ends is log 6's. -/
def Obligations.ResetPulseHolds : Prop :=
  ∀ s : State, s.waitsFor .delay →
    ∃ d ≥ 1000, (∀ extra ∈ s.holds.head?, d = 1000 + extra)
    ∧ ∀ u : State, u = { s with
        holds := s.holds.tail, holdTimes := s.holdTimes ++ [d]
        draws := if s.holds = [] then s.draws + 1 else s.draws } →
      (s.phase = .rstLo → step s = .next { u with
        phase := .rstHi, res := true, trace := s.trace ++ [.pin .res true, .delay] })
      ∧ (s.phase = .rstHi → s.cfgCbEn = true → step s = .next { u with
        phase := .cbInit, wait := .cb, trace := s.trace ++ [.cbReq] })
      ∧ (s.phase = .rstHi → s.cfgCbEn = false → s.rom = initRom → s.initIdx = 0 →
        step s = .next ({ u with phase := .init }.issued .cmd (firstInitBytes s.params)))

/-- A callback lasts until the agent answers, and no line is written before that; then CB_INIT goes on to INIT and
CB_SHOW to SHOW_CMD, and the same step issues the first WRITE there (R16, R456, R551, R608; the agent's mailbox is
log 2, where a step ends log 6). -/
def Obligations.CallbackGoesOnAtAck : Prop :=
  ∀ s : State, s.waitsFor .cb →
    (s.cbAcks = 0 → step s = .next s)
    ∧ ∀ n, s.cbAcks = n + 1 →
      (s.phase = .cbInit → s.rom = initRom → s.initIdx = 0 →
        step s = .next ({ s with cbAcks := n, phase := .init }.issued .cmd (firstInitBytes s.params)))
      ∧ (s.phase = .cbShow →
        step s = .next ({ s with cbAcks := n, phase := .showCmd }.issued .cmd [s.params.cmdWriteRam]))

/-- While the transport gives no answer the sequencer takes no step of its own, for any number of steps, and
no host request makes it take one (R606). -/
def Obligations.SilentTransportHangs : Prop :=
  ∀ (s : State) (ws : List HostWord) (n : Nat), s.waitsFor .bus → s.busAnswers = [] →
    runs n (ws.foldl (fun t w => t.agent (.present w)) s) (ws.foldl (fun t w => t.agent (.present w)) s)

/-- The enable-data-write command answered OK: LINE is 0, the phase SHOW_LINES, and the transaction of scan
line 0 is issued (R552, R553). -/
def Obligations.EnableDataWriteCompletes : Prop :=
  ∀ (s : State) (rest : List BusAnswer), s.waitsFor .bus → s.phase = .showCmd →
    s.busAnswers = .ok :: rest →
    step s = .next ({ s.answeredOk rest with line := 0, phase := .showLines }.issued .data (s.lineData 0))

/-- A scan line answered OK: LINE grows by one and the next line's transaction is issued (R553); after scan
line 127 LINE is 128, the block is READY and responds OK (R554, R459, R550). CUR_REQ takes a free value (log 3). -/
def Obligations.ScanLineCompletes : Prop :=
  ∀ (s : State) (rest : List BusAnswer), s.waitsFor .bus → s.phase = .showLines →
    s.busAnswers = .ok :: rest →
    (s.line.toNat < 127 →
      step s = .next ({ s.answeredOk rest with line := s.line + 1 }.issued .data (s.lineData (s.line.toNat + 1))))
    ∧ (s.line.toNat = 127 → step s = .next { s.answeredOk rest with
        line := 128, phase := .ready, wait := .host, lastRc := .ok, responses := s.responses ++ [0]
        curReq := freeCurReq s.draws, draws := s.draws + 1 })

/-- The BusError exit: one step with the effects of R705 and no event; CS, DC, RES, BUF, the configuration
registers, INIT_IDX, LINE and OPKIND stay. The mailbox, the wire, the transfer and CUR_REQ's free value are the model's own
(log 2, 3, 7, 14). -/
def Obligations.BusErrorExitEffects : Prop :=
  ∀ (s : State) (k : Nat) (rest : List BusAnswer), s.waitsFor .bus →
    s.phase = .init ∨ s.phase = .showCmd ∨ s.phase = .showLines → s.busAnswers = .err k :: rest →
    step s = .next { s with
      failPhase := (if s.phase = .init then 4 else if s.phase = .showCmd then 6 else 7), errSticky := true
      phase := (if s.opKind = .construct then .unconf else .ready)
      lastRc := .busError, responses := s.responses ++ [0x00000002]
      wait := .host, txBytes := [], busAnswers := rest, wire := s.wire ++ s.txBytes.take k
      curReq := freeCurReq s.draws, draws := s.draws + 1 }

/-! ## Invariants and whole-machine rules -/

/-- The invariant holds after power-on, for any parameters (R800). -/
def Obligations.ConsistentAtPowerOn : Prop := ∀ p : Params, (State.powerOn p).Consistent

/-- Every step keeps the invariant. -/
def Obligations.ConsistentKeptByStep : Prop := ∀ s t : State, s.Consistent → step s = .next t → t.Consistent

/-- No act of an environment agent breaks the invariant. -/
def Obligations.ConsistentKeptByAgents : Prop :=
  ∀ (s : State) (a : AgentAction), s.Consistent → (s.agent a).Consistent

/-- In a consistent state the step never stops: it answers a next state, whatever the mailboxes hold. -/
def Obligations.ConsistentBlockNeverStops : Prop := ∀ s : State, s.Consistent → ∃ t, step s = .next t

/-- Every state of every run, with any parameters and any environment, is consistent and has a next state. -/
def Obligations.ReachableStatesAreConsistent : Prop := ∀ s : State, Reachable s → s.Consistent ∧ ∃ t, step s = .next t

/-- ERR_STICKY is set by every BusError and cleared by the power-on reset alone (R112); FAIL_PHASE is written
by the BusError exit and, to 0, by the power-on reset, and by nothing else (R122). The host reads both in
status register 0. -/
def Obligations.ErrStickyAndFailPhase : Prop :=
  ∀ s t : State, step s = .next t →
    (∀ k, s.porIn = some k → t.errSticky = false ∧ t.failPhase = 0)
    ∧ (s.porIn = none →
      (t.errSticky = true ↔ s.errSticky = true ∨ (s.waitsFor .bus ∧ ∃ k rest, s.busAnswers = .err k :: rest))
      ∧ (t.failPhase = if s.waitsFor .bus ∧ s.busAnswers.head?.any (· != .ok) then s.phase.bits else s.failPhase))
    ∧ (t.statusPort 0).getLsbD 7 = t.errSticky ∧ (t.statusPort 0).extractLsb' 12 4 = t.failPhase

/-- The configuration registers are written by a legal CONSTRUCT and by nothing else but the power-on reset
(R10, R102, R104, R105); the ROM (R203, R650) and the parameters (R9) by nothing at all. -/
def Obligations.ConfigurationWrittenOnlyByConstruct : Prop :=
  ∀ s t : State, step s = .next t → t.rom = s.rom ∧ t.params = s.params
    ∧ (s.porIn = none →
      (t.cfgHeight = s.cfgHeight ∧ t.cfgWidth = s.cfgWidth ∧ t.cfgCbEn = s.cfgCbEn)
      ∨ ∃ h w cb rest, s.idle ∧ s.hostReqs = requestWord (.construct h w cb) :: rest ∧ legalConfig h w = true
        ∧ t.cfgHeight = h ∧ t.cfgWidth = w ∧ t.cfgCbEn = cb)

/-- BUF is written by BWR and by the zero fill of CONSTRUCT, and by nothing else but the power-on reset (R411). -/
def Obligations.BufferWrittenOnlyByBwrAndConstruct : Prop :=
  ∀ s t : State, s.porIn = none → step s = .next t →
    t.buf = s.buf
    ∨ (∃ h w cb rest, s.idle ∧ s.hostReqs = requestWord (.construct h w cb) :: rest ∧ legalConfig h w = true
      ∧ ∀ a, t.readBuf a = 0x00)
    ∨ ∃ a d rest, s.idle ∧ s.phase = .ready ∧ s.hostReqs = requestWord (.bwr a d) :: rest
      ∧ a.toNat < 2 * s.cfgWidth.toNat * s.cfgHeight.toNat ∧ ∀ x, x ≠ a.toNat → t.readBuf x = s.readBuf x

/-- The trace only grows, and each line has the level of the last PIN event of it, or keeps its level (R15,
R8); RES is written in the reset FSM alone and CS and DC in transactions alone (R114, R115, R116, R464): a step that
writes CS or DC leaves or reaches a phase that performs transactions. -/
def Obligations.LinesFollowTheirEvents : Prop :=
  ∀ s t : State, s.porIn = none → step s = .next t → ∃ events, t.trace = s.trace ++ events
    ∧ t.res = levelAfter .res s.res events ∧ t.cs = levelAfter .cs s.cs events ∧ t.dc = levelAfter .dc s.dc events
    ∧ (∀ v, .pin .res v ∈ events → t.phase = .rstLo ∨ t.phase = .rstHi)
    ∧ ∀ v, .pin .cs v ∈ events ∨ .pin .dc v ∈ events →
      ∃ p ∈ [s.phase, t.phase], p = .init ∨ p = .showCmd ∨ p = .showLines

/-! ## Whole requests -/

/-- A SHOW accepted in READY, with every WRITE answered OK and the callback answered, runs to READY with the
response 0, the trace of R557 and 645 + CB_EN events, and leaves BUF and the configuration as they were.
It takes one step for each waiting point passed (R16, log 6): 130 + CB_EN. CUR_REQ is a free value after it (log 3). -/
def Obligations.ShowRunTrace : Prop :=
  ∀ (s : State) (rest : List HostWord) (answers : List BusAnswer) (acks : Nat), s.idle → s.phase = .ready →
    s.hostReqs = requestWord .showFrame :: rest → s.busAnswers = List.replicate 129 .ok ++ answers →
    s.cbAcks = acks + cbCount s.cfgCbEn →
    runs (130 + cbCount s.cfgCbEn) s { s with
      opKind := .showFrame, line := 128, lastRc := .ok, responses := s.responses ++ [0]
      curReq := freeCurReq s.draws, draws := s.draws + 1
      cs := !s.params.csSelectLevel, dc := !s.params.dcCmdLevel, txBytes := []
      trace := s.trace ++ s.showTrace, wire := s.wire ++ s.showBytes
      hostReqs := rest, busAnswers := answers, cbAcks := acks }
    ∧ s.showTrace.length = 645 + cbCount s.cfgCbEn

/-- A legal CONSTRUCT accepted by an idle block, with every agent answering, runs to READY with the response 0,
the trace and the event counts of R462, both holds of at least 1 ms, INIT_IDX 57 and LINE 128 (R459). It takes one
step for each waiting point passed (R16, log 6), the init transactions being put together within a step (log 7); the
holds' lengths in microseconds are the model's record (log 12). -/
def Obligations.ConstructRunTrace : Prop :=
  ∀ (s : State) (h w : Byte) (cb : Bool) (rest : List HostWord) (answers : List BusAnswer) (acks : Nat),
    s.idle → s.rom = initRom → legalConfig h w = true →
    s.hostReqs = requestWord (.construct h w cb) :: rest →
    s.busAnswers = List.replicate (initWrites s.params.initFraming + 129) .ok ++ answers →
    s.cbAcks = acks + 2 * cbCount cb →
    ∀ c : State, c = { s with cfgHeight := h, cfgWidth := w, cfgCbEn := cb, buf := [] } →
    c.constructTrace.length = (if s.params.initFraming = .blob then 654 else 729) + 2 * cbCount cb
    ∧ ∃ t, runs (132 + initWrites s.params.initFraming + 2 * cbCount cb) s t
      ∧ t.trace = s.trace ++ c.constructTrace
      ∧ (t.phase = .ready ∧ t.lastRc = .ok ∧ t.responses = s.responses ++ [0] ∧ t.initIdx = 57 ∧ t.line = 128)
      ∧ (t.cfgHeight = h ∧ t.cfgWidth = w ∧ t.cfgCbEn = cb ∧ t.opKind = .construct ∧ ∀ a, t.readBuf a = 0x00)
      ∧ (t.res = true ∧ t.cs = (!s.params.csSelectLevel) ∧ t.dc = (!s.params.dcCmdLevel))
      ∧ (t.errSticky = s.errSticky ∧ t.failPhase = s.failPhase)
      ∧ (t.hostReqs = rest ∧ t.busAnswers = answers ∧ t.cbAcks = acks)
      ∧ ∃ d₁ ≥ 1000, ∃ d₂ ≥ 1000, t.holdTimes = s.holdTimes ++ [d₁, d₂]

/-- A SHOW whose transaction n (counted from 0) is answered ERR ends in READY with BusError: the trace is that
of the n transactions before it and the failing one up to its WRITE, and CS stays selected (R603, R705, R556). It
takes one step for each waiting point passed (R16, log 6): 2 + n + CB_EN. -/
def Obligations.FailedShowRunTrace : Prop :=
  ∀ (s : State) (rest : List HostWord) (answers : List BusAnswer) (acks n k : Nat), s.idle → s.phase = .ready →
    s.hostReqs = requestWord .showFrame :: rest → n < 129 →
    s.busAnswers = List.replicate n .ok ++ .err k :: answers → s.cbAcks = acks + cbCount s.cfgCbEn →
    ∃ t, runs (2 + n + cbCount s.cfgCbEn) s t
      ∧ t.trace = s.trace ++ callbackEvents s.cfgCbEn
        ++ (if n = 0 then framedStart s.params .cmd [s.params.cmdWriteRam]
          else framed s.params .cmd [s.params.cmdWriteRam] ++ s.linesTrace (n - 1)
            ++ framedStart s.params .data (s.lineData (n - 1)))
      ∧ (t.phase = .ready ∧ t.lastRc = .busError ∧ t.responses = s.responses ++ [2] ∧ t.errSticky = true)
      ∧ (t.failPhase = if n = 0 then 6 else 7) ∧ (t.line = if n = 0 then s.line else BitVec.ofNat 8 (n - 1))
      ∧ (t.cs = s.params.csSelectLevel ∧ t.buf = s.buf ∧ t.opKind = .showFrame ∧ t.initIdx = s.initIdx)
end

