-- ==== Sys2Proof/Laws/State.lean ====
section
/-! SUPPORT. One lemma for each field of State and each shared update: what the update leaves in the field. They are tagged simp, so that no proof unfolds a record update. -/

namespace Sys2Proof.Machine

@[simp] theorem State.respond_cfgHeight (s : State) (rc : ResultCode) (w : HostWord) :
    (s.respond rc w).cfgHeight = s.cfgHeight := rfl
@[simp] theorem State.respond_cfgWidth (s : State) (rc : ResultCode) (w : HostWord) :
    (s.respond rc w).cfgWidth = s.cfgWidth := rfl
@[simp] theorem State.respond_cfgCbEn (s : State) (rc : ResultCode) (w : HostWord) :
    (s.respond rc w).cfgCbEn = s.cfgCbEn := rfl
@[simp] theorem State.respond_phase (s : State) (rc : ResultCode) (w : HostWord) :
    (s.respond rc w).phase = s.phase := rfl
@[simp] theorem State.respond_opKind (s : State) (rc : ResultCode) (w : HostWord) :
    (s.respond rc w).opKind = s.opKind := rfl
@[simp] theorem State.respond_initIdx (s : State) (rc : ResultCode) (w : HostWord) :
    (s.respond rc w).initIdx = s.initIdx := rfl
@[simp] theorem State.respond_line (s : State) (rc : ResultCode) (w : HostWord) :
    (s.respond rc w).line = s.line := rfl
@[simp] theorem State.respond_lastRc (s : State) (rc : ResultCode) (w : HostWord) :
    (s.respond rc w).lastRc = rc := rfl
@[simp] theorem State.respond_errSticky (s : State) (rc : ResultCode) (w : HostWord) :
    (s.respond rc w).errSticky = s.errSticky := rfl
@[simp] theorem State.respond_failPhase (s : State) (rc : ResultCode) (w : HostWord) :
    (s.respond rc w).failPhase = s.failPhase := rfl
@[simp] theorem State.respond_res (s : State) (rc : ResultCode) (w : HostWord) :
    (s.respond rc w).res = s.res := rfl
@[simp] theorem State.respond_cs (s : State) (rc : ResultCode) (w : HostWord) :
    (s.respond rc w).cs = s.cs := rfl
@[simp] theorem State.respond_dc (s : State) (rc : ResultCode) (w : HostWord) :
    (s.respond rc w).dc = s.dc := rfl
@[simp] theorem State.respond_buf (s : State) (rc : ResultCode) (w : HostWord) :
    (s.respond rc w).buf = s.buf := rfl
@[simp] theorem State.respond_rom (s : State) (rc : ResultCode) (w : HostWord) :
    (s.respond rc w).rom = s.rom := rfl
@[simp] theorem State.respond_wait (s : State) (rc : ResultCode) (w : HostWord) :
    (s.respond rc w).wait = s.wait := rfl
@[simp] theorem State.respond_curReq (s : State) (rc : ResultCode) (w : HostWord) :
    (s.respond rc w).curReq = s.curReq := rfl
@[simp] theorem State.respond_params (s : State) (rc : ResultCode) (w : HostWord) :
    (s.respond rc w).params = s.params := rfl
@[simp] theorem State.respond_fetching (s : State) (rc : ResultCode) (w : HostWord) :
    (s.respond rc w).fetching = s.fetching := rfl
@[simp] theorem State.respond_txBytes (s : State) (rc : ResultCode) (w : HostWord) :
    (s.respond rc w).txBytes = s.txBytes := rfl
@[simp] theorem State.respond_trace (s : State) (rc : ResultCode) (w : HostWord) :
    (s.respond rc w).trace = s.trace := rfl
@[simp] theorem State.respond_responses (s : State) (rc : ResultCode) (w : HostWord) :
    (s.respond rc w).responses = s.responses ++ [w] := rfl
@[simp] theorem State.respond_hostReqs (s : State) (rc : ResultCode) (w : HostWord) :
    (s.respond rc w).hostReqs = s.hostReqs := rfl
@[simp] theorem State.respond_busAnswers (s : State) (rc : ResultCode) (w : HostWord) :
    (s.respond rc w).busAnswers = s.busAnswers := rfl
@[simp] theorem State.respond_cbAcks (s : State) (rc : ResultCode) (w : HostWord) :
    (s.respond rc w).cbAcks = s.cbAcks := rfl
@[simp] theorem State.respond_holds (s : State) (rc : ResultCode) (w : HostWord) :
    (s.respond rc w).holds = s.holds := rfl
@[simp] theorem State.respond_holdTimes (s : State) (rc : ResultCode) (w : HostWord) :
    (s.respond rc w).holdTimes = s.holdTimes := rfl
@[simp] theorem State.respond_wire (s : State) (rc : ResultCode) (w : HostWord) :
    (s.respond rc w).wire = s.wire := rfl
@[simp] theorem State.respond_porIn (s : State) (rc : ResultCode) (w : HostWord) :
    (s.respond rc w).porIn = s.porIn := rfl
@[simp] theorem State.respond_draws (s : State) (rc : ResultCode) (w : HostWord) :
    (s.respond rc w).draws = s.draws := rfl

@[simp] theorem State.respondOk_cfgHeight (s : State) (row : BitVec 7) (dead : Bool) (v : BitVec 16) :
    (s.respondOk row dead v).cfgHeight = s.cfgHeight := rfl
@[simp] theorem State.respondOk_cfgWidth (s : State) (row : BitVec 7) (dead : Bool) (v : BitVec 16) :
    (s.respondOk row dead v).cfgWidth = s.cfgWidth := rfl
@[simp] theorem State.respondOk_cfgCbEn (s : State) (row : BitVec 7) (dead : Bool) (v : BitVec 16) :
    (s.respondOk row dead v).cfgCbEn = s.cfgCbEn := rfl
@[simp] theorem State.respondOk_phase (s : State) (row : BitVec 7) (dead : Bool) (v : BitVec 16) :
    (s.respondOk row dead v).phase = s.phase := rfl
@[simp] theorem State.respondOk_opKind (s : State) (row : BitVec 7) (dead : Bool) (v : BitVec 16) :
    (s.respondOk row dead v).opKind = s.opKind := rfl
@[simp] theorem State.respondOk_initIdx (s : State) (row : BitVec 7) (dead : Bool) (v : BitVec 16) :
    (s.respondOk row dead v).initIdx = s.initIdx := rfl
@[simp] theorem State.respondOk_line (s : State) (row : BitVec 7) (dead : Bool) (v : BitVec 16) :
    (s.respondOk row dead v).line = s.line := rfl
@[simp] theorem State.respondOk_lastRc (s : State) (row : BitVec 7) (dead : Bool) (v : BitVec 16) :
    (s.respondOk row dead v).lastRc = .ok := rfl
@[simp] theorem State.respondOk_errSticky (s : State) (row : BitVec 7) (dead : Bool) (v : BitVec 16) :
    (s.respondOk row dead v).errSticky = s.errSticky := rfl
@[simp] theorem State.respondOk_failPhase (s : State) (row : BitVec 7) (dead : Bool) (v : BitVec 16) :
    (s.respondOk row dead v).failPhase = s.failPhase := rfl
@[simp] theorem State.respondOk_res (s : State) (row : BitVec 7) (dead : Bool) (v : BitVec 16) :
    (s.respondOk row dead v).res = s.res := rfl
@[simp] theorem State.respondOk_cs (s : State) (row : BitVec 7) (dead : Bool) (v : BitVec 16) :
    (s.respondOk row dead v).cs = s.cs := rfl
@[simp] theorem State.respondOk_dc (s : State) (row : BitVec 7) (dead : Bool) (v : BitVec 16) :
    (s.respondOk row dead v).dc = s.dc := rfl
@[simp] theorem State.respondOk_buf (s : State) (row : BitVec 7) (dead : Bool) (v : BitVec 16) :
    (s.respondOk row dead v).buf = s.buf := rfl
@[simp] theorem State.respondOk_rom (s : State) (row : BitVec 7) (dead : Bool) (v : BitVec 16) :
    (s.respondOk row dead v).rom = s.rom := rfl
@[simp] theorem State.respondOk_wait (s : State) (row : BitVec 7) (dead : Bool) (v : BitVec 16) :
    (s.respondOk row dead v).wait = s.wait := rfl
@[simp] theorem State.respondOk_curReq (s : State) (row : BitVec 7) (dead : Bool) (v : BitVec 16) :
    (s.respondOk row dead v).curReq = s.curReq := rfl
@[simp] theorem State.respondOk_params (s : State) (row : BitVec 7) (dead : Bool) (v : BitVec 16) :
    (s.respondOk row dead v).params = s.params := rfl
@[simp] theorem State.respondOk_fetching (s : State) (row : BitVec 7) (dead : Bool) (v : BitVec 16) :
    (s.respondOk row dead v).fetching = s.fetching := rfl
@[simp] theorem State.respondOk_txBytes (s : State) (row : BitVec 7) (dead : Bool) (v : BitVec 16) :
    (s.respondOk row dead v).txBytes = s.txBytes := rfl
@[simp] theorem State.respondOk_trace (s : State) (row : BitVec 7) (dead : Bool) (v : BitVec 16) :
    (s.respondOk row dead v).trace = s.trace := rfl
@[simp] theorem State.respondOk_responses (s : State) (row : BitVec 7) (dead : Bool) (v : BitVec 16) :
    (s.respondOk row dead v).responses = s.responses ++ [okWord row dead v] := rfl
@[simp] theorem State.respondOk_hostReqs (s : State) (row : BitVec 7) (dead : Bool) (v : BitVec 16) :
    (s.respondOk row dead v).hostReqs = s.hostReqs := rfl
@[simp] theorem State.respondOk_busAnswers (s : State) (row : BitVec 7) (dead : Bool) (v : BitVec 16) :
    (s.respondOk row dead v).busAnswers = s.busAnswers := rfl
@[simp] theorem State.respondOk_cbAcks (s : State) (row : BitVec 7) (dead : Bool) (v : BitVec 16) :
    (s.respondOk row dead v).cbAcks = s.cbAcks := rfl
@[simp] theorem State.respondOk_holds (s : State) (row : BitVec 7) (dead : Bool) (v : BitVec 16) :
    (s.respondOk row dead v).holds = s.holds := rfl
@[simp] theorem State.respondOk_holdTimes (s : State) (row : BitVec 7) (dead : Bool) (v : BitVec 16) :
    (s.respondOk row dead v).holdTimes = s.holdTimes := rfl
@[simp] theorem State.respondOk_wire (s : State) (row : BitVec 7) (dead : Bool) (v : BitVec 16) :
    (s.respondOk row dead v).wire = s.wire := rfl
@[simp] theorem State.respondOk_porIn (s : State) (row : BitVec 7) (dead : Bool) (v : BitVec 16) :
    (s.respondOk row dead v).porIn = s.porIn := rfl
@[simp] theorem State.respondOk_draws (s : State) (row : BitVec 7) (dead : Bool) (v : BitVec 16) :
    (s.respondOk row dead v).draws = s.draws := rfl

@[simp] theorem State.raise_cfgHeight (s : State) (e : ResultCode) :
    (s.raise e).cfgHeight = s.cfgHeight := rfl
@[simp] theorem State.raise_cfgWidth (s : State) (e : ResultCode) :
    (s.raise e).cfgWidth = s.cfgWidth := rfl
@[simp] theorem State.raise_cfgCbEn (s : State) (e : ResultCode) :
    (s.raise e).cfgCbEn = s.cfgCbEn := rfl
@[simp] theorem State.raise_phase (s : State) (e : ResultCode) :
    (s.raise e).phase = s.phase := rfl
@[simp] theorem State.raise_opKind (s : State) (e : ResultCode) :
    (s.raise e).opKind = s.opKind := rfl
@[simp] theorem State.raise_initIdx (s : State) (e : ResultCode) :
    (s.raise e).initIdx = s.initIdx := rfl
@[simp] theorem State.raise_line (s : State) (e : ResultCode) :
    (s.raise e).line = s.line := rfl
@[simp] theorem State.raise_lastRc (s : State) (e : ResultCode) :
    (s.raise e).lastRc = e := rfl
@[simp] theorem State.raise_errSticky (s : State) (e : ResultCode) :
    (s.raise e).errSticky = s.errSticky := rfl
@[simp] theorem State.raise_failPhase (s : State) (e : ResultCode) :
    (s.raise e).failPhase = s.failPhase := rfl
@[simp] theorem State.raise_res (s : State) (e : ResultCode) :
    (s.raise e).res = s.res := rfl
@[simp] theorem State.raise_cs (s : State) (e : ResultCode) :
    (s.raise e).cs = s.cs := rfl
@[simp] theorem State.raise_dc (s : State) (e : ResultCode) :
    (s.raise e).dc = s.dc := rfl
@[simp] theorem State.raise_buf (s : State) (e : ResultCode) :
    (s.raise e).buf = s.buf := rfl
@[simp] theorem State.raise_rom (s : State) (e : ResultCode) :
    (s.raise e).rom = s.rom := rfl
@[simp] theorem State.raise_wait (s : State) (e : ResultCode) :
    (s.raise e).wait = s.wait := rfl
@[simp] theorem State.raise_curReq (s : State) (e : ResultCode) :
    (s.raise e).curReq = s.curReq := rfl
@[simp] theorem State.raise_params (s : State) (e : ResultCode) :
    (s.raise e).params = s.params := rfl
@[simp] theorem State.raise_fetching (s : State) (e : ResultCode) :
    (s.raise e).fetching = s.fetching := rfl
@[simp] theorem State.raise_txBytes (s : State) (e : ResultCode) :
    (s.raise e).txBytes = s.txBytes := rfl
@[simp] theorem State.raise_trace (s : State) (e : ResultCode) :
    (s.raise e).trace = s.trace := rfl
@[simp] theorem State.raise_responses (s : State) (e : ResultCode) :
    (s.raise e).responses = s.responses ++ [errorWord e] := rfl
@[simp] theorem State.raise_hostReqs (s : State) (e : ResultCode) :
    (s.raise e).hostReqs = s.hostReqs := rfl
@[simp] theorem State.raise_busAnswers (s : State) (e : ResultCode) :
    (s.raise e).busAnswers = s.busAnswers := rfl
@[simp] theorem State.raise_cbAcks (s : State) (e : ResultCode) :
    (s.raise e).cbAcks = s.cbAcks := rfl
@[simp] theorem State.raise_holds (s : State) (e : ResultCode) :
    (s.raise e).holds = s.holds := rfl
@[simp] theorem State.raise_holdTimes (s : State) (e : ResultCode) :
    (s.raise e).holdTimes = s.holdTimes := rfl
@[simp] theorem State.raise_wire (s : State) (e : ResultCode) :
    (s.raise e).wire = s.wire := rfl
@[simp] theorem State.raise_porIn (s : State) (e : ResultCode) :
    (s.raise e).porIn = s.porIn := rfl
@[simp] theorem State.raise_draws (s : State) (e : ResultCode) :
    (s.raise e).draws = s.draws := rfl

@[simp] theorem State.writeBuf_cfgHeight (s : State) (a : Nat) (v : Byte) :
    (s.writeBuf a v).cfgHeight = s.cfgHeight := rfl
@[simp] theorem State.writeBuf_cfgWidth (s : State) (a : Nat) (v : Byte) :
    (s.writeBuf a v).cfgWidth = s.cfgWidth := rfl
@[simp] theorem State.writeBuf_cfgCbEn (s : State) (a : Nat) (v : Byte) :
    (s.writeBuf a v).cfgCbEn = s.cfgCbEn := rfl
@[simp] theorem State.writeBuf_phase (s : State) (a : Nat) (v : Byte) :
    (s.writeBuf a v).phase = s.phase := rfl
@[simp] theorem State.writeBuf_opKind (s : State) (a : Nat) (v : Byte) :
    (s.writeBuf a v).opKind = s.opKind := rfl
@[simp] theorem State.writeBuf_initIdx (s : State) (a : Nat) (v : Byte) :
    (s.writeBuf a v).initIdx = s.initIdx := rfl
@[simp] theorem State.writeBuf_line (s : State) (a : Nat) (v : Byte) :
    (s.writeBuf a v).line = s.line := rfl
@[simp] theorem State.writeBuf_lastRc (s : State) (a : Nat) (v : Byte) :
    (s.writeBuf a v).lastRc = s.lastRc := rfl
@[simp] theorem State.writeBuf_errSticky (s : State) (a : Nat) (v : Byte) :
    (s.writeBuf a v).errSticky = s.errSticky := rfl
@[simp] theorem State.writeBuf_failPhase (s : State) (a : Nat) (v : Byte) :
    (s.writeBuf a v).failPhase = s.failPhase := rfl
@[simp] theorem State.writeBuf_res (s : State) (a : Nat) (v : Byte) :
    (s.writeBuf a v).res = s.res := rfl
@[simp] theorem State.writeBuf_cs (s : State) (a : Nat) (v : Byte) :
    (s.writeBuf a v).cs = s.cs := rfl
@[simp] theorem State.writeBuf_dc (s : State) (a : Nat) (v : Byte) :
    (s.writeBuf a v).dc = s.dc := rfl
@[simp] theorem State.writeBuf_buf (s : State) (a : Nat) (v : Byte) :
    (s.writeBuf a v).buf = Memory.write s.buf a v := rfl
@[simp] theorem State.writeBuf_rom (s : State) (a : Nat) (v : Byte) :
    (s.writeBuf a v).rom = s.rom := rfl
@[simp] theorem State.writeBuf_wait (s : State) (a : Nat) (v : Byte) :
    (s.writeBuf a v).wait = s.wait := rfl
@[simp] theorem State.writeBuf_curReq (s : State) (a : Nat) (v : Byte) :
    (s.writeBuf a v).curReq = s.curReq := rfl
@[simp] theorem State.writeBuf_params (s : State) (a : Nat) (v : Byte) :
    (s.writeBuf a v).params = s.params := rfl
@[simp] theorem State.writeBuf_fetching (s : State) (a : Nat) (v : Byte) :
    (s.writeBuf a v).fetching = s.fetching := rfl
@[simp] theorem State.writeBuf_txBytes (s : State) (a : Nat) (v : Byte) :
    (s.writeBuf a v).txBytes = s.txBytes := rfl
@[simp] theorem State.writeBuf_trace (s : State) (a : Nat) (v : Byte) :
    (s.writeBuf a v).trace = s.trace := rfl
@[simp] theorem State.writeBuf_responses (s : State) (a : Nat) (v : Byte) :
    (s.writeBuf a v).responses = s.responses := rfl
@[simp] theorem State.writeBuf_hostReqs (s : State) (a : Nat) (v : Byte) :
    (s.writeBuf a v).hostReqs = s.hostReqs := rfl
@[simp] theorem State.writeBuf_busAnswers (s : State) (a : Nat) (v : Byte) :
    (s.writeBuf a v).busAnswers = s.busAnswers := rfl
@[simp] theorem State.writeBuf_cbAcks (s : State) (a : Nat) (v : Byte) :
    (s.writeBuf a v).cbAcks = s.cbAcks := rfl
@[simp] theorem State.writeBuf_holds (s : State) (a : Nat) (v : Byte) :
    (s.writeBuf a v).holds = s.holds := rfl
@[simp] theorem State.writeBuf_holdTimes (s : State) (a : Nat) (v : Byte) :
    (s.writeBuf a v).holdTimes = s.holdTimes := rfl
@[simp] theorem State.writeBuf_wire (s : State) (a : Nat) (v : Byte) :
    (s.writeBuf a v).wire = s.wire := rfl
@[simp] theorem State.writeBuf_porIn (s : State) (a : Nat) (v : Byte) :
    (s.writeBuf a v).porIn = s.porIn := rfl
@[simp] theorem State.writeBuf_draws (s : State) (a : Nat) (v : Byte) :
    (s.writeBuf a v).draws = s.draws := rfl

@[simp] theorem State.drive_res_cfgHeight (s : State) (v : Level) :
    (s.drive .res v).cfgHeight = s.cfgHeight := rfl
@[simp] theorem State.drive_res_cfgWidth (s : State) (v : Level) :
    (s.drive .res v).cfgWidth = s.cfgWidth := rfl
@[simp] theorem State.drive_res_cfgCbEn (s : State) (v : Level) :
    (s.drive .res v).cfgCbEn = s.cfgCbEn := rfl
@[simp] theorem State.drive_res_phase (s : State) (v : Level) :
    (s.drive .res v).phase = s.phase := rfl
@[simp] theorem State.drive_res_opKind (s : State) (v : Level) :
    (s.drive .res v).opKind = s.opKind := rfl
@[simp] theorem State.drive_res_initIdx (s : State) (v : Level) :
    (s.drive .res v).initIdx = s.initIdx := rfl
@[simp] theorem State.drive_res_line (s : State) (v : Level) :
    (s.drive .res v).line = s.line := rfl
@[simp] theorem State.drive_res_lastRc (s : State) (v : Level) :
    (s.drive .res v).lastRc = s.lastRc := rfl
@[simp] theorem State.drive_res_errSticky (s : State) (v : Level) :
    (s.drive .res v).errSticky = s.errSticky := rfl
@[simp] theorem State.drive_res_failPhase (s : State) (v : Level) :
    (s.drive .res v).failPhase = s.failPhase := rfl
@[simp] theorem State.drive_res_res (s : State) (v : Level) :
    (s.drive .res v).res = v := rfl
@[simp] theorem State.drive_res_cs (s : State) (v : Level) :
    (s.drive .res v).cs = s.cs := rfl
@[simp] theorem State.drive_res_dc (s : State) (v : Level) :
    (s.drive .res v).dc = s.dc := rfl
@[simp] theorem State.drive_res_buf (s : State) (v : Level) :
    (s.drive .res v).buf = s.buf := rfl
@[simp] theorem State.drive_res_rom (s : State) (v : Level) :
    (s.drive .res v).rom = s.rom := rfl
@[simp] theorem State.drive_res_wait (s : State) (v : Level) :
    (s.drive .res v).wait = s.wait := rfl
@[simp] theorem State.drive_res_curReq (s : State) (v : Level) :
    (s.drive .res v).curReq = s.curReq := rfl
@[simp] theorem State.drive_res_params (s : State) (v : Level) :
    (s.drive .res v).params = s.params := rfl
@[simp] theorem State.drive_res_fetching (s : State) (v : Level) :
    (s.drive .res v).fetching = s.fetching := rfl
@[simp] theorem State.drive_res_txBytes (s : State) (v : Level) :
    (s.drive .res v).txBytes = s.txBytes := rfl
@[simp] theorem State.drive_res_trace (s : State) (v : Level) :
    (s.drive .res v).trace = s.trace ++ [.pin .res v] := rfl
@[simp] theorem State.drive_res_responses (s : State) (v : Level) :
    (s.drive .res v).responses = s.responses := rfl
@[simp] theorem State.drive_res_hostReqs (s : State) (v : Level) :
    (s.drive .res v).hostReqs = s.hostReqs := rfl
@[simp] theorem State.drive_res_busAnswers (s : State) (v : Level) :
    (s.drive .res v).busAnswers = s.busAnswers := rfl
@[simp] theorem State.drive_res_cbAcks (s : State) (v : Level) :
    (s.drive .res v).cbAcks = s.cbAcks := rfl
@[simp] theorem State.drive_res_holds (s : State) (v : Level) :
    (s.drive .res v).holds = s.holds := rfl
@[simp] theorem State.drive_res_holdTimes (s : State) (v : Level) :
    (s.drive .res v).holdTimes = s.holdTimes := rfl
@[simp] theorem State.drive_res_wire (s : State) (v : Level) :
    (s.drive .res v).wire = s.wire := rfl
@[simp] theorem State.drive_res_porIn (s : State) (v : Level) :
    (s.drive .res v).porIn = s.porIn := rfl
@[simp] theorem State.drive_res_draws (s : State) (v : Level) :
    (s.drive .res v).draws = s.draws := rfl

@[simp] theorem State.drive_cs_cfgHeight (s : State) (v : Level) :
    (s.drive .cs v).cfgHeight = s.cfgHeight := rfl
@[simp] theorem State.drive_cs_cfgWidth (s : State) (v : Level) :
    (s.drive .cs v).cfgWidth = s.cfgWidth := rfl
@[simp] theorem State.drive_cs_cfgCbEn (s : State) (v : Level) :
    (s.drive .cs v).cfgCbEn = s.cfgCbEn := rfl
@[simp] theorem State.drive_cs_phase (s : State) (v : Level) :
    (s.drive .cs v).phase = s.phase := rfl
@[simp] theorem State.drive_cs_opKind (s : State) (v : Level) :
    (s.drive .cs v).opKind = s.opKind := rfl
@[simp] theorem State.drive_cs_initIdx (s : State) (v : Level) :
    (s.drive .cs v).initIdx = s.initIdx := rfl
@[simp] theorem State.drive_cs_line (s : State) (v : Level) :
    (s.drive .cs v).line = s.line := rfl
@[simp] theorem State.drive_cs_lastRc (s : State) (v : Level) :
    (s.drive .cs v).lastRc = s.lastRc := rfl
@[simp] theorem State.drive_cs_errSticky (s : State) (v : Level) :
    (s.drive .cs v).errSticky = s.errSticky := rfl
@[simp] theorem State.drive_cs_failPhase (s : State) (v : Level) :
    (s.drive .cs v).failPhase = s.failPhase := rfl
@[simp] theorem State.drive_cs_res (s : State) (v : Level) :
    (s.drive .cs v).res = s.res := rfl
@[simp] theorem State.drive_cs_cs (s : State) (v : Level) :
    (s.drive .cs v).cs = v := rfl
@[simp] theorem State.drive_cs_dc (s : State) (v : Level) :
    (s.drive .cs v).dc = s.dc := rfl
@[simp] theorem State.drive_cs_buf (s : State) (v : Level) :
    (s.drive .cs v).buf = s.buf := rfl
@[simp] theorem State.drive_cs_rom (s : State) (v : Level) :
    (s.drive .cs v).rom = s.rom := rfl
@[simp] theorem State.drive_cs_wait (s : State) (v : Level) :
    (s.drive .cs v).wait = s.wait := rfl
@[simp] theorem State.drive_cs_curReq (s : State) (v : Level) :
    (s.drive .cs v).curReq = s.curReq := rfl
@[simp] theorem State.drive_cs_params (s : State) (v : Level) :
    (s.drive .cs v).params = s.params := rfl
@[simp] theorem State.drive_cs_fetching (s : State) (v : Level) :
    (s.drive .cs v).fetching = s.fetching := rfl
@[simp] theorem State.drive_cs_txBytes (s : State) (v : Level) :
    (s.drive .cs v).txBytes = s.txBytes := rfl
@[simp] theorem State.drive_cs_trace (s : State) (v : Level) :
    (s.drive .cs v).trace = s.trace ++ [.pin .cs v] := rfl
@[simp] theorem State.drive_cs_responses (s : State) (v : Level) :
    (s.drive .cs v).responses = s.responses := rfl
@[simp] theorem State.drive_cs_hostReqs (s : State) (v : Level) :
    (s.drive .cs v).hostReqs = s.hostReqs := rfl
@[simp] theorem State.drive_cs_busAnswers (s : State) (v : Level) :
    (s.drive .cs v).busAnswers = s.busAnswers := rfl
@[simp] theorem State.drive_cs_cbAcks (s : State) (v : Level) :
    (s.drive .cs v).cbAcks = s.cbAcks := rfl
@[simp] theorem State.drive_cs_holds (s : State) (v : Level) :
    (s.drive .cs v).holds = s.holds := rfl
@[simp] theorem State.drive_cs_holdTimes (s : State) (v : Level) :
    (s.drive .cs v).holdTimes = s.holdTimes := rfl
@[simp] theorem State.drive_cs_wire (s : State) (v : Level) :
    (s.drive .cs v).wire = s.wire := rfl
@[simp] theorem State.drive_cs_porIn (s : State) (v : Level) :
    (s.drive .cs v).porIn = s.porIn := rfl
@[simp] theorem State.drive_cs_draws (s : State) (v : Level) :
    (s.drive .cs v).draws = s.draws := rfl

@[simp] theorem State.drive_dc_cfgHeight (s : State) (v : Level) :
    (s.drive .dc v).cfgHeight = s.cfgHeight := rfl
@[simp] theorem State.drive_dc_cfgWidth (s : State) (v : Level) :
    (s.drive .dc v).cfgWidth = s.cfgWidth := rfl
@[simp] theorem State.drive_dc_cfgCbEn (s : State) (v : Level) :
    (s.drive .dc v).cfgCbEn = s.cfgCbEn := rfl
@[simp] theorem State.drive_dc_phase (s : State) (v : Level) :
    (s.drive .dc v).phase = s.phase := rfl
@[simp] theorem State.drive_dc_opKind (s : State) (v : Level) :
    (s.drive .dc v).opKind = s.opKind := rfl
@[simp] theorem State.drive_dc_initIdx (s : State) (v : Level) :
    (s.drive .dc v).initIdx = s.initIdx := rfl
@[simp] theorem State.drive_dc_line (s : State) (v : Level) :
    (s.drive .dc v).line = s.line := rfl
@[simp] theorem State.drive_dc_lastRc (s : State) (v : Level) :
    (s.drive .dc v).lastRc = s.lastRc := rfl
@[simp] theorem State.drive_dc_errSticky (s : State) (v : Level) :
    (s.drive .dc v).errSticky = s.errSticky := rfl
@[simp] theorem State.drive_dc_failPhase (s : State) (v : Level) :
    (s.drive .dc v).failPhase = s.failPhase := rfl
@[simp] theorem State.drive_dc_res (s : State) (v : Level) :
    (s.drive .dc v).res = s.res := rfl
@[simp] theorem State.drive_dc_cs (s : State) (v : Level) :
    (s.drive .dc v).cs = s.cs := rfl
@[simp] theorem State.drive_dc_dc (s : State) (v : Level) :
    (s.drive .dc v).dc = v := rfl
@[simp] theorem State.drive_dc_buf (s : State) (v : Level) :
    (s.drive .dc v).buf = s.buf := rfl
@[simp] theorem State.drive_dc_rom (s : State) (v : Level) :
    (s.drive .dc v).rom = s.rom := rfl
@[simp] theorem State.drive_dc_wait (s : State) (v : Level) :
    (s.drive .dc v).wait = s.wait := rfl
@[simp] theorem State.drive_dc_curReq (s : State) (v : Level) :
    (s.drive .dc v).curReq = s.curReq := rfl
@[simp] theorem State.drive_dc_params (s : State) (v : Level) :
    (s.drive .dc v).params = s.params := rfl
@[simp] theorem State.drive_dc_fetching (s : State) (v : Level) :
    (s.drive .dc v).fetching = s.fetching := rfl
@[simp] theorem State.drive_dc_txBytes (s : State) (v : Level) :
    (s.drive .dc v).txBytes = s.txBytes := rfl
@[simp] theorem State.drive_dc_trace (s : State) (v : Level) :
    (s.drive .dc v).trace = s.trace ++ [.pin .dc v] := rfl
@[simp] theorem State.drive_dc_responses (s : State) (v : Level) :
    (s.drive .dc v).responses = s.responses := rfl
@[simp] theorem State.drive_dc_hostReqs (s : State) (v : Level) :
    (s.drive .dc v).hostReqs = s.hostReqs := rfl
@[simp] theorem State.drive_dc_busAnswers (s : State) (v : Level) :
    (s.drive .dc v).busAnswers = s.busAnswers := rfl
@[simp] theorem State.drive_dc_cbAcks (s : State) (v : Level) :
    (s.drive .dc v).cbAcks = s.cbAcks := rfl
@[simp] theorem State.drive_dc_holds (s : State) (v : Level) :
    (s.drive .dc v).holds = s.holds := rfl
@[simp] theorem State.drive_dc_holdTimes (s : State) (v : Level) :
    (s.drive .dc v).holdTimes = s.holdTimes := rfl
@[simp] theorem State.drive_dc_wire (s : State) (v : Level) :
    (s.drive .dc v).wire = s.wire := rfl
@[simp] theorem State.drive_dc_porIn (s : State) (v : Level) :
    (s.drive .dc v).porIn = s.porIn := rfl
@[simp] theorem State.drive_dc_draws (s : State) (v : Level) :
    (s.drive .dc v).draws = s.draws := rfl

@[simp] theorem State.startHold_cfgHeight (s : State) :
    (s.startHold).cfgHeight = s.cfgHeight := rfl
@[simp] theorem State.startHold_cfgWidth (s : State) :
    (s.startHold).cfgWidth = s.cfgWidth := rfl
@[simp] theorem State.startHold_cfgCbEn (s : State) :
    (s.startHold).cfgCbEn = s.cfgCbEn := rfl
@[simp] theorem State.startHold_phase (s : State) :
    (s.startHold).phase = s.phase := rfl
@[simp] theorem State.startHold_opKind (s : State) :
    (s.startHold).opKind = s.opKind := rfl
@[simp] theorem State.startHold_initIdx (s : State) :
    (s.startHold).initIdx = s.initIdx := rfl
@[simp] theorem State.startHold_line (s : State) :
    (s.startHold).line = s.line := rfl
@[simp] theorem State.startHold_lastRc (s : State) :
    (s.startHold).lastRc = s.lastRc := rfl
@[simp] theorem State.startHold_errSticky (s : State) :
    (s.startHold).errSticky = s.errSticky := rfl
@[simp] theorem State.startHold_failPhase (s : State) :
    (s.startHold).failPhase = s.failPhase := rfl
@[simp] theorem State.startHold_res (s : State) :
    (s.startHold).res = s.res := rfl
@[simp] theorem State.startHold_cs (s : State) :
    (s.startHold).cs = s.cs := rfl
@[simp] theorem State.startHold_dc (s : State) :
    (s.startHold).dc = s.dc := rfl
@[simp] theorem State.startHold_buf (s : State) :
    (s.startHold).buf = s.buf := rfl
@[simp] theorem State.startHold_rom (s : State) :
    (s.startHold).rom = s.rom := rfl
@[simp] theorem State.startHold_wait (s : State) :
    (s.startHold).wait = .delay := rfl
@[simp] theorem State.startHold_curReq (s : State) :
    (s.startHold).curReq = s.curReq := rfl
@[simp] theorem State.startHold_params (s : State) :
    (s.startHold).params = s.params := rfl
@[simp] theorem State.startHold_fetching (s : State) :
    (s.startHold).fetching = s.fetching := rfl
@[simp] theorem State.startHold_txBytes (s : State) :
    (s.startHold).txBytes = s.txBytes := rfl
@[simp] theorem State.startHold_trace (s : State) :
    (s.startHold).trace = s.trace ++ [.delay] := rfl
@[simp] theorem State.startHold_responses (s : State) :
    (s.startHold).responses = s.responses := rfl
@[simp] theorem State.startHold_hostReqs (s : State) :
    (s.startHold).hostReqs = s.hostReqs := rfl
@[simp] theorem State.startHold_busAnswers (s : State) :
    (s.startHold).busAnswers = s.busAnswers := rfl
@[simp] theorem State.startHold_cbAcks (s : State) :
    (s.startHold).cbAcks = s.cbAcks := rfl
@[simp] theorem State.startHold_holds (s : State) :
    (s.startHold).holds = s.holds := rfl
@[simp] theorem State.startHold_holdTimes (s : State) :
    (s.startHold).holdTimes = s.holdTimes := rfl
@[simp] theorem State.startHold_wire (s : State) :
    (s.startHold).wire = s.wire := rfl
@[simp] theorem State.startHold_porIn (s : State) :
    (s.startHold).porIn = s.porIn := rfl
@[simp] theorem State.startHold_draws (s : State) :
    (s.startHold).draws = s.draws := rfl

@[simp] theorem State.startCallback_cfgHeight (s : State) :
    (s.startCallback).cfgHeight = s.cfgHeight := rfl
@[simp] theorem State.startCallback_cfgWidth (s : State) :
    (s.startCallback).cfgWidth = s.cfgWidth := rfl
@[simp] theorem State.startCallback_cfgCbEn (s : State) :
    (s.startCallback).cfgCbEn = s.cfgCbEn := rfl
@[simp] theorem State.startCallback_phase (s : State) :
    (s.startCallback).phase = s.phase := rfl
@[simp] theorem State.startCallback_opKind (s : State) :
    (s.startCallback).opKind = s.opKind := rfl
@[simp] theorem State.startCallback_initIdx (s : State) :
    (s.startCallback).initIdx = s.initIdx := rfl
@[simp] theorem State.startCallback_line (s : State) :
    (s.startCallback).line = s.line := rfl
@[simp] theorem State.startCallback_lastRc (s : State) :
    (s.startCallback).lastRc = s.lastRc := rfl
@[simp] theorem State.startCallback_errSticky (s : State) :
    (s.startCallback).errSticky = s.errSticky := rfl
@[simp] theorem State.startCallback_failPhase (s : State) :
    (s.startCallback).failPhase = s.failPhase := rfl
@[simp] theorem State.startCallback_res (s : State) :
    (s.startCallback).res = s.res := rfl
@[simp] theorem State.startCallback_cs (s : State) :
    (s.startCallback).cs = s.cs := rfl
@[simp] theorem State.startCallback_dc (s : State) :
    (s.startCallback).dc = s.dc := rfl
@[simp] theorem State.startCallback_buf (s : State) :
    (s.startCallback).buf = s.buf := rfl
@[simp] theorem State.startCallback_rom (s : State) :
    (s.startCallback).rom = s.rom := rfl
@[simp] theorem State.startCallback_wait (s : State) :
    (s.startCallback).wait = .cb := rfl
@[simp] theorem State.startCallback_curReq (s : State) :
    (s.startCallback).curReq = s.curReq := rfl
@[simp] theorem State.startCallback_params (s : State) :
    (s.startCallback).params = s.params := rfl
@[simp] theorem State.startCallback_fetching (s : State) :
    (s.startCallback).fetching = s.fetching := rfl
@[simp] theorem State.startCallback_txBytes (s : State) :
    (s.startCallback).txBytes = s.txBytes := rfl
@[simp] theorem State.startCallback_trace (s : State) :
    (s.startCallback).trace = s.trace ++ [.cbReq] := rfl
@[simp] theorem State.startCallback_responses (s : State) :
    (s.startCallback).responses = s.responses := rfl
@[simp] theorem State.startCallback_hostReqs (s : State) :
    (s.startCallback).hostReqs = s.hostReqs := rfl
@[simp] theorem State.startCallback_busAnswers (s : State) :
    (s.startCallback).busAnswers = s.busAnswers := rfl
@[simp] theorem State.startCallback_cbAcks (s : State) :
    (s.startCallback).cbAcks = s.cbAcks := rfl
@[simp] theorem State.startCallback_holds (s : State) :
    (s.startCallback).holds = s.holds := rfl
@[simp] theorem State.startCallback_holdTimes (s : State) :
    (s.startCallback).holdTimes = s.holdTimes := rfl
@[simp] theorem State.startCallback_wire (s : State) :
    (s.startCallback).wire = s.wire := rfl
@[simp] theorem State.startCallback_porIn (s : State) :
    (s.startCallback).porIn = s.porIn := rfl
@[simp] theorem State.startCallback_draws (s : State) :
    (s.startCallback).draws = s.draws := rfl

@[simp] theorem State.goTo_cfgHeight (s : State) (p : Phase) :
    (s.goTo p).cfgHeight = s.cfgHeight := rfl
@[simp] theorem State.goTo_cfgWidth (s : State) (p : Phase) :
    (s.goTo p).cfgWidth = s.cfgWidth := rfl
@[simp] theorem State.goTo_cfgCbEn (s : State) (p : Phase) :
    (s.goTo p).cfgCbEn = s.cfgCbEn := rfl
@[simp] theorem State.goTo_phase (s : State) (p : Phase) :
    (s.goTo p).phase = p := rfl
@[simp] theorem State.goTo_opKind (s : State) (p : Phase) :
    (s.goTo p).opKind = s.opKind := rfl
@[simp] theorem State.goTo_initIdx (s : State) (p : Phase) :
    (s.goTo p).initIdx = s.initIdx := rfl
@[simp] theorem State.goTo_line (s : State) (p : Phase) :
    (s.goTo p).line = s.line := rfl
@[simp] theorem State.goTo_lastRc (s : State) (p : Phase) :
    (s.goTo p).lastRc = s.lastRc := rfl
@[simp] theorem State.goTo_errSticky (s : State) (p : Phase) :
    (s.goTo p).errSticky = s.errSticky := rfl
@[simp] theorem State.goTo_failPhase (s : State) (p : Phase) :
    (s.goTo p).failPhase = s.failPhase := rfl
@[simp] theorem State.goTo_res (s : State) (p : Phase) :
    (s.goTo p).res = s.res := rfl
@[simp] theorem State.goTo_cs (s : State) (p : Phase) :
    (s.goTo p).cs = s.cs := rfl
@[simp] theorem State.goTo_dc (s : State) (p : Phase) :
    (s.goTo p).dc = s.dc := rfl
@[simp] theorem State.goTo_buf (s : State) (p : Phase) :
    (s.goTo p).buf = s.buf := rfl
@[simp] theorem State.goTo_rom (s : State) (p : Phase) :
    (s.goTo p).rom = s.rom := rfl
@[simp] theorem State.goTo_wait (s : State) (p : Phase) :
    (s.goTo p).wait = s.wait := rfl
@[simp] theorem State.goTo_curReq (s : State) (p : Phase) :
    (s.goTo p).curReq = s.curReq := rfl
@[simp] theorem State.goTo_params (s : State) (p : Phase) :
    (s.goTo p).params = s.params := rfl
@[simp] theorem State.goTo_fetching (s : State) (p : Phase) :
    (s.goTo p).fetching = s.fetching := rfl
@[simp] theorem State.goTo_txBytes (s : State) (p : Phase) :
    (s.goTo p).txBytes = s.txBytes := rfl
@[simp] theorem State.goTo_trace (s : State) (p : Phase) :
    (s.goTo p).trace = s.trace := rfl
@[simp] theorem State.goTo_responses (s : State) (p : Phase) :
    (s.goTo p).responses = s.responses := rfl
@[simp] theorem State.goTo_hostReqs (s : State) (p : Phase) :
    (s.goTo p).hostReqs = s.hostReqs := rfl
@[simp] theorem State.goTo_busAnswers (s : State) (p : Phase) :
    (s.goTo p).busAnswers = s.busAnswers := rfl
@[simp] theorem State.goTo_cbAcks (s : State) (p : Phase) :
    (s.goTo p).cbAcks = s.cbAcks := rfl
@[simp] theorem State.goTo_holds (s : State) (p : Phase) :
    (s.goTo p).holds = s.holds := rfl
@[simp] theorem State.goTo_holdTimes (s : State) (p : Phase) :
    (s.goTo p).holdTimes = s.holdTimes := rfl
@[simp] theorem State.goTo_wire (s : State) (p : Phase) :
    (s.goTo p).wire = s.wire := rfl
@[simp] theorem State.goTo_porIn (s : State) (p : Phase) :
    (s.goTo p).porIn = s.porIn := rfl
@[simp] theorem State.goTo_draws (s : State) (p : Phase) :
    (s.goTo p).draws = s.draws := rfl

@[simp] theorem State.enterFetch_cfgHeight (s : State) (p : Phase) :
    (s.enterFetch p).cfgHeight = s.cfgHeight := rfl
@[simp] theorem State.enterFetch_cfgWidth (s : State) (p : Phase) :
    (s.enterFetch p).cfgWidth = s.cfgWidth := rfl
@[simp] theorem State.enterFetch_cfgCbEn (s : State) (p : Phase) :
    (s.enterFetch p).cfgCbEn = s.cfgCbEn := rfl
@[simp] theorem State.enterFetch_phase (s : State) (p : Phase) :
    (s.enterFetch p).phase = p := rfl
@[simp] theorem State.enterFetch_opKind (s : State) (p : Phase) :
    (s.enterFetch p).opKind = s.opKind := rfl
@[simp] theorem State.enterFetch_initIdx (s : State) (p : Phase) :
    (s.enterFetch p).initIdx = s.initIdx := rfl
@[simp] theorem State.enterFetch_line (s : State) (p : Phase) :
    (s.enterFetch p).line = s.line := rfl
@[simp] theorem State.enterFetch_lastRc (s : State) (p : Phase) :
    (s.enterFetch p).lastRc = s.lastRc := rfl
@[simp] theorem State.enterFetch_errSticky (s : State) (p : Phase) :
    (s.enterFetch p).errSticky = s.errSticky := rfl
@[simp] theorem State.enterFetch_failPhase (s : State) (p : Phase) :
    (s.enterFetch p).failPhase = s.failPhase := rfl
@[simp] theorem State.enterFetch_res (s : State) (p : Phase) :
    (s.enterFetch p).res = s.res := rfl
@[simp] theorem State.enterFetch_cs (s : State) (p : Phase) :
    (s.enterFetch p).cs = s.cs := rfl
@[simp] theorem State.enterFetch_dc (s : State) (p : Phase) :
    (s.enterFetch p).dc = s.dc := rfl
@[simp] theorem State.enterFetch_buf (s : State) (p : Phase) :
    (s.enterFetch p).buf = s.buf := rfl
@[simp] theorem State.enterFetch_rom (s : State) (p : Phase) :
    (s.enterFetch p).rom = s.rom := rfl
@[simp] theorem State.enterFetch_wait (s : State) (p : Phase) :
    (s.enterFetch p).wait = s.wait := rfl
@[simp] theorem State.enterFetch_curReq (s : State) (p : Phase) :
    (s.enterFetch p).curReq = s.curReq := rfl
@[simp] theorem State.enterFetch_params (s : State) (p : Phase) :
    (s.enterFetch p).params = s.params := rfl
@[simp] theorem State.enterFetch_fetching (s : State) (p : Phase) :
    (s.enterFetch p).fetching = true := rfl
@[simp] theorem State.enterFetch_txBytes (s : State) (p : Phase) :
    (s.enterFetch p).txBytes = [] := rfl
@[simp] theorem State.enterFetch_trace (s : State) (p : Phase) :
    (s.enterFetch p).trace = s.trace := rfl
@[simp] theorem State.enterFetch_responses (s : State) (p : Phase) :
    (s.enterFetch p).responses = s.responses := rfl
@[simp] theorem State.enterFetch_hostReqs (s : State) (p : Phase) :
    (s.enterFetch p).hostReqs = s.hostReqs := rfl
@[simp] theorem State.enterFetch_busAnswers (s : State) (p : Phase) :
    (s.enterFetch p).busAnswers = s.busAnswers := rfl
@[simp] theorem State.enterFetch_cbAcks (s : State) (p : Phase) :
    (s.enterFetch p).cbAcks = s.cbAcks := rfl
@[simp] theorem State.enterFetch_holds (s : State) (p : Phase) :
    (s.enterFetch p).holds = s.holds := rfl
@[simp] theorem State.enterFetch_holdTimes (s : State) (p : Phase) :
    (s.enterFetch p).holdTimes = s.holdTimes := rfl
@[simp] theorem State.enterFetch_wire (s : State) (p : Phase) :
    (s.enterFetch p).wire = s.wire := rfl
@[simp] theorem State.enterFetch_porIn (s : State) (p : Phase) :
    (s.enterFetch p).porIn = s.porIn := rfl
@[simp] theorem State.enterFetch_draws (s : State) (p : Phase) :
    (s.enterFetch p).draws = s.draws := rfl

@[simp] theorem State.gather_cfgHeight (s : State) (bs : List Byte) :
    (s.gather bs).cfgHeight = s.cfgHeight := rfl
@[simp] theorem State.gather_cfgWidth (s : State) (bs : List Byte) :
    (s.gather bs).cfgWidth = s.cfgWidth := rfl
@[simp] theorem State.gather_cfgCbEn (s : State) (bs : List Byte) :
    (s.gather bs).cfgCbEn = s.cfgCbEn := rfl
@[simp] theorem State.gather_phase (s : State) (bs : List Byte) :
    (s.gather bs).phase = s.phase := rfl
@[simp] theorem State.gather_opKind (s : State) (bs : List Byte) :
    (s.gather bs).opKind = s.opKind := rfl
@[simp] theorem State.gather_initIdx (s : State) (bs : List Byte) :
    (s.gather bs).initIdx = s.initIdx := rfl
@[simp] theorem State.gather_line (s : State) (bs : List Byte) :
    (s.gather bs).line = s.line := rfl
@[simp] theorem State.gather_lastRc (s : State) (bs : List Byte) :
    (s.gather bs).lastRc = s.lastRc := rfl
@[simp] theorem State.gather_errSticky (s : State) (bs : List Byte) :
    (s.gather bs).errSticky = s.errSticky := rfl
@[simp] theorem State.gather_failPhase (s : State) (bs : List Byte) :
    (s.gather bs).failPhase = s.failPhase := rfl
@[simp] theorem State.gather_res (s : State) (bs : List Byte) :
    (s.gather bs).res = s.res := rfl
@[simp] theorem State.gather_cs (s : State) (bs : List Byte) :
    (s.gather bs).cs = s.cs := rfl
@[simp] theorem State.gather_dc (s : State) (bs : List Byte) :
    (s.gather bs).dc = s.dc := rfl
@[simp] theorem State.gather_buf (s : State) (bs : List Byte) :
    (s.gather bs).buf = s.buf := rfl
@[simp] theorem State.gather_rom (s : State) (bs : List Byte) :
    (s.gather bs).rom = s.rom := rfl
@[simp] theorem State.gather_wait (s : State) (bs : List Byte) :
    (s.gather bs).wait = s.wait := rfl
@[simp] theorem State.gather_curReq (s : State) (bs : List Byte) :
    (s.gather bs).curReq = s.curReq := rfl
@[simp] theorem State.gather_params (s : State) (bs : List Byte) :
    (s.gather bs).params = s.params := rfl
@[simp] theorem State.gather_fetching (s : State) (bs : List Byte) :
    (s.gather bs).fetching = s.fetching := rfl
@[simp] theorem State.gather_txBytes (s : State) (bs : List Byte) :
    (s.gather bs).txBytes = s.txBytes ++ bs := rfl
@[simp] theorem State.gather_trace (s : State) (bs : List Byte) :
    (s.gather bs).trace = s.trace := rfl
@[simp] theorem State.gather_responses (s : State) (bs : List Byte) :
    (s.gather bs).responses = s.responses := rfl
@[simp] theorem State.gather_hostReqs (s : State) (bs : List Byte) :
    (s.gather bs).hostReqs = s.hostReqs := rfl
@[simp] theorem State.gather_busAnswers (s : State) (bs : List Byte) :
    (s.gather bs).busAnswers = s.busAnswers := rfl
@[simp] theorem State.gather_cbAcks (s : State) (bs : List Byte) :
    (s.gather bs).cbAcks = s.cbAcks := rfl
@[simp] theorem State.gather_holds (s : State) (bs : List Byte) :
    (s.gather bs).holds = s.holds := rfl
@[simp] theorem State.gather_holdTimes (s : State) (bs : List Byte) :
    (s.gather bs).holdTimes = s.holdTimes := rfl
@[simp] theorem State.gather_wire (s : State) (bs : List Byte) :
    (s.gather bs).wire = s.wire := rfl
@[simp] theorem State.gather_porIn (s : State) (bs : List Byte) :
    (s.gather bs).porIn = s.porIn := rfl
@[simp] theorem State.gather_draws (s : State) (bs : List Byte) :
    (s.gather bs).draws = s.draws := rfl

@[simp] theorem State.startTransaction_cfgHeight (s : State) (m : BusMode) (bs : List Byte) :
    (s.startTransaction m bs).cfgHeight = s.cfgHeight := rfl
@[simp] theorem State.startTransaction_cfgWidth (s : State) (m : BusMode) (bs : List Byte) :
    (s.startTransaction m bs).cfgWidth = s.cfgWidth := rfl
@[simp] theorem State.startTransaction_cfgCbEn (s : State) (m : BusMode) (bs : List Byte) :
    (s.startTransaction m bs).cfgCbEn = s.cfgCbEn := rfl
@[simp] theorem State.startTransaction_phase (s : State) (m : BusMode) (bs : List Byte) :
    (s.startTransaction m bs).phase = s.phase := rfl
@[simp] theorem State.startTransaction_opKind (s : State) (m : BusMode) (bs : List Byte) :
    (s.startTransaction m bs).opKind = s.opKind := rfl
@[simp] theorem State.startTransaction_initIdx (s : State) (m : BusMode) (bs : List Byte) :
    (s.startTransaction m bs).initIdx = s.initIdx := rfl
@[simp] theorem State.startTransaction_line (s : State) (m : BusMode) (bs : List Byte) :
    (s.startTransaction m bs).line = s.line := rfl
@[simp] theorem State.startTransaction_lastRc (s : State) (m : BusMode) (bs : List Byte) :
    (s.startTransaction m bs).lastRc = s.lastRc := rfl
@[simp] theorem State.startTransaction_errSticky (s : State) (m : BusMode) (bs : List Byte) :
    (s.startTransaction m bs).errSticky = s.errSticky := rfl
@[simp] theorem State.startTransaction_failPhase (s : State) (m : BusMode) (bs : List Byte) :
    (s.startTransaction m bs).failPhase = s.failPhase := rfl
@[simp] theorem State.startTransaction_res (s : State) (m : BusMode) (bs : List Byte) :
    (s.startTransaction m bs).res = s.res := rfl
@[simp] theorem State.startTransaction_cs (s : State) (m : BusMode) (bs : List Byte) :
    (s.startTransaction m bs).cs = s.params.csSelectLevel := rfl
@[simp] theorem State.startTransaction_dc (s : State) (m : BusMode) (bs : List Byte) :
    (s.startTransaction m bs).dc = Params.modeLevel s.params m := rfl
@[simp] theorem State.startTransaction_buf (s : State) (m : BusMode) (bs : List Byte) :
    (s.startTransaction m bs).buf = s.buf := rfl
@[simp] theorem State.startTransaction_rom (s : State) (m : BusMode) (bs : List Byte) :
    (s.startTransaction m bs).rom = s.rom := rfl
@[simp] theorem State.startTransaction_wait (s : State) (m : BusMode) (bs : List Byte) :
    (s.startTransaction m bs).wait = .bus := rfl
@[simp] theorem State.startTransaction_curReq (s : State) (m : BusMode) (bs : List Byte) :
    (s.startTransaction m bs).curReq = s.curReq := rfl
@[simp] theorem State.startTransaction_params (s : State) (m : BusMode) (bs : List Byte) :
    (s.startTransaction m bs).params = s.params := rfl
@[simp] theorem State.startTransaction_fetching (s : State) (m : BusMode) (bs : List Byte) :
    (s.startTransaction m bs).fetching = false := rfl
@[simp] theorem State.startTransaction_txBytes (s : State) (m : BusMode) (bs : List Byte) :
    (s.startTransaction m bs).txBytes = bs := rfl
@[simp] theorem State.startTransaction_trace (s : State) (m : BusMode) (bs : List Byte) :
    (s.startTransaction m bs).trace = s.trace ++ [.pin .cs s.params.csIdle, .pin .dc (Params.modeLevel s.params m),
      .pin .cs s.params.csSelectLevel, .write bs] := rfl
@[simp] theorem State.startTransaction_responses (s : State) (m : BusMode) (bs : List Byte) :
    (s.startTransaction m bs).responses = s.responses := rfl
@[simp] theorem State.startTransaction_hostReqs (s : State) (m : BusMode) (bs : List Byte) :
    (s.startTransaction m bs).hostReqs = s.hostReqs := rfl
@[simp] theorem State.startTransaction_busAnswers (s : State) (m : BusMode) (bs : List Byte) :
    (s.startTransaction m bs).busAnswers = s.busAnswers := rfl
@[simp] theorem State.startTransaction_cbAcks (s : State) (m : BusMode) (bs : List Byte) :
    (s.startTransaction m bs).cbAcks = s.cbAcks := rfl
@[simp] theorem State.startTransaction_holds (s : State) (m : BusMode) (bs : List Byte) :
    (s.startTransaction m bs).holds = s.holds := rfl
@[simp] theorem State.startTransaction_holdTimes (s : State) (m : BusMode) (bs : List Byte) :
    (s.startTransaction m bs).holdTimes = s.holdTimes := rfl
@[simp] theorem State.startTransaction_wire (s : State) (m : BusMode) (bs : List Byte) :
    (s.startTransaction m bs).wire = s.wire := rfl
@[simp] theorem State.startTransaction_porIn (s : State) (m : BusMode) (bs : List Byte) :
    (s.startTransaction m bs).porIn = s.porIn := rfl
@[simp] theorem State.startTransaction_draws (s : State) (m : BusMode) (bs : List Byte) :
    (s.startTransaction m bs).draws = s.draws := rfl

@[simp] theorem State.endTransaction_cfgHeight (s : State) :
    (s.endTransaction).cfgHeight = s.cfgHeight := rfl
@[simp] theorem State.endTransaction_cfgWidth (s : State) :
    (s.endTransaction).cfgWidth = s.cfgWidth := rfl
@[simp] theorem State.endTransaction_cfgCbEn (s : State) :
    (s.endTransaction).cfgCbEn = s.cfgCbEn := rfl
@[simp] theorem State.endTransaction_phase (s : State) :
    (s.endTransaction).phase = s.phase := rfl
@[simp] theorem State.endTransaction_opKind (s : State) :
    (s.endTransaction).opKind = s.opKind := rfl
@[simp] theorem State.endTransaction_initIdx (s : State) :
    (s.endTransaction).initIdx = s.initIdx := rfl
@[simp] theorem State.endTransaction_line (s : State) :
    (s.endTransaction).line = s.line := rfl
@[simp] theorem State.endTransaction_lastRc (s : State) :
    (s.endTransaction).lastRc = s.lastRc := rfl
@[simp] theorem State.endTransaction_errSticky (s : State) :
    (s.endTransaction).errSticky = s.errSticky := rfl
@[simp] theorem State.endTransaction_failPhase (s : State) :
    (s.endTransaction).failPhase = s.failPhase := rfl
@[simp] theorem State.endTransaction_res (s : State) :
    (s.endTransaction).res = s.res := rfl
@[simp] theorem State.endTransaction_cs (s : State) :
    (s.endTransaction).cs = s.params.csIdle := rfl
@[simp] theorem State.endTransaction_dc (s : State) :
    (s.endTransaction).dc = s.dc := rfl
@[simp] theorem State.endTransaction_buf (s : State) :
    (s.endTransaction).buf = s.buf := rfl
@[simp] theorem State.endTransaction_rom (s : State) :
    (s.endTransaction).rom = s.rom := rfl
@[simp] theorem State.endTransaction_wait (s : State) :
    (s.endTransaction).wait = s.wait := rfl
@[simp] theorem State.endTransaction_curReq (s : State) :
    (s.endTransaction).curReq = s.curReq := rfl
@[simp] theorem State.endTransaction_params (s : State) :
    (s.endTransaction).params = s.params := rfl
@[simp] theorem State.endTransaction_fetching (s : State) :
    (s.endTransaction).fetching = s.fetching := rfl
@[simp] theorem State.endTransaction_txBytes (s : State) :
    (s.endTransaction).txBytes = [] := rfl
@[simp] theorem State.endTransaction_trace (s : State) :
    (s.endTransaction).trace = s.trace ++ [.pin .cs s.params.csIdle] := rfl
@[simp] theorem State.endTransaction_responses (s : State) :
    (s.endTransaction).responses = s.responses := rfl
@[simp] theorem State.endTransaction_hostReqs (s : State) :
    (s.endTransaction).hostReqs = s.hostReqs := rfl
@[simp] theorem State.endTransaction_busAnswers (s : State) :
    (s.endTransaction).busAnswers = s.busAnswers := rfl
@[simp] theorem State.endTransaction_cbAcks (s : State) :
    (s.endTransaction).cbAcks = s.cbAcks := rfl
@[simp] theorem State.endTransaction_holds (s : State) :
    (s.endTransaction).holds = s.holds := rfl
@[simp] theorem State.endTransaction_holdTimes (s : State) :
    (s.endTransaction).holdTimes = s.holdTimes := rfl
@[simp] theorem State.endTransaction_wire (s : State) :
    (s.endTransaction).wire = s.wire := rfl
@[simp] theorem State.endTransaction_porIn (s : State) :
    (s.endTransaction).porIn = s.porIn := rfl
@[simp] theorem State.endTransaction_draws (s : State) :
    (s.endTransaction).draws = s.draws := rfl

@[simp] theorem State.busErrorExit_cfgHeight (s : State) :
    (s.busErrorExit).cfgHeight = s.cfgHeight := rfl
@[simp] theorem State.busErrorExit_cfgWidth (s : State) :
    (s.busErrorExit).cfgWidth = s.cfgWidth := rfl
@[simp] theorem State.busErrorExit_cfgCbEn (s : State) :
    (s.busErrorExit).cfgCbEn = s.cfgCbEn := rfl
@[simp] theorem State.busErrorExit_phase (s : State) :
    (s.busErrorExit).phase = failedPhase s.opKind := rfl
@[simp] theorem State.busErrorExit_opKind (s : State) :
    (s.busErrorExit).opKind = s.opKind := rfl
@[simp] theorem State.busErrorExit_initIdx (s : State) :
    (s.busErrorExit).initIdx = s.initIdx := rfl
@[simp] theorem State.busErrorExit_line (s : State) :
    (s.busErrorExit).line = s.line := rfl
@[simp] theorem State.busErrorExit_lastRc (s : State) :
    (s.busErrorExit).lastRc = .busError := rfl
@[simp] theorem State.busErrorExit_errSticky (s : State) :
    (s.busErrorExit).errSticky = true := rfl
@[simp] theorem State.busErrorExit_failPhase (s : State) :
    (s.busErrorExit).failPhase = s.phase.bits := rfl
@[simp] theorem State.busErrorExit_res (s : State) :
    (s.busErrorExit).res = s.res := rfl
@[simp] theorem State.busErrorExit_cs (s : State) :
    (s.busErrorExit).cs = s.cs := rfl
@[simp] theorem State.busErrorExit_dc (s : State) :
    (s.busErrorExit).dc = s.dc := rfl
@[simp] theorem State.busErrorExit_buf (s : State) :
    (s.busErrorExit).buf = s.buf := rfl
@[simp] theorem State.busErrorExit_rom (s : State) :
    (s.busErrorExit).rom = s.rom := rfl
@[simp] theorem State.busErrorExit_wait (s : State) :
    (s.busErrorExit).wait = .host := rfl
@[simp] theorem State.busErrorExit_curReq (s : State) :
    (s.busErrorExit).curReq = freeCurReq s.draws := rfl
@[simp] theorem State.busErrorExit_params (s : State) :
    (s.busErrorExit).params = s.params := rfl
@[simp] theorem State.busErrorExit_fetching (s : State) :
    (s.busErrorExit).fetching = s.fetching := rfl
@[simp] theorem State.busErrorExit_txBytes (s : State) :
    (s.busErrorExit).txBytes = [] := rfl
@[simp] theorem State.busErrorExit_trace (s : State) :
    (s.busErrorExit).trace = s.trace := rfl
@[simp] theorem State.busErrorExit_responses (s : State) :
    (s.busErrorExit).responses = s.responses ++ [errorWord .busError] := rfl
@[simp] theorem State.busErrorExit_hostReqs (s : State) :
    (s.busErrorExit).hostReqs = s.hostReqs := rfl
@[simp] theorem State.busErrorExit_busAnswers (s : State) :
    (s.busErrorExit).busAnswers = s.busAnswers := rfl
@[simp] theorem State.busErrorExit_cbAcks (s : State) :
    (s.busErrorExit).cbAcks = s.cbAcks := rfl
@[simp] theorem State.busErrorExit_holds (s : State) :
    (s.busErrorExit).holds = s.holds := rfl
@[simp] theorem State.busErrorExit_holdTimes (s : State) :
    (s.busErrorExit).holdTimes = s.holdTimes := rfl
@[simp] theorem State.busErrorExit_wire (s : State) :
    (s.busErrorExit).wire = s.wire := rfl
@[simp] theorem State.busErrorExit_porIn (s : State) :
    (s.busErrorExit).porIn = s.porIn := rfl
@[simp] theorem State.busErrorExit_draws (s : State) :
    (s.busErrorExit).draws = s.draws + 1 := rfl

@[simp] theorem State.commitConstruct_cfgHeight (s : State) (h w : Byte) (cb : Bool) :
    (s.commitConstruct h w cb).cfgHeight = h := rfl
@[simp] theorem State.commitConstruct_cfgWidth (s : State) (h w : Byte) (cb : Bool) :
    (s.commitConstruct h w cb).cfgWidth = w := rfl
@[simp] theorem State.commitConstruct_cfgCbEn (s : State) (h w : Byte) (cb : Bool) :
    (s.commitConstruct h w cb).cfgCbEn = cb := rfl
@[simp] theorem State.commitConstruct_phase (s : State) (h w : Byte) (cb : Bool) :
    (s.commitConstruct h w cb).phase = s.phase := rfl
@[simp] theorem State.commitConstruct_opKind (s : State) (h w : Byte) (cb : Bool) :
    (s.commitConstruct h w cb).opKind = .construct := rfl
@[simp] theorem State.commitConstruct_initIdx (s : State) (h w : Byte) (cb : Bool) :
    (s.commitConstruct h w cb).initIdx = 0 := rfl
@[simp] theorem State.commitConstruct_line (s : State) (h w : Byte) (cb : Bool) :
    (s.commitConstruct h w cb).line = 0 := rfl
@[simp] theorem State.commitConstruct_lastRc (s : State) (h w : Byte) (cb : Bool) :
    (s.commitConstruct h w cb).lastRc = s.lastRc := rfl
@[simp] theorem State.commitConstruct_errSticky (s : State) (h w : Byte) (cb : Bool) :
    (s.commitConstruct h w cb).errSticky = s.errSticky := rfl
@[simp] theorem State.commitConstruct_failPhase (s : State) (h w : Byte) (cb : Bool) :
    (s.commitConstruct h w cb).failPhase = s.failPhase := rfl
@[simp] theorem State.commitConstruct_res (s : State) (h w : Byte) (cb : Bool) :
    (s.commitConstruct h w cb).res = s.res := rfl
@[simp] theorem State.commitConstruct_cs (s : State) (h w : Byte) (cb : Bool) :
    (s.commitConstruct h w cb).cs = s.cs := rfl
@[simp] theorem State.commitConstruct_dc (s : State) (h w : Byte) (cb : Bool) :
    (s.commitConstruct h w cb).dc = s.dc := rfl
@[simp] theorem State.commitConstruct_buf (s : State) (h w : Byte) (cb : Bool) :
    (s.commitConstruct h w cb).buf = [] := rfl
@[simp] theorem State.commitConstruct_rom (s : State) (h w : Byte) (cb : Bool) :
    (s.commitConstruct h w cb).rom = s.rom := rfl
@[simp] theorem State.commitConstruct_wait (s : State) (h w : Byte) (cb : Bool) :
    (s.commitConstruct h w cb).wait = s.wait := rfl
@[simp] theorem State.commitConstruct_curReq (s : State) (h w : Byte) (cb : Bool) :
    (s.commitConstruct h w cb).curReq = requestWord (.construct h w cb) := rfl
@[simp] theorem State.commitConstruct_params (s : State) (h w : Byte) (cb : Bool) :
    (s.commitConstruct h w cb).params = s.params := rfl
@[simp] theorem State.commitConstruct_fetching (s : State) (h w : Byte) (cb : Bool) :
    (s.commitConstruct h w cb).fetching = s.fetching := rfl
@[simp] theorem State.commitConstruct_txBytes (s : State) (h w : Byte) (cb : Bool) :
    (s.commitConstruct h w cb).txBytes = s.txBytes := rfl
@[simp] theorem State.commitConstruct_trace (s : State) (h w : Byte) (cb : Bool) :
    (s.commitConstruct h w cb).trace = s.trace := rfl
@[simp] theorem State.commitConstruct_responses (s : State) (h w : Byte) (cb : Bool) :
    (s.commitConstruct h w cb).responses = s.responses := rfl
@[simp] theorem State.commitConstruct_hostReqs (s : State) (h w : Byte) (cb : Bool) :
    (s.commitConstruct h w cb).hostReqs = s.hostReqs := rfl
@[simp] theorem State.commitConstruct_busAnswers (s : State) (h w : Byte) (cb : Bool) :
    (s.commitConstruct h w cb).busAnswers = s.busAnswers := rfl
@[simp] theorem State.commitConstruct_cbAcks (s : State) (h w : Byte) (cb : Bool) :
    (s.commitConstruct h w cb).cbAcks = s.cbAcks := rfl
@[simp] theorem State.commitConstruct_holds (s : State) (h w : Byte) (cb : Bool) :
    (s.commitConstruct h w cb).holds = s.holds := rfl
@[simp] theorem State.commitConstruct_holdTimes (s : State) (h w : Byte) (cb : Bool) :
    (s.commitConstruct h w cb).holdTimes = s.holdTimes := rfl
@[simp] theorem State.commitConstruct_wire (s : State) (h w : Byte) (cb : Bool) :
    (s.commitConstruct h w cb).wire = s.wire := rfl
@[simp] theorem State.commitConstruct_porIn (s : State) (h w : Byte) (cb : Bool) :
    (s.commitConstruct h w cb).porIn = s.porIn := rfl
@[simp] theorem State.commitConstruct_draws (s : State) (h w : Byte) (cb : Bool) :
    (s.commitConstruct h w cb).draws = s.draws := rfl

@[simp] theorem State.commitShow_cfgHeight (s : State) :
    (s.commitShow).cfgHeight = s.cfgHeight := rfl
@[simp] theorem State.commitShow_cfgWidth (s : State) :
    (s.commitShow).cfgWidth = s.cfgWidth := rfl
@[simp] theorem State.commitShow_cfgCbEn (s : State) :
    (s.commitShow).cfgCbEn = s.cfgCbEn := rfl
@[simp] theorem State.commitShow_phase (s : State) :
    (s.commitShow).phase = s.phase := rfl
@[simp] theorem State.commitShow_opKind (s : State) :
    (s.commitShow).opKind = .showFrame := rfl
@[simp] theorem State.commitShow_initIdx (s : State) :
    (s.commitShow).initIdx = s.initIdx := rfl
@[simp] theorem State.commitShow_line (s : State) :
    (s.commitShow).line = s.line := rfl
@[simp] theorem State.commitShow_lastRc (s : State) :
    (s.commitShow).lastRc = s.lastRc := rfl
@[simp] theorem State.commitShow_errSticky (s : State) :
    (s.commitShow).errSticky = s.errSticky := rfl
@[simp] theorem State.commitShow_failPhase (s : State) :
    (s.commitShow).failPhase = s.failPhase := rfl
@[simp] theorem State.commitShow_res (s : State) :
    (s.commitShow).res = s.res := rfl
@[simp] theorem State.commitShow_cs (s : State) :
    (s.commitShow).cs = s.cs := rfl
@[simp] theorem State.commitShow_dc (s : State) :
    (s.commitShow).dc = s.dc := rfl
@[simp] theorem State.commitShow_buf (s : State) :
    (s.commitShow).buf = s.buf := rfl
@[simp] theorem State.commitShow_rom (s : State) :
    (s.commitShow).rom = s.rom := rfl
@[simp] theorem State.commitShow_wait (s : State) :
    (s.commitShow).wait = s.wait := rfl
@[simp] theorem State.commitShow_curReq (s : State) :
    (s.commitShow).curReq = requestWord .showFrame := rfl
@[simp] theorem State.commitShow_params (s : State) :
    (s.commitShow).params = s.params := rfl
@[simp] theorem State.commitShow_fetching (s : State) :
    (s.commitShow).fetching = s.fetching := rfl
@[simp] theorem State.commitShow_txBytes (s : State) :
    (s.commitShow).txBytes = s.txBytes := rfl
@[simp] theorem State.commitShow_trace (s : State) :
    (s.commitShow).trace = s.trace := rfl
@[simp] theorem State.commitShow_responses (s : State) :
    (s.commitShow).responses = s.responses := rfl
@[simp] theorem State.commitShow_hostReqs (s : State) :
    (s.commitShow).hostReqs = s.hostReqs := rfl
@[simp] theorem State.commitShow_busAnswers (s : State) :
    (s.commitShow).busAnswers = s.busAnswers := rfl
@[simp] theorem State.commitShow_cbAcks (s : State) :
    (s.commitShow).cbAcks = s.cbAcks := rfl
@[simp] theorem State.commitShow_holds (s : State) :
    (s.commitShow).holds = s.holds := rfl
@[simp] theorem State.commitShow_holdTimes (s : State) :
    (s.commitShow).holdTimes = s.holdTimes := rfl
@[simp] theorem State.commitShow_wire (s : State) :
    (s.commitShow).wire = s.wire := rfl
@[simp] theorem State.commitShow_porIn (s : State) :
    (s.commitShow).porIn = s.porIn := rfl
@[simp] theorem State.commitShow_draws (s : State) :
    (s.commitShow).draws = s.draws := rfl

@[simp] theorem State.accepted_cfgHeight (s : State) (rest : List HostWord) :
    (s.accepted rest).cfgHeight = s.cfgHeight := rfl
@[simp] theorem State.accepted_cfgWidth (s : State) (rest : List HostWord) :
    (s.accepted rest).cfgWidth = s.cfgWidth := rfl
@[simp] theorem State.accepted_cfgCbEn (s : State) (rest : List HostWord) :
    (s.accepted rest).cfgCbEn = s.cfgCbEn := rfl
@[simp] theorem State.accepted_phase (s : State) (rest : List HostWord) :
    (s.accepted rest).phase = s.phase := rfl
@[simp] theorem State.accepted_opKind (s : State) (rest : List HostWord) :
    (s.accepted rest).opKind = s.opKind := rfl
@[simp] theorem State.accepted_initIdx (s : State) (rest : List HostWord) :
    (s.accepted rest).initIdx = s.initIdx := rfl
@[simp] theorem State.accepted_line (s : State) (rest : List HostWord) :
    (s.accepted rest).line = s.line := rfl
@[simp] theorem State.accepted_lastRc (s : State) (rest : List HostWord) :
    (s.accepted rest).lastRc = s.lastRc := rfl
@[simp] theorem State.accepted_errSticky (s : State) (rest : List HostWord) :
    (s.accepted rest).errSticky = s.errSticky := rfl
@[simp] theorem State.accepted_failPhase (s : State) (rest : List HostWord) :
    (s.accepted rest).failPhase = s.failPhase := rfl
@[simp] theorem State.accepted_res (s : State) (rest : List HostWord) :
    (s.accepted rest).res = s.res := rfl
@[simp] theorem State.accepted_cs (s : State) (rest : List HostWord) :
    (s.accepted rest).cs = s.cs := rfl
@[simp] theorem State.accepted_dc (s : State) (rest : List HostWord) :
    (s.accepted rest).dc = s.dc := rfl
@[simp] theorem State.accepted_buf (s : State) (rest : List HostWord) :
    (s.accepted rest).buf = s.buf := rfl
@[simp] theorem State.accepted_rom (s : State) (rest : List HostWord) :
    (s.accepted rest).rom = s.rom := rfl
@[simp] theorem State.accepted_wait (s : State) (rest : List HostWord) :
    (s.accepted rest).wait = s.wait := rfl
@[simp] theorem State.accepted_curReq (s : State) (rest : List HostWord) :
    (s.accepted rest).curReq = s.curReq := rfl
@[simp] theorem State.accepted_params (s : State) (rest : List HostWord) :
    (s.accepted rest).params = s.params := rfl
@[simp] theorem State.accepted_fetching (s : State) (rest : List HostWord) :
    (s.accepted rest).fetching = s.fetching := rfl
@[simp] theorem State.accepted_txBytes (s : State) (rest : List HostWord) :
    (s.accepted rest).txBytes = s.txBytes := rfl
@[simp] theorem State.accepted_trace (s : State) (rest : List HostWord) :
    (s.accepted rest).trace = s.trace := rfl
@[simp] theorem State.accepted_responses (s : State) (rest : List HostWord) :
    (s.accepted rest).responses = s.responses := rfl
@[simp] theorem State.accepted_hostReqs (s : State) (rest : List HostWord) :
    (s.accepted rest).hostReqs = rest := rfl
@[simp] theorem State.accepted_busAnswers (s : State) (rest : List HostWord) :
    (s.accepted rest).busAnswers = s.busAnswers := rfl
@[simp] theorem State.accepted_cbAcks (s : State) (rest : List HostWord) :
    (s.accepted rest).cbAcks = s.cbAcks := rfl
@[simp] theorem State.accepted_holds (s : State) (rest : List HostWord) :
    (s.accepted rest).holds = s.holds := rfl
@[simp] theorem State.accepted_holdTimes (s : State) (rest : List HostWord) :
    (s.accepted rest).holdTimes = s.holdTimes := rfl
@[simp] theorem State.accepted_wire (s : State) (rest : List HostWord) :
    (s.accepted rest).wire = s.wire := rfl
@[simp] theorem State.accepted_porIn (s : State) (rest : List HostWord) :
    (s.accepted rest).porIn = s.porIn := rfl
@[simp] theorem State.accepted_draws (s : State) (rest : List HostWord) :
    (s.accepted rest).draws = s.draws := rfl

@[simp] theorem State.tookHold_cfgHeight (s : State) (extra : Nat) (rest : List Nat) :
    (s.tookHold extra rest).cfgHeight = s.cfgHeight := rfl
@[simp] theorem State.tookHold_cfgWidth (s : State) (extra : Nat) (rest : List Nat) :
    (s.tookHold extra rest).cfgWidth = s.cfgWidth := rfl
@[simp] theorem State.tookHold_cfgCbEn (s : State) (extra : Nat) (rest : List Nat) :
    (s.tookHold extra rest).cfgCbEn = s.cfgCbEn := rfl
@[simp] theorem State.tookHold_phase (s : State) (extra : Nat) (rest : List Nat) :
    (s.tookHold extra rest).phase = s.phase := rfl
@[simp] theorem State.tookHold_opKind (s : State) (extra : Nat) (rest : List Nat) :
    (s.tookHold extra rest).opKind = s.opKind := rfl
@[simp] theorem State.tookHold_initIdx (s : State) (extra : Nat) (rest : List Nat) :
    (s.tookHold extra rest).initIdx = s.initIdx := rfl
@[simp] theorem State.tookHold_line (s : State) (extra : Nat) (rest : List Nat) :
    (s.tookHold extra rest).line = s.line := rfl
@[simp] theorem State.tookHold_lastRc (s : State) (extra : Nat) (rest : List Nat) :
    (s.tookHold extra rest).lastRc = s.lastRc := rfl
@[simp] theorem State.tookHold_errSticky (s : State) (extra : Nat) (rest : List Nat) :
    (s.tookHold extra rest).errSticky = s.errSticky := rfl
@[simp] theorem State.tookHold_failPhase (s : State) (extra : Nat) (rest : List Nat) :
    (s.tookHold extra rest).failPhase = s.failPhase := rfl
@[simp] theorem State.tookHold_res (s : State) (extra : Nat) (rest : List Nat) :
    (s.tookHold extra rest).res = s.res := rfl
@[simp] theorem State.tookHold_cs (s : State) (extra : Nat) (rest : List Nat) :
    (s.tookHold extra rest).cs = s.cs := rfl
@[simp] theorem State.tookHold_dc (s : State) (extra : Nat) (rest : List Nat) :
    (s.tookHold extra rest).dc = s.dc := rfl
@[simp] theorem State.tookHold_buf (s : State) (extra : Nat) (rest : List Nat) :
    (s.tookHold extra rest).buf = s.buf := rfl
@[simp] theorem State.tookHold_rom (s : State) (extra : Nat) (rest : List Nat) :
    (s.tookHold extra rest).rom = s.rom := rfl
@[simp] theorem State.tookHold_wait (s : State) (extra : Nat) (rest : List Nat) :
    (s.tookHold extra rest).wait = s.wait := rfl
@[simp] theorem State.tookHold_curReq (s : State) (extra : Nat) (rest : List Nat) :
    (s.tookHold extra rest).curReq = s.curReq := rfl
@[simp] theorem State.tookHold_params (s : State) (extra : Nat) (rest : List Nat) :
    (s.tookHold extra rest).params = s.params := rfl
@[simp] theorem State.tookHold_fetching (s : State) (extra : Nat) (rest : List Nat) :
    (s.tookHold extra rest).fetching = s.fetching := rfl
@[simp] theorem State.tookHold_txBytes (s : State) (extra : Nat) (rest : List Nat) :
    (s.tookHold extra rest).txBytes = s.txBytes := rfl
@[simp] theorem State.tookHold_trace (s : State) (extra : Nat) (rest : List Nat) :
    (s.tookHold extra rest).trace = s.trace := rfl
@[simp] theorem State.tookHold_responses (s : State) (extra : Nat) (rest : List Nat) :
    (s.tookHold extra rest).responses = s.responses := rfl
@[simp] theorem State.tookHold_hostReqs (s : State) (extra : Nat) (rest : List Nat) :
    (s.tookHold extra rest).hostReqs = s.hostReqs := rfl
@[simp] theorem State.tookHold_busAnswers (s : State) (extra : Nat) (rest : List Nat) :
    (s.tookHold extra rest).busAnswers = s.busAnswers := rfl
@[simp] theorem State.tookHold_cbAcks (s : State) (extra : Nat) (rest : List Nat) :
    (s.tookHold extra rest).cbAcks = s.cbAcks := rfl
@[simp] theorem State.tookHold_holds (s : State) (extra : Nat) (rest : List Nat) :
    (s.tookHold extra rest).holds = rest := rfl
@[simp] theorem State.tookHold_holdTimes (s : State) (extra : Nat) (rest : List Nat) :
    (s.tookHold extra rest).holdTimes = s.holdTimes ++ [tHoldMinUs + extra] := rfl
@[simp] theorem State.tookHold_wire (s : State) (extra : Nat) (rest : List Nat) :
    (s.tookHold extra rest).wire = s.wire := rfl
@[simp] theorem State.tookHold_porIn (s : State) (extra : Nat) (rest : List Nat) :
    (s.tookHold extra rest).porIn = s.porIn := rfl
@[simp] theorem State.tookHold_draws (s : State) (extra : Nat) (rest : List Nat) :
    (s.tookHold extra rest).draws = s.draws := rfl

@[simp] theorem State.drewHold_cfgHeight (s : State) :
    (s.drewHold).cfgHeight = s.cfgHeight := rfl
@[simp] theorem State.drewHold_cfgWidth (s : State) :
    (s.drewHold).cfgWidth = s.cfgWidth := rfl
@[simp] theorem State.drewHold_cfgCbEn (s : State) :
    (s.drewHold).cfgCbEn = s.cfgCbEn := rfl
@[simp] theorem State.drewHold_phase (s : State) :
    (s.drewHold).phase = s.phase := rfl
@[simp] theorem State.drewHold_opKind (s : State) :
    (s.drewHold).opKind = s.opKind := rfl
@[simp] theorem State.drewHold_initIdx (s : State) :
    (s.drewHold).initIdx = s.initIdx := rfl
@[simp] theorem State.drewHold_line (s : State) :
    (s.drewHold).line = s.line := rfl
@[simp] theorem State.drewHold_lastRc (s : State) :
    (s.drewHold).lastRc = s.lastRc := rfl
@[simp] theorem State.drewHold_errSticky (s : State) :
    (s.drewHold).errSticky = s.errSticky := rfl
@[simp] theorem State.drewHold_failPhase (s : State) :
    (s.drewHold).failPhase = s.failPhase := rfl
@[simp] theorem State.drewHold_res (s : State) :
    (s.drewHold).res = s.res := rfl
@[simp] theorem State.drewHold_cs (s : State) :
    (s.drewHold).cs = s.cs := rfl
@[simp] theorem State.drewHold_dc (s : State) :
    (s.drewHold).dc = s.dc := rfl
@[simp] theorem State.drewHold_buf (s : State) :
    (s.drewHold).buf = s.buf := rfl
@[simp] theorem State.drewHold_rom (s : State) :
    (s.drewHold).rom = s.rom := rfl
@[simp] theorem State.drewHold_wait (s : State) :
    (s.drewHold).wait = s.wait := rfl
@[simp] theorem State.drewHold_curReq (s : State) :
    (s.drewHold).curReq = s.curReq := rfl
@[simp] theorem State.drewHold_params (s : State) :
    (s.drewHold).params = s.params := rfl
@[simp] theorem State.drewHold_fetching (s : State) :
    (s.drewHold).fetching = s.fetching := rfl
@[simp] theorem State.drewHold_txBytes (s : State) :
    (s.drewHold).txBytes = s.txBytes := rfl
@[simp] theorem State.drewHold_trace (s : State) :
    (s.drewHold).trace = s.trace := rfl
@[simp] theorem State.drewHold_responses (s : State) :
    (s.drewHold).responses = s.responses := rfl
@[simp] theorem State.drewHold_hostReqs (s : State) :
    (s.drewHold).hostReqs = s.hostReqs := rfl
@[simp] theorem State.drewHold_busAnswers (s : State) :
    (s.drewHold).busAnswers = s.busAnswers := rfl
@[simp] theorem State.drewHold_cbAcks (s : State) :
    (s.drewHold).cbAcks = s.cbAcks := rfl
@[simp] theorem State.drewHold_holds (s : State) :
    (s.drewHold).holds = s.holds := rfl
@[simp] theorem State.drewHold_holdTimes (s : State) :
    (s.drewHold).holdTimes = s.holdTimes ++ [tHoldMinUs + freeHold s.draws] := rfl
@[simp] theorem State.drewHold_wire (s : State) :
    (s.drewHold).wire = s.wire := rfl
@[simp] theorem State.drewHold_porIn (s : State) :
    (s.drewHold).porIn = s.porIn := rfl
@[simp] theorem State.drewHold_draws (s : State) :
    (s.drewHold).draws = s.draws + 1 := rfl

@[simp] theorem State.tookAck_cfgHeight (s : State) (n : Nat) :
    (s.tookAck n).cfgHeight = s.cfgHeight := rfl
@[simp] theorem State.tookAck_cfgWidth (s : State) (n : Nat) :
    (s.tookAck n).cfgWidth = s.cfgWidth := rfl
@[simp] theorem State.tookAck_cfgCbEn (s : State) (n : Nat) :
    (s.tookAck n).cfgCbEn = s.cfgCbEn := rfl
@[simp] theorem State.tookAck_phase (s : State) (n : Nat) :
    (s.tookAck n).phase = s.phase := rfl
@[simp] theorem State.tookAck_opKind (s : State) (n : Nat) :
    (s.tookAck n).opKind = s.opKind := rfl
@[simp] theorem State.tookAck_initIdx (s : State) (n : Nat) :
    (s.tookAck n).initIdx = s.initIdx := rfl
@[simp] theorem State.tookAck_line (s : State) (n : Nat) :
    (s.tookAck n).line = s.line := rfl
@[simp] theorem State.tookAck_lastRc (s : State) (n : Nat) :
    (s.tookAck n).lastRc = s.lastRc := rfl
@[simp] theorem State.tookAck_errSticky (s : State) (n : Nat) :
    (s.tookAck n).errSticky = s.errSticky := rfl
@[simp] theorem State.tookAck_failPhase (s : State) (n : Nat) :
    (s.tookAck n).failPhase = s.failPhase := rfl
@[simp] theorem State.tookAck_res (s : State) (n : Nat) :
    (s.tookAck n).res = s.res := rfl
@[simp] theorem State.tookAck_cs (s : State) (n : Nat) :
    (s.tookAck n).cs = s.cs := rfl
@[simp] theorem State.tookAck_dc (s : State) (n : Nat) :
    (s.tookAck n).dc = s.dc := rfl
@[simp] theorem State.tookAck_buf (s : State) (n : Nat) :
    (s.tookAck n).buf = s.buf := rfl
@[simp] theorem State.tookAck_rom (s : State) (n : Nat) :
    (s.tookAck n).rom = s.rom := rfl
@[simp] theorem State.tookAck_wait (s : State) (n : Nat) :
    (s.tookAck n).wait = s.wait := rfl
@[simp] theorem State.tookAck_curReq (s : State) (n : Nat) :
    (s.tookAck n).curReq = s.curReq := rfl
@[simp] theorem State.tookAck_params (s : State) (n : Nat) :
    (s.tookAck n).params = s.params := rfl
@[simp] theorem State.tookAck_fetching (s : State) (n : Nat) :
    (s.tookAck n).fetching = s.fetching := rfl
@[simp] theorem State.tookAck_txBytes (s : State) (n : Nat) :
    (s.tookAck n).txBytes = s.txBytes := rfl
@[simp] theorem State.tookAck_trace (s : State) (n : Nat) :
    (s.tookAck n).trace = s.trace := rfl
@[simp] theorem State.tookAck_responses (s : State) (n : Nat) :
    (s.tookAck n).responses = s.responses := rfl
@[simp] theorem State.tookAck_hostReqs (s : State) (n : Nat) :
    (s.tookAck n).hostReqs = s.hostReqs := rfl
@[simp] theorem State.tookAck_busAnswers (s : State) (n : Nat) :
    (s.tookAck n).busAnswers = s.busAnswers := rfl
@[simp] theorem State.tookAck_cbAcks (s : State) (n : Nat) :
    (s.tookAck n).cbAcks = n := rfl
@[simp] theorem State.tookAck_holds (s : State) (n : Nat) :
    (s.tookAck n).holds = s.holds := rfl
@[simp] theorem State.tookAck_holdTimes (s : State) (n : Nat) :
    (s.tookAck n).holdTimes = s.holdTimes := rfl
@[simp] theorem State.tookAck_wire (s : State) (n : Nat) :
    (s.tookAck n).wire = s.wire := rfl
@[simp] theorem State.tookAck_porIn (s : State) (n : Nat) :
    (s.tookAck n).porIn = s.porIn := rfl
@[simp] theorem State.tookAck_draws (s : State) (n : Nat) :
    (s.tookAck n).draws = s.draws := rfl

@[simp] theorem State.tookAnswer_cfgHeight (s : State) (rest : List BusAnswer) (n : Nat) :
    (s.tookAnswer rest n).cfgHeight = s.cfgHeight := rfl
@[simp] theorem State.tookAnswer_cfgWidth (s : State) (rest : List BusAnswer) (n : Nat) :
    (s.tookAnswer rest n).cfgWidth = s.cfgWidth := rfl
@[simp] theorem State.tookAnswer_cfgCbEn (s : State) (rest : List BusAnswer) (n : Nat) :
    (s.tookAnswer rest n).cfgCbEn = s.cfgCbEn := rfl
@[simp] theorem State.tookAnswer_phase (s : State) (rest : List BusAnswer) (n : Nat) :
    (s.tookAnswer rest n).phase = s.phase := rfl
@[simp] theorem State.tookAnswer_opKind (s : State) (rest : List BusAnswer) (n : Nat) :
    (s.tookAnswer rest n).opKind = s.opKind := rfl
@[simp] theorem State.tookAnswer_initIdx (s : State) (rest : List BusAnswer) (n : Nat) :
    (s.tookAnswer rest n).initIdx = s.initIdx := rfl
@[simp] theorem State.tookAnswer_line (s : State) (rest : List BusAnswer) (n : Nat) :
    (s.tookAnswer rest n).line = s.line := rfl
@[simp] theorem State.tookAnswer_lastRc (s : State) (rest : List BusAnswer) (n : Nat) :
    (s.tookAnswer rest n).lastRc = s.lastRc := rfl
@[simp] theorem State.tookAnswer_errSticky (s : State) (rest : List BusAnswer) (n : Nat) :
    (s.tookAnswer rest n).errSticky = s.errSticky := rfl
@[simp] theorem State.tookAnswer_failPhase (s : State) (rest : List BusAnswer) (n : Nat) :
    (s.tookAnswer rest n).failPhase = s.failPhase := rfl
@[simp] theorem State.tookAnswer_res (s : State) (rest : List BusAnswer) (n : Nat) :
    (s.tookAnswer rest n).res = s.res := rfl
@[simp] theorem State.tookAnswer_cs (s : State) (rest : List BusAnswer) (n : Nat) :
    (s.tookAnswer rest n).cs = s.cs := rfl
@[simp] theorem State.tookAnswer_dc (s : State) (rest : List BusAnswer) (n : Nat) :
    (s.tookAnswer rest n).dc = s.dc := rfl
@[simp] theorem State.tookAnswer_buf (s : State) (rest : List BusAnswer) (n : Nat) :
    (s.tookAnswer rest n).buf = s.buf := rfl
@[simp] theorem State.tookAnswer_rom (s : State) (rest : List BusAnswer) (n : Nat) :
    (s.tookAnswer rest n).rom = s.rom := rfl
@[simp] theorem State.tookAnswer_wait (s : State) (rest : List BusAnswer) (n : Nat) :
    (s.tookAnswer rest n).wait = s.wait := rfl
@[simp] theorem State.tookAnswer_curReq (s : State) (rest : List BusAnswer) (n : Nat) :
    (s.tookAnswer rest n).curReq = s.curReq := rfl
@[simp] theorem State.tookAnswer_params (s : State) (rest : List BusAnswer) (n : Nat) :
    (s.tookAnswer rest n).params = s.params := rfl
@[simp] theorem State.tookAnswer_fetching (s : State) (rest : List BusAnswer) (n : Nat) :
    (s.tookAnswer rest n).fetching = s.fetching := rfl
@[simp] theorem State.tookAnswer_txBytes (s : State) (rest : List BusAnswer) (n : Nat) :
    (s.tookAnswer rest n).txBytes = s.txBytes := rfl
@[simp] theorem State.tookAnswer_trace (s : State) (rest : List BusAnswer) (n : Nat) :
    (s.tookAnswer rest n).trace = s.trace := rfl
@[simp] theorem State.tookAnswer_responses (s : State) (rest : List BusAnswer) (n : Nat) :
    (s.tookAnswer rest n).responses = s.responses := rfl
@[simp] theorem State.tookAnswer_hostReqs (s : State) (rest : List BusAnswer) (n : Nat) :
    (s.tookAnswer rest n).hostReqs = s.hostReqs := rfl
@[simp] theorem State.tookAnswer_busAnswers (s : State) (rest : List BusAnswer) (n : Nat) :
    (s.tookAnswer rest n).busAnswers = rest := rfl
@[simp] theorem State.tookAnswer_cbAcks (s : State) (rest : List BusAnswer) (n : Nat) :
    (s.tookAnswer rest n).cbAcks = s.cbAcks := rfl
@[simp] theorem State.tookAnswer_holds (s : State) (rest : List BusAnswer) (n : Nat) :
    (s.tookAnswer rest n).holds = s.holds := rfl
@[simp] theorem State.tookAnswer_holdTimes (s : State) (rest : List BusAnswer) (n : Nat) :
    (s.tookAnswer rest n).holdTimes = s.holdTimes := rfl
@[simp] theorem State.tookAnswer_wire (s : State) (rest : List BusAnswer) (n : Nat) :
    (s.tookAnswer rest n).wire = s.wire ++ s.txBytes.take n := rfl
@[simp] theorem State.tookAnswer_porIn (s : State) (rest : List BusAnswer) (n : Nat) :
    (s.tookAnswer rest n).porIn = s.porIn := rfl
@[simp] theorem State.tookAnswer_draws (s : State) (rest : List BusAnswer) (n : Nat) :
    (s.tookAnswer rest n).draws = s.draws := rfl

@[simp] theorem State.advanceInit_cfgHeight (s : State) (n : Nat) :
    (s.advanceInit n).cfgHeight = s.cfgHeight := rfl
@[simp] theorem State.advanceInit_cfgWidth (s : State) (n : Nat) :
    (s.advanceInit n).cfgWidth = s.cfgWidth := rfl
@[simp] theorem State.advanceInit_cfgCbEn (s : State) (n : Nat) :
    (s.advanceInit n).cfgCbEn = s.cfgCbEn := rfl
@[simp] theorem State.advanceInit_phase (s : State) (n : Nat) :
    (s.advanceInit n).phase = s.phase := rfl
@[simp] theorem State.advanceInit_opKind (s : State) (n : Nat) :
    (s.advanceInit n).opKind = s.opKind := rfl
@[simp] theorem State.advanceInit_initIdx (s : State) (n : Nat) :
    (s.advanceInit n).initIdx = s.initIdx + BitVec.ofNat 6 n := rfl
@[simp] theorem State.advanceInit_line (s : State) (n : Nat) :
    (s.advanceInit n).line = s.line := rfl
@[simp] theorem State.advanceInit_lastRc (s : State) (n : Nat) :
    (s.advanceInit n).lastRc = s.lastRc := rfl
@[simp] theorem State.advanceInit_errSticky (s : State) (n : Nat) :
    (s.advanceInit n).errSticky = s.errSticky := rfl
@[simp] theorem State.advanceInit_failPhase (s : State) (n : Nat) :
    (s.advanceInit n).failPhase = s.failPhase := rfl
@[simp] theorem State.advanceInit_res (s : State) (n : Nat) :
    (s.advanceInit n).res = s.res := rfl
@[simp] theorem State.advanceInit_cs (s : State) (n : Nat) :
    (s.advanceInit n).cs = s.cs := rfl
@[simp] theorem State.advanceInit_dc (s : State) (n : Nat) :
    (s.advanceInit n).dc = s.dc := rfl
@[simp] theorem State.advanceInit_buf (s : State) (n : Nat) :
    (s.advanceInit n).buf = s.buf := rfl
@[simp] theorem State.advanceInit_rom (s : State) (n : Nat) :
    (s.advanceInit n).rom = s.rom := rfl
@[simp] theorem State.advanceInit_wait (s : State) (n : Nat) :
    (s.advanceInit n).wait = s.wait := rfl
@[simp] theorem State.advanceInit_curReq (s : State) (n : Nat) :
    (s.advanceInit n).curReq = s.curReq := rfl
@[simp] theorem State.advanceInit_params (s : State) (n : Nat) :
    (s.advanceInit n).params = s.params := rfl
@[simp] theorem State.advanceInit_fetching (s : State) (n : Nat) :
    (s.advanceInit n).fetching = s.fetching := rfl
@[simp] theorem State.advanceInit_txBytes (s : State) (n : Nat) :
    (s.advanceInit n).txBytes = s.txBytes := rfl
@[simp] theorem State.advanceInit_trace (s : State) (n : Nat) :
    (s.advanceInit n).trace = s.trace := rfl
@[simp] theorem State.advanceInit_responses (s : State) (n : Nat) :
    (s.advanceInit n).responses = s.responses := rfl
@[simp] theorem State.advanceInit_hostReqs (s : State) (n : Nat) :
    (s.advanceInit n).hostReqs = s.hostReqs := rfl
@[simp] theorem State.advanceInit_busAnswers (s : State) (n : Nat) :
    (s.advanceInit n).busAnswers = s.busAnswers := rfl
@[simp] theorem State.advanceInit_cbAcks (s : State) (n : Nat) :
    (s.advanceInit n).cbAcks = s.cbAcks := rfl
@[simp] theorem State.advanceInit_holds (s : State) (n : Nat) :
    (s.advanceInit n).holds = s.holds := rfl
@[simp] theorem State.advanceInit_holdTimes (s : State) (n : Nat) :
    (s.advanceInit n).holdTimes = s.holdTimes := rfl
@[simp] theorem State.advanceInit_wire (s : State) (n : Nat) :
    (s.advanceInit n).wire = s.wire := rfl
@[simp] theorem State.advanceInit_porIn (s : State) (n : Nat) :
    (s.advanceInit n).porIn = s.porIn := rfl
@[simp] theorem State.advanceInit_draws (s : State) (n : Nat) :
    (s.advanceInit n).draws = s.draws := rfl

@[simp] theorem State.enterLines_cfgHeight (s : State) :
    (s.enterLines).cfgHeight = s.cfgHeight := rfl
@[simp] theorem State.enterLines_cfgWidth (s : State) :
    (s.enterLines).cfgWidth = s.cfgWidth := rfl
@[simp] theorem State.enterLines_cfgCbEn (s : State) :
    (s.enterLines).cfgCbEn = s.cfgCbEn := rfl
@[simp] theorem State.enterLines_phase (s : State) :
    (s.enterLines).phase = .showLines := rfl
@[simp] theorem State.enterLines_opKind (s : State) :
    (s.enterLines).opKind = s.opKind := rfl
@[simp] theorem State.enterLines_initIdx (s : State) :
    (s.enterLines).initIdx = s.initIdx := rfl
@[simp] theorem State.enterLines_line (s : State) :
    (s.enterLines).line = 0 := rfl
@[simp] theorem State.enterLines_lastRc (s : State) :
    (s.enterLines).lastRc = s.lastRc := rfl
@[simp] theorem State.enterLines_errSticky (s : State) :
    (s.enterLines).errSticky = s.errSticky := rfl
@[simp] theorem State.enterLines_failPhase (s : State) :
    (s.enterLines).failPhase = s.failPhase := rfl
@[simp] theorem State.enterLines_res (s : State) :
    (s.enterLines).res = s.res := rfl
@[simp] theorem State.enterLines_cs (s : State) :
    (s.enterLines).cs = s.cs := rfl
@[simp] theorem State.enterLines_dc (s : State) :
    (s.enterLines).dc = s.dc := rfl
@[simp] theorem State.enterLines_buf (s : State) :
    (s.enterLines).buf = s.buf := rfl
@[simp] theorem State.enterLines_rom (s : State) :
    (s.enterLines).rom = s.rom := rfl
@[simp] theorem State.enterLines_wait (s : State) :
    (s.enterLines).wait = s.wait := rfl
@[simp] theorem State.enterLines_curReq (s : State) :
    (s.enterLines).curReq = s.curReq := rfl
@[simp] theorem State.enterLines_params (s : State) :
    (s.enterLines).params = s.params := rfl
@[simp] theorem State.enterLines_fetching (s : State) :
    (s.enterLines).fetching = s.fetching := rfl
@[simp] theorem State.enterLines_txBytes (s : State) :
    (s.enterLines).txBytes = s.txBytes := rfl
@[simp] theorem State.enterLines_trace (s : State) :
    (s.enterLines).trace = s.trace := rfl
@[simp] theorem State.enterLines_responses (s : State) :
    (s.enterLines).responses = s.responses := rfl
@[simp] theorem State.enterLines_hostReqs (s : State) :
    (s.enterLines).hostReqs = s.hostReqs := rfl
@[simp] theorem State.enterLines_busAnswers (s : State) :
    (s.enterLines).busAnswers = s.busAnswers := rfl
@[simp] theorem State.enterLines_cbAcks (s : State) :
    (s.enterLines).cbAcks = s.cbAcks := rfl
@[simp] theorem State.enterLines_holds (s : State) :
    (s.enterLines).holds = s.holds := rfl
@[simp] theorem State.enterLines_holdTimes (s : State) :
    (s.enterLines).holdTimes = s.holdTimes := rfl
@[simp] theorem State.enterLines_wire (s : State) :
    (s.enterLines).wire = s.wire := rfl
@[simp] theorem State.enterLines_porIn (s : State) :
    (s.enterLines).porIn = s.porIn := rfl
@[simp] theorem State.enterLines_draws (s : State) :
    (s.enterLines).draws = s.draws := rfl

@[simp] theorem State.advanceLine_cfgHeight (s : State) :
    (s.advanceLine).cfgHeight = s.cfgHeight := rfl
@[simp] theorem State.advanceLine_cfgWidth (s : State) :
    (s.advanceLine).cfgWidth = s.cfgWidth := rfl
@[simp] theorem State.advanceLine_cfgCbEn (s : State) :
    (s.advanceLine).cfgCbEn = s.cfgCbEn := rfl
@[simp] theorem State.advanceLine_phase (s : State) :
    (s.advanceLine).phase = s.phase := rfl
@[simp] theorem State.advanceLine_opKind (s : State) :
    (s.advanceLine).opKind = s.opKind := rfl
@[simp] theorem State.advanceLine_initIdx (s : State) :
    (s.advanceLine).initIdx = s.initIdx := rfl
@[simp] theorem State.advanceLine_line (s : State) :
    (s.advanceLine).line = s.line + 1 := rfl
@[simp] theorem State.advanceLine_lastRc (s : State) :
    (s.advanceLine).lastRc = s.lastRc := rfl
@[simp] theorem State.advanceLine_errSticky (s : State) :
    (s.advanceLine).errSticky = s.errSticky := rfl
@[simp] theorem State.advanceLine_failPhase (s : State) :
    (s.advanceLine).failPhase = s.failPhase := rfl
@[simp] theorem State.advanceLine_res (s : State) :
    (s.advanceLine).res = s.res := rfl
@[simp] theorem State.advanceLine_cs (s : State) :
    (s.advanceLine).cs = s.cs := rfl
@[simp] theorem State.advanceLine_dc (s : State) :
    (s.advanceLine).dc = s.dc := rfl
@[simp] theorem State.advanceLine_buf (s : State) :
    (s.advanceLine).buf = s.buf := rfl
@[simp] theorem State.advanceLine_rom (s : State) :
    (s.advanceLine).rom = s.rom := rfl
@[simp] theorem State.advanceLine_wait (s : State) :
    (s.advanceLine).wait = s.wait := rfl
@[simp] theorem State.advanceLine_curReq (s : State) :
    (s.advanceLine).curReq = s.curReq := rfl
@[simp] theorem State.advanceLine_params (s : State) :
    (s.advanceLine).params = s.params := rfl
@[simp] theorem State.advanceLine_fetching (s : State) :
    (s.advanceLine).fetching = s.fetching := rfl
@[simp] theorem State.advanceLine_txBytes (s : State) :
    (s.advanceLine).txBytes = s.txBytes := rfl
@[simp] theorem State.advanceLine_trace (s : State) :
    (s.advanceLine).trace = s.trace := rfl
@[simp] theorem State.advanceLine_responses (s : State) :
    (s.advanceLine).responses = s.responses := rfl
@[simp] theorem State.advanceLine_hostReqs (s : State) :
    (s.advanceLine).hostReqs = s.hostReqs := rfl
@[simp] theorem State.advanceLine_busAnswers (s : State) :
    (s.advanceLine).busAnswers = s.busAnswers := rfl
@[simp] theorem State.advanceLine_cbAcks (s : State) :
    (s.advanceLine).cbAcks = s.cbAcks := rfl
@[simp] theorem State.advanceLine_holds (s : State) :
    (s.advanceLine).holds = s.holds := rfl
@[simp] theorem State.advanceLine_holdTimes (s : State) :
    (s.advanceLine).holdTimes = s.holdTimes := rfl
@[simp] theorem State.advanceLine_wire (s : State) :
    (s.advanceLine).wire = s.wire := rfl
@[simp] theorem State.advanceLine_porIn (s : State) :
    (s.advanceLine).porIn = s.porIn := rfl
@[simp] theorem State.advanceLine_draws (s : State) :
    (s.advanceLine).draws = s.draws := rfl

@[simp] theorem State.finish_cfgHeight (s : State) :
    (s.finish).cfgHeight = s.cfgHeight := rfl
@[simp] theorem State.finish_cfgWidth (s : State) :
    (s.finish).cfgWidth = s.cfgWidth := rfl
@[simp] theorem State.finish_cfgCbEn (s : State) :
    (s.finish).cfgCbEn = s.cfgCbEn := rfl
@[simp] theorem State.finish_phase (s : State) :
    (s.finish).phase = .ready := rfl
@[simp] theorem State.finish_opKind (s : State) :
    (s.finish).opKind = s.opKind := rfl
@[simp] theorem State.finish_initIdx (s : State) :
    (s.finish).initIdx = s.initIdx := rfl
@[simp] theorem State.finish_line (s : State) :
    (s.finish).line = s.line := rfl
@[simp] theorem State.finish_lastRc (s : State) :
    (s.finish).lastRc = .ok := rfl
@[simp] theorem State.finish_errSticky (s : State) :
    (s.finish).errSticky = s.errSticky := rfl
@[simp] theorem State.finish_failPhase (s : State) :
    (s.finish).failPhase = s.failPhase := rfl
@[simp] theorem State.finish_res (s : State) :
    (s.finish).res = s.res := rfl
@[simp] theorem State.finish_cs (s : State) :
    (s.finish).cs = s.cs := rfl
@[simp] theorem State.finish_dc (s : State) :
    (s.finish).dc = s.dc := rfl
@[simp] theorem State.finish_buf (s : State) :
    (s.finish).buf = s.buf := rfl
@[simp] theorem State.finish_rom (s : State) :
    (s.finish).rom = s.rom := rfl
@[simp] theorem State.finish_wait (s : State) :
    (s.finish).wait = .host := rfl
@[simp] theorem State.finish_curReq (s : State) :
    (s.finish).curReq = freeCurReq s.draws := rfl
@[simp] theorem State.finish_params (s : State) :
    (s.finish).params = s.params := rfl
@[simp] theorem State.finish_fetching (s : State) :
    (s.finish).fetching = s.fetching := rfl
@[simp] theorem State.finish_txBytes (s : State) :
    (s.finish).txBytes = s.txBytes := rfl
@[simp] theorem State.finish_trace (s : State) :
    (s.finish).trace = s.trace := rfl
@[simp] theorem State.finish_responses (s : State) :
    (s.finish).responses = s.responses ++ [okWord 0 false 0] := rfl
@[simp] theorem State.finish_hostReqs (s : State) :
    (s.finish).hostReqs = s.hostReqs := rfl
@[simp] theorem State.finish_busAnswers (s : State) :
    (s.finish).busAnswers = s.busAnswers := rfl
@[simp] theorem State.finish_cbAcks (s : State) :
    (s.finish).cbAcks = s.cbAcks := rfl
@[simp] theorem State.finish_holds (s : State) :
    (s.finish).holds = s.holds := rfl
@[simp] theorem State.finish_holdTimes (s : State) :
    (s.finish).holdTimes = s.holdTimes := rfl
@[simp] theorem State.finish_wire (s : State) :
    (s.finish).wire = s.wire := rfl
@[simp] theorem State.finish_porIn (s : State) :
    (s.finish).porIn = s.porIn := rfl
@[simp] theorem State.finish_draws (s : State) :
    (s.finish).draws = s.draws + 1 := rfl

end Sys2Proof.Machine
end

