-- ==== Sys2Proof/Laws/Memory.lean ====
section
/-! SUPPORT. The laws of the pixel buffer: a read after a write, and that every memory operation keeps the canonical form. -/

namespace Sys2Proof.Machine

/-- An address below every listed one reads as an unlisted address. -/
theorem Memory.read_eq_unlisted_of_lt {m : Memory} {a : Nat} (h : ∀ c ∈ m, a < c.1) : m.read a = unlistedByte := by
  induction m with
  | nil => rfl
  | cons c rest ih =>
    have hc : a < c.1 := h c (by simp)
    rw [Memory.read, if_neg (by omega)]
    exact ih fun d hd => h d (by simp [hd])

/-- In canonical form a read of the byte just written gives that byte. -/
theorem Memory.read_write_same {m : Memory} (hm : Memory.wf m) (a : Nat) (v : Byte) : (m.write a v).read a = v := by
  induction m with
  | nil => by_cases hv : v = unlistedByte <;> simp [Memory.write, Memory.read, hv]
  | cons c rest ih =>
    obtain ⟨k, x⟩ := c
    have hrest : Memory.wf rest := ⟨hm.1.of_cons, fun d hd => hm.2 d (by simp [hd])⟩
    have hk : ∀ d ∈ rest, k < d.1 := fun d hd => (List.pairwise_cons.1 hm.1).1 d hd
    unfold Memory.write
    split
    · split
      · next hlt hv =>
        rw [hv]
        exact Memory.read_eq_unlisted_of_lt fun d hd => by
          rcases List.mem_cons.1 hd with rfl | hd
          · exact hlt
          · exact hlt.trans (hk d hd)
      · simp [Memory.read]
    · split
      · next heq =>
        subst heq
        split
        · next hv => rw [hv]; exact Memory.read_eq_unlisted_of_lt hk
        · simp [Memory.read]
      · next hne => rw [Memory.read, if_neg (Ne.symm hne)]; exact ih hrest

/-- A read of any other byte gives what it gave before, in any form of memory. -/
theorem Memory.read_write_other (m : Memory) {a b : Nat} (h : b ≠ a) (v : Byte) : (m.write a v).read b = m.read b := by
  induction m with
  | nil => by_cases hv : v = unlistedByte <;> simp [Memory.write, Memory.read, hv, Ne.symm h]
  | cons c rest ih =>
    obtain ⟨k, x⟩ := c
    unfold Memory.write
    split
    · split
      · rfl
      · simp [Memory.read, Ne.symm h]
    · split
      · next heq =>
        subst heq
        split <;> simp [Memory.read, Ne.symm h]
      · simp [Memory.read, ih]

/-- Every address a write leaves listed was listed before, or is the one written. -/
theorem Memory.mem_write {m : Memory} {a : Nat} {v : Byte} {c : Host.Cell} (hc : c ∈ m.write a v) : c ∈ m ∨ c = (a, v) := by
  induction m with
  | nil =>
    unfold Memory.write at hc
    split at hc <;> simp_all
  | cons d rest ih =>
    obtain ⟨k, x⟩ := d
    unfold Memory.write at hc
    split at hc
    · split at hc
      · exact .inl hc
      · rcases List.mem_cons.1 hc with h | h
        · exact .inr h
        · exact .inl h
    · split at hc
      · split at hc
        · exact .inl (List.mem_cons_of_mem _ hc)
        · rcases List.mem_cons.1 hc with h | h
          · exact .inr h
          · exact .inl (List.mem_cons_of_mem _ h)
      · rcases List.mem_cons.1 hc with h | h
        · exact .inl (by simp [h])
        · exact (ih h).imp (List.mem_cons_of_mem _) id

/-- A write keeps the canonical form. -/
theorem Memory.write_wf {m : Memory} (hm : Memory.wf m) (a : Nat) (v : Byte) : Memory.wf (m.write a v) := by
  induction m with
  | nil => by_cases hv : v = unlistedByte <;> simp [Memory.write, Memory.wf, hv]
  | cons c rest ih =>
    obtain ⟨k, x⟩ := c
    have hk : ∀ d ∈ rest, k < d.1 := fun d hd => (List.pairwise_cons.1 hm.1).1 d hd
    have hrest : Memory.wf rest := ⟨hm.1.of_cons, fun d hd => hm.2 d (by simp [hd])⟩
    have hx : x ≠ unlistedByte := hm.2 (k, x) (by simp)
    unfold Memory.write
    split
    · next hlt =>
      split
      · exact hm
      · next hv =>
        refine ⟨List.pairwise_cons.2 ⟨fun d hd => ?_, hm.1⟩, fun d hd => ?_⟩
        · rcases List.mem_cons.1 hd with rfl | hd
          · exact hlt
          · exact hlt.trans (hk d hd)
        · rcases List.mem_cons.1 hd with rfl | hd
          · exact hv
          · exact hm.2 d hd
    · split
      · next heq =>
        subst heq
        split
        · exact hrest
        · next hv =>
          refine ⟨List.pairwise_cons.2 ⟨hk, hrest.1⟩, fun d hd => ?_⟩
          rcases List.mem_cons.1 hd with rfl | hd
          · exact hv
          · exact hrest.2 d hd
      · refine ⟨List.pairwise_cons.2 ⟨fun d hd => ?_, (ih hrest).1⟩, fun d hd => ?_⟩
        · rcases Memory.mem_write hd with hd | rfl
          · exact hk d hd
          · show k < a; omega
        · rcases List.mem_cons.1 hd with rfl | hd
          · exact hx
          · exact (ih hrest).2 d hd

/-- A write inside a bound keeps every listed address inside it. -/
theorem Memory.write_bounded {m : Memory} {n a : Nat} (hm : ∀ c ∈ m, c.1 < n) (ha : a < n) (v : Byte) :
    ∀ c ∈ m.write a v, c.1 < n := by
  intro c hc
  rcases Memory.mem_write hc with h | rfl
  · exact hm c h
  · exact ha

/-- The zero fill is in canonical form. -/
theorem Memory.wf_nil : Memory.wf [] := by simp [Memory.wf]

/-- Every byte of the zero fill reads 0x00 (R201). -/
@[simp] theorem Memory.read_nil (a : Nat) : Memory.read [] a = 0x00 := rfl

/-- A run of n bytes has n bytes. -/
@[simp] theorem Memory.readRun_length (m : Memory) (a n : Nat) : (m.readRun a n).length = n := by simp [Memory.readRun]

end Sys2Proof.Machine
end

