-- ==== Sys2Proof/Laws/Ops.lean ====
section
/-! SUPPORT. What each shared operation can do, said once: the gates of R702, the streamer's act on a command, the start of ShowBody, and which kind of instruction each decoder answers. -/

namespace Sys2Proof.Machine

/-- BUSY = 0 exactly in UNCONF and READY (R106, R107). -/
theorem State.busy_eq_false_iff (s : State) : s.busy = false ↔ s.phase = .unconf ∨ s.phase = .ready := by
  unfold State.busy
  cases s.phase <;> decide

/-- BUSY depends on PHASE alone (R107). -/
theorem State.busy_congr {s t : State} (h : s.phase = t.phase) : s.busy = t.busy := by
  unfold State.busy; rw [h]

theorem State.whenIdle_of_idle {s : State} (h : s.busy = false) (f : State → State) : s.whenIdle f = f s := by
  simp [State.whenIdle, h]

theorem State.whenIdle_of_busy {s : State} (h : s.busy = true) (f : State → State) : s.whenIdle f = s := by
  simp [State.whenIdle, h]

theorem State.whenReady_of_ready {s : State} (h : s.phase = .ready) (f : State → State) : s.whenReady f = f s := by
  rw [State.whenReady, State.whenIdle_of_idle (s.busy_eq_false_iff.2 (.inr h)), if_pos h]

theorem State.whenReady_of_unconf {s : State} (h : s.phase = .unconf) (f : State → State) :
    s.whenReady f = s.raise .stateError := by
  rw [State.whenReady, State.whenIdle_of_idle (s.busy_eq_false_iff.2 (.inl h)), if_neg (by simp [h])]

theorem State.whenReady_of_busy {s : State} (h : s.busy = true) (f : State → State) : s.whenReady f = s :=
  State.whenIdle_of_busy h _

theorem State.whenInBuf_inside {s : State} {a : BufAddr} (h : a.toNat < s.bufBytes) (f : State → State) :
    s.whenInBuf a f = f s := by
  rw [State.whenInBuf, if_neg (by omega)]

theorem State.whenInBuf_beyond {s : State} {a : BufAddr} (h : s.bufBytes ≤ a.toNat) (f : State → State) :
    s.whenInBuf a f = s.raise .addressRange := by
  rw [State.whenInBuf, if_pos h]

/-- A request legal in READY only either holds, is a StateError, or runs in READY (R702). -/
theorem State.whenReady_cases (s : State) (f : State → State) :
    (s.busy = true ∧ s.whenReady f = s) ∨ (s.phase = .unconf ∧ s.whenReady f = s.raise .stateError)
      ∨ (s.phase = .ready ∧ s.whenReady f = f s) := by
  cases hb : s.busy
  · rcases s.busy_eq_false_iff.1 hb with h | h
    · exact .inr (.inl ⟨h, State.whenReady_of_unconf h f⟩)
    · exact .inr (.inr ⟨h, State.whenReady_of_ready h f⟩)
  · exact .inl ⟨rfl, State.whenReady_of_busy hb f⟩

/-- The streamer's act on one init command: nothing outside INIT, the transaction, or more bytes gathered. -/
theorem State.sendInitCommand_cases (s : State) (bytes : List Byte) :
    (¬ (s.phase = .init ∧ s.fetching = true) ∧ s.sendInitCommand bytes = s)
      ∨ (s.phase = .init ∧ s.fetching = true
        ∧ (s.params.initFraming = .discrete ∨ initLen ≤ s.initIdx.toNat + (s.txBytes ++ bytes).length)
        ∧ s.sendInitCommand bytes = s.startTransaction .cmd (s.txBytes ++ bytes))
      ∨ (s.phase = .init ∧ s.fetching = true ∧ s.params.initFraming = .blob
        ∧ s.initIdx.toNat + (s.txBytes ++ bytes).length < initLen
        ∧ s.sendInitCommand bytes = s.gather bytes) := by
  unfold State.sendInitCommand
  by_cases h : s.phase = .init ∧ s.fetching = true
  · rw [if_pos h]
    by_cases h' : s.params.initFraming = .discrete ∨ initLen ≤ s.initIdx.toNat + (s.txBytes ++ bytes).length
    · rw [if_pos h']; exact .inr (.inl ⟨h.1, h.2, h', rfl⟩)
    · rw [if_neg h']
      obtain ⟨h₁, h₂⟩ := not_or.1 h'
      refine .inr (.inr ⟨h.1, h.2, ?_, by omega, rfl⟩)
      cases hf : s.params.initFraming
      · rfl
      · exact absurd hf h₁
  · rw [if_neg h]; exact .inl ⟨h, rfl⟩

theorem State.showBody_of_callback {s : State} (h : s.cfgCbEn = true) :
    s.showBody = (s.goTo .cbShow).startCallback := by simp [State.showBody, h]

theorem State.showBody_of_no_callback {s : State} (h : s.cfgCbEn = false) : s.showBody = s.enterFetch .showCmd := by
  simp [State.showBody, h]

/-- The request decoder answers host requests only. -/
theorem isRequest_of_decodeRequest {w : HostWord} {i : Instr} (h : decodeRequest w = .ok i) : i.isRequest = true := by
  unfold decodeRequest at h
  repeat' split at h
  all_goals first | (injection h with h; subst h; rfl) | injection h

/-- An instruction that the init streamer sends. -/
def isInitCommand (i : Instr) : Prop := i.isRequest = false ∧ i ≠ .enableDataWrite

theorem oneArgument_initCommand {k : Byte → Instr} (hk : ∀ x, isInitCommand (k x)) {rest : List Byte} {i : Instr}
    (h : oneArgument k rest = .ok i) : isInitCommand i := by
  cases rest with
  | nil => injection h
  | cons x _ => injection h with h; exact h ▸ hk x

theorem threeArguments_initCommand {k : Byte → Byte → Byte → Instr} (hk : ∀ x y z, isInitCommand (k x y z))
    {rest : List Byte} {i : Instr} (h : threeArguments k rest = .ok i) : isInitCommand i := by
  match rest, h with
  | x :: y :: z :: _, h => injection h with h; exact h ▸ hk x y z
  | [], h => injection h
  | [_], h => injection h
  | [_, _], h => injection h

theorem lutCommand_initCommand {rest : List Byte} {i : Instr} (h : lutCommand rest = .ok i) : isInitCommand i := by
  unfold lutCommand at h
  split at h
  · injection h with h; exact h ▸ ⟨rfl, nofun⟩
  · injection h

/-- A row found in a table by its key stands in the table. -/
theorem mem_of_lookup {β : Type} {op : Byte} {r : β} : ∀ {l : List (Byte × β)}, l.lookup op = some r → (op, r) ∈ l
  | [], h => by injection h
  | (k, x) :: l, h => by
    rw [List.lookup_cons] at h
    split at h
    · next heq => injection h with h; simp_all
    · exact List.mem_cons_of_mem _ (mem_of_lookup h)

/-- Every row of the command table reads init commands only. -/
theorem commandTable_initCommand :
    ∀ r ∈ commandTable, ∀ rest i, r.2 rest = .ok i → isInitCommand i := by
  have hok : ∀ {j : Instr}, isInitCommand j → ∀ {i : Instr}, (.ok j : Except DecodeError Instr) = .ok i → isInitCommand i :=
    fun hj _ h => by injection h with h; exact h ▸ hj
  intro r hr rest i h
  simp only [commandTable, List.mem_cons, List.not_mem_nil, or_false] at hr
  rcases hr with rfl | rfl | rfl | rfl | rfl | rfl | rfl | rfl | rfl | rfl | rfl | rfl | rfl | rfl | rfl | rfl
  all_goals
    dsimp only at h
    first
    | exact hok (by exact ⟨rfl, nofun⟩) h
    | exact oneArgument_initCommand (fun _ => by exact ⟨rfl, nofun⟩) h
    | exact threeArguments_initCommand (fun _ _ _ => by exact ⟨rfl, nofun⟩) h
    | exact lutCommand_initCommand h

/-- The init-command decoder answers one of the sixteen init commands only. -/
theorem isInitCommand_of_decodeCommand {bytes : List Byte} {i : Instr} (h : decodeCommand bytes = .ok i) :
    isInitCommand i := by
  cases bytes with
  | nil => injection h
  | cons op rest =>
    rw [decodeCommand] at h
    split at h
    · next read hr => exact commandTable_initCommand _ (mem_of_lookup hr) rest i h
    · injection h

end Sys2Proof.Machine
end

