-- ==== Sys2Proof/Laws/Step.lean ====
section
/-! SUPPORT. What one step can do, said once: every next state of the machine, by the event that led to it. Proofs about all steps split this instead of unfolding the step. -/

namespace Sys2Proof.Machine

/-! ## Going on to the next waiting point -/

theorem State.settle_of_settled {s : State} (h : s.fetching = false) (n : Nat) : s.settle n = .next s := by
  cases n <;> simp [State.settle, h]

theorem settled_next {s : State} (h : s.fetching = false) : settled (.next s) = .next s :=
  State.settle_of_settled h initLen

theorem State.settle_of_fetching {s : State} (h : s.fetching = true) (n : Nat) :
    s.settle (n + 1) = match s.takeCommand with
      | .next t => t.settle n
      | .fault r => .fault r
      | .refused r => .refused r :=
  if_pos h

/-- In SHOW_CMD the next waiting point is the WRITE of the enable-data-write command (R552). -/
theorem State.settle_of_inShowCmd {s : State} (h : s.inShowCmd) (n : Nat) :
    s.settle (n + 1) = .next (s.startTransaction .cmd [s.params.cmdWriteRam]) := by
  have hd : decode s.params (.enable s.params.cmdWriteRam) = .ok .enableDataWrite := by simp [decode, decodeEnable]
  have ht : s.takeCommand = .next (s.sendEnable s.params.cmdWriteRam) := by
    unfold State.takeCommand State.fetchCommand
    simp only [h.1, hd]
    rfl
  rw [State.settle_of_fetching h.2, ht, State.sendEnable, if_pos (show s.phase = .showCmd ∧ s.fetching = true from h)]
  exact State.settle_of_settled rfl n

theorem settled_of_inShowCmd {s : State} (h : s.inShowCmd) :
    settled (.next s) = .next (s.startTransaction .cmd [s.params.cmdWriteRam]) := s.settle_of_inShowCmd h 56

/-- Every init command's meaning is to hand the streamer some bytes, one at least. -/
theorem exec_initCommand {i : Instr} (hi : isInitCommand i) (s : State) :
    ∃ bytes, bytes ≠ [] ∧ exec i s = .next (s.sendInitCommand bytes) := by
  obtain ⟨h₁, h₂⟩ := hi
  cases i <;> simp only [Instr.isRequest, reduceCtorEq] at h₁
  case enableDataWrite => exact absurd rfl h₂
  all_goals exact ⟨_, List.cons_ne_nil _ _, rfl⟩

/-- In INIT the next waiting point, where there is one, is an init WRITE; on the way nothing changes but the
bytes of that WRITE (R457, R651, R652). -/
theorem State.settle_of_inInit {s t : State} {n : Nat} (h : s.inInit) (hn : 0 < n)
    (hlen : initLen ≤ n + (s.initIdx.toNat + s.txBytes.length)) (ht : s.settle n = .next t) :
    ∃ bytes, t = s.startTransaction .cmd bytes := by
  induction n generalizing s with
  | zero => omega
  | succ n ih =>
    rw [State.settle_of_fetching h.2] at ht
    have hc : ∃ u, s.takeCommand = .next u ∧ u.settle n = .next t := by
      revert ht
      cases s.takeCommand with
      | next u => exact fun ht => ⟨u, rfl, ht⟩
      | fault r => exact fun ht => nomatch ht
      | refused r => exact fun ht => nomatch ht
    obtain ⟨u, hu, hut⟩ := hc
    unfold State.takeCommand State.fetchCommand at hu
    simp only [h.1, decode] at hu
    split at hu
    · injections
    · next i hi =>
      injection hi with hi
      obtain ⟨bytes, hne, hex⟩ := exec_initCommand (isInitCommand_of_decodeCommand hi) s
      rw [hex] at hu
      injection hu with hu
      have hpos : 0 < bytes.length := List.length_pos_iff.2 hne
      rcases s.sendInitCommand_cases bytes with ⟨hno, -⟩ | ⟨-, -, -, he⟩ | ⟨-, -, -, hlt, he⟩
      · exact absurd h hno
      · rw [he] at hu
        subst hu
        rw [State.settle_of_settled rfl] at hut
        injection hut with hut
        exact ⟨_, hut.symm⟩
      · rw [he] at hu
        subst hu
        have hsum : (s.gather bytes).txBytes.length = s.txBytes.length + bytes.length := by simp
        have hidx : (s.gather bytes).initIdx = s.initIdx := rfl
        rw [List.length_append] at hlt
        obtain ⟨b, hb⟩ := ih (s := s.gather bytes) h (by omega) (by rw [hidx, hsum]; omega) hut
        exact ⟨b, hb⟩
    · injections

/-- `settled` in INIT. -/
theorem settled_of_inInit {s t : State} (h : s.inInit) (ht : settled (.next s) = .next t) :
    ∃ bytes, t = s.startTransaction .cmd bytes :=
  State.settle_of_inInit h (by decide) (by omega) ht

/-- From a point within a step the next waiting point, where there is one, is a command-mode WRITE. -/
theorem settled_of_fetching {s t : State} (h : s.fetching = true) (ht : settled (.next s) = .next t) :
    (s.phase = .init ∨ s.phase = .showCmd) ∧ ∃ bytes, t = s.startTransaction .cmd bytes := by
  by_cases hi : s.phase = .init
  · exact ⟨.inl hi, settled_of_inInit ⟨hi, h⟩ ht⟩
  · by_cases hs : s.phase = .showCmd
    · rw [settled_of_inShowCmd ⟨hs, h⟩] at ht
      injection ht with ht
      exact ⟨.inr hs, _, ht.symm⟩
    · rw [settled, show initLen = 56 + 1 from rfl, State.settle_of_fetching h] at ht
      have : s.takeCommand = .fault .waitPhaseMismatch := by
        unfold State.takeCommand State.fetchCommand
        cases hp : s.phase <;> simp_all
      rw [this] at ht
      nomatch ht

/-- `settled` answers a next state only where the work before it did. -/
theorem settled_inv {o : Host.Outcome State Fault Refusal} {t : State} (h : settled o = .next t) :
    ∃ u, o = .next u ∧ settled (.next u) = .next t := by
  cases o with
  | next u => exact ⟨u, rfl, h⟩
  | fault r => nomatch h
  | refused r => nomatch h

/-! ## The steps -/

/-- The state after the transport's answer OK, with step e of the transaction done (R601). -/
def State.afterOk (s : State) (rest : List BusAnswer) : State := (s.tookAnswer rest s.txBytes.length).endTransaction

/-- The state after the end of a hold (R454): the timer's own duration, or a free one (log 12). -/
def State.holdOver (s : State) : State :=
  match s.holds with
  | [] => s.drewHold
  | extra :: rest => s.tookHold extra rest

/-- Every request's meaning but SHOW's without a callback ends at a waiting point. -/
theorem exec_request_settled {i : Instr} {s t : State} (hi : i.isRequest = true) (hs : s.fetching = false)
    (hne : i ≠ .showFrame ∨ s.phase ≠ .ready ∨ s.cfgCbEn = true) (h : exec i s = .next t) : t.fetching = false := by
  have key : ∀ f : State → State, (s.phase = .ready → (f s).fetching = false) → (s.whenReady f).fetching = false := by
    intro f hf
    rcases s.whenReady_cases f with ⟨-, e⟩ | ⟨-, e⟩ | ⟨hr, e⟩ <;> rw [e]
    · exact hs
    · exact hs
    · exact hf hr
  have hbuf : ∀ (a : BufAddr) (f : State → State), (f s).fetching = false → (s.whenInBuf a f).fetching = false := by
    intro a f hf
    unfold State.whenInBuf
    split
    · exact hs
    · exact hf
  cases i <;> simp only [Instr.isRequest, Bool.false_eq_true] at hi <;> injection h with h <;> subst h
  case construct =>
    unfold State.whenIdle
    repeat' split
    all_goals exact hs
  case showFrame =>
    refine key _ fun hr => ?_
    rcases hne with hne | hne | hne
    · exact absurd rfl hne
    · exact absurd hr hne
    · rw [State.showBody_of_callback (s := s.commitShow) hne]
      exact hs
  case bwr a d => exact key _ fun _ => hbuf a _ hs
  case brd a => exact key _ fun _ => hbuf a _ hs
  case enc =>
    unfold State.whenIdle
    split <;> exact hs
  case remap => exact key _ fun _ => hs

/-- Every way a step can answer a next state. -/
inductive StepsTo (s t : State) : Prop where
  /-- A power-on reset (R802). -/
  | powerOnReset (k : Nat) (hp : s.porIn = some k) (ht : t = s.powerOnReset k)
  /-- The state was one within a step, which only `withFetchWord` makes: it goes on to its WRITE. -/
  | resumed (bytes : List Byte) (hp : s.porIn = none) (hf : s.fetching = true)
      (hph : s.phase = .init ∨ s.phase = .showCmd) (ht : t = s.startTransaction .cmd bytes)
  /-- Nothing to do: no request is presented (R301). -/
  | noRequest (hw : s.waitsFor .host) (hb : s.busy = false) (hq : s.hostReqs = []) (ht : t = s)
  /-- The callback agent has not answered (R608). -/
  | noAck (hw : s.waitsFor .cb) (hq : s.cbAcks = 0) (ht : t = s)
  /-- The transport has not answered (R606). -/
  | noAnswer (hw : s.waitsFor .bus) (hq : s.busAnswers = []) (ht : t = s)
  /-- A request is accepted and run (R301), and its meaning ends at a waiting point. -/
  | request (i : Instr) (w : HostWord) (rest : List HostWord) (hw : s.waitsFor .host) (hb : s.busy = false)
      (hq : s.hostReqs = w :: rest) (hd : decodeRequest w = .ok i) (ht : exec i (s.accepted rest) = .next t)
      (hf : t.fetching = false)
  /-- A SHOW without a callback is accepted and goes on to the enable-data-write WRITE (R550, R552). -/
  | showEnable (w : HostWord) (rest : List HostWord) (hw : s.waitsFor .host) (hph : s.phase = .ready)
      (hq : s.hostReqs = w :: rest) (hd : decodeRequest w = .ok .showFrame) (hc : s.cfgCbEn = false)
      (ht : t = ((s.accepted rest).commitShow.enterFetch .showCmd).startTransaction .cmd [s.params.cmdWriteRam])
  /-- A word that is no request is answered with IllegalRequest (R309). -/
  | illegal (e : DecodeError) (w : HostWord) (rest : List HostWord) (hw : s.waitsFor .host) (hb : s.busy = false)
      (hq : s.hostReqs = w :: rest) (hd : decodeRequest w = .error e)
      (ht : t = (s.accepted rest).raise .illegalRequest)
  /-- The first hold ends (R455). -/
  | holdLow (hw : s.waitsFor .delay) (hph : s.phase = .rstLo)
      (ht : t = ((s.holdOver.goTo .rstHi).drive .res true).startHold)
  /-- The second hold ends and a callback follows (R455). -/
  | holdHighCallback (hw : s.waitsFor .delay) (hph : s.phase = .rstHi) (hc : s.cfgCbEn = true)
      (ht : t = (s.holdOver.goTo .cbInit).startCallback)
  /-- The second hold ends and the first init WRITE follows (R455, R457). -/
  | holdHigh (bytes : List Byte) (hw : s.waitsFor .delay) (hph : s.phase = .rstHi) (hc : s.cfgCbEn = false)
      (hs : settled (.next (s.holdOver.enterFetch .init)) = .next t)
      (ht : t = (s.holdOver.enterFetch .init).startTransaction .cmd bytes)
  /-- The callback of CB_INIT is answered and the first init WRITE follows (R456, R457). -/
  | ackInit (n : Nat) (bytes : List Byte) (hw : s.waitsFor .cb) (hq : s.cbAcks = n + 1) (hph : s.phase = .cbInit)
      (hs : settled (.next ((s.tookAck n).enterFetch .init)) = .next t)
      (ht : t = ((s.tookAck n).enterFetch .init).startTransaction .cmd bytes)
  /-- The callback of CB_SHOW is answered and the enable-data-write WRITE follows (R551, R552). -/
  | ackShow (n : Nat) (hw : s.waitsFor .cb) (hq : s.cbAcks = n + 1) (hph : s.phase = .cbShow)
      (ht : t = ((s.tookAck n).enterFetch .showCmd).startTransaction .cmd [s.params.cmdWriteRam])
  /-- An init WRITE before the last is answered OK and the next one follows (R457, R652). -/
  | initOk (rest : List BusAnswer) (bytes : List Byte) (hw : s.waitsFor .bus) (hq : s.busAnswers = .ok :: rest)
      (hph : s.phase = .init) (hlt : ((s.afterOk rest).advanceInit s.txBytes.length).initIdx.toNat < initLen)
      (hs : settled (.next (((s.afterOk rest).advanceInit s.txBytes.length).enterFetch .init)) = .next t)
      (ht : t = (((s.afterOk rest).advanceInit s.txBytes.length).enterFetch .init).startTransaction .cmd bytes)
  /-- The last init WRITE is answered OK and a callback follows (R457, R551). -/
  | initDoneCallback (rest : List BusAnswer) (hw : s.waitsFor .bus) (hq : s.busAnswers = .ok :: rest)
      (hph : s.phase = .init) (hge : initLen ≤ ((s.afterOk rest).advanceInit s.txBytes.length).initIdx.toNat)
      (hc : s.cfgCbEn = true)
      (ht : t = (((s.afterOk rest).advanceInit s.txBytes.length).goTo .cbShow).startCallback)
  /-- The last init WRITE is answered OK and the enable-data-write WRITE follows (R457, R552). -/
  | initDone (rest : List BusAnswer) (hw : s.waitsFor .bus) (hq : s.busAnswers = .ok :: rest)
      (hph : s.phase = .init) (hge : initLen ≤ ((s.afterOk rest).advanceInit s.txBytes.length).initIdx.toNat)
      (hc : s.cfgCbEn = false)
      (ht : t = (((s.afterOk rest).advanceInit s.txBytes.length).enterFetch .showCmd).startTransaction .cmd
        [s.params.cmdWriteRam])
  /-- The enable-data-write command is answered OK (R552). -/
  | enableOk (rest : List BusAnswer) (hw : s.waitsFor .bus) (hq : s.busAnswers = .ok :: rest)
      (hph : s.phase = .showCmd) (ht : t = (s.afterOk rest).enterLines.sendLine)
  /-- A scan line is answered OK (R553, R554). -/
  | lineOk (rest : List BusAnswer) (hw : s.waitsFor .bus) (hq : s.busAnswers = .ok :: rest)
      (hph : s.phase = .showLines) (ht : t = (s.afterOk rest).afterLineWrite)
  /-- A transaction is answered ERR (R705). -/
  | busError (k : Nat) (rest : List BusAnswer) (hw : s.waitsFor .bus) (hq : s.busAnswers = .err k :: rest)
      (hph : s.phase = .init ∨ s.phase = .showCmd ∨ s.phase = .showLines) (ht : t = (s.tookAnswer rest k).busErrorExit)

theorem stepsTo_of_stepHost {s t : State} (hw : s.waitsFor .host) (h : settled s.stepHost = .next t) : StepsTo s t := by
  obtain ⟨u, hu, ht⟩ := settled_inv h
  unfold State.stepHost State.takeRequest at hu
  split at hu
  · nomatch hu
  · next hb =>
    have hb : s.busy = false := by simpa using hb
    cases hq : s.hostReqs with
    | nil =>
      rw [hq] at hu
      injection hu with hu
      subst hu
      rw [settled_next hw.2.1] at ht
      injection ht with ht
      exact .noRequest hw hb hq ht.symm
    | cons w rest =>
      rw [hq] at hu
      simp only at hu
      split at hu
      · next i hd =>
        by_cases hne : i ≠ .showFrame ∨ s.phase ≠ .ready ∨ s.cfgCbEn = true
        · have hf : u.fetching = false :=
            exec_request_settled (isRequest_of_decodeRequest hd) (s := s.accepted rest) hw.2.1 hne hu
          rw [settled_next hf] at ht
          injection ht with ht
          exact .request i w rest hw hb hq hd (ht ▸ hu) (ht ▸ hf)
        · simp only [ne_eq, not_or, not_not, Bool.not_eq_true] at hne
          obtain ⟨rfl, hr, hc⟩ := hne
          have he : exec .showFrame (s.accepted rest) = .next ((s.accepted rest).commitShow.enterFetch .showCmd) := by
            show Host.Outcome.next (State.whenReady (s.accepted rest) fun t => t.commitShow.showBody) = _
            rw [State.whenReady_of_ready (s := s.accepted rest) hr,
              State.showBody_of_no_callback (s := (s.accepted rest).commitShow) hc]
          rw [he] at hu
          injection hu with hu
          subst hu
          rw [settled_of_inShowCmd ⟨rfl, rfl⟩] at ht
          injection ht with ht
          exact .showEnable w rest hw hr hq hd hc ht.symm
      · next e hd =>
        injection hu with hu
        subst hu
        rw [settled_next (show ((s.accepted rest).raise .illegalRequest).fetching = false from hw.2.1)] at ht
        injection ht with ht
        exact .illegal e w rest hw hb hq hd ht.symm

theorem stepsTo_of_stepDelay {s t : State} (hw : s.waitsFor .delay) (h : settled s.stepDelay = .next t) :
    StepsTo s t := by
  obtain ⟨u, hu, ht⟩ := settled_inv h
  have he : s.stepDelay = s.holdOver.afterHold := by
    unfold State.stepDelay State.holdOver
    cases s.holds <;> rfl
  have hover : s.holdOver.fetching = false ∧ s.holdOver.phase = s.phase ∧ s.holdOver.cfgCbEn = s.cfgCbEn := by
    unfold State.holdOver
    cases s.holds <;> exact ⟨hw.2.1, rfl, rfl⟩
  rw [he] at hu
  unfold State.afterHold at hu
  split at hu
  · next hph =>
    injection hu with hu
    subst hu
    rw [settled_next (by simpa using hover.1)] at ht
    injection ht with ht
    exact .holdLow hw (hover.2.1 ▸ hph) ht.symm
  · next hph =>
    injection hu with hu
    cases hc : s.cfgCbEn
    · rw [if_neg (by rw [hover.2.2, hc]; decide)] at hu
      subst hu
      obtain ⟨b, hb⟩ := settled_of_inInit ⟨rfl, rfl⟩ ht
      exact .holdHigh b hw (hover.2.1 ▸ hph) hc ht hb
    · rw [if_pos (by rw [hover.2.2, hc])] at hu
      subst hu
      rw [settled_next (by simpa using hover.1)] at ht
      injection ht with ht
      exact .holdHighCallback hw (hover.2.1 ▸ hph) hc ht.symm
  · nomatch hu

theorem stepsTo_of_stepCallback {s t : State} (hw : s.waitsFor .cb) (h : settled s.stepCallback = .next t) :
    StepsTo s t := by
  obtain ⟨u, hu, ht⟩ := settled_inv h
  unfold State.stepCallback at hu
  split at hu
  · next hq =>
    injection hu with hu
    subst hu
    rw [settled_next hw.2.1] at ht
    injection ht with ht
    exact .noAck hw hq ht.symm
  · next n hq =>
    unfold State.afterCallback at hu
    split at hu
    · next hph =>
      injection hu with hu
      subst hu
      obtain ⟨b, hb⟩ := settled_of_inInit ⟨rfl, rfl⟩ ht
      exact .ackInit n b hw hq hph ht hb
    · next hph =>
      injection hu with hu
      subst hu
      rw [settled_of_inShowCmd ⟨rfl, rfl⟩] at ht
      injection ht with ht
      exact .ackShow n hw hq hph ht.symm
    · nomatch hu

theorem stepsTo_of_initOk {s t : State} {rest : List BusAnswer} (hw : s.waitsFor .bus)
    (hq : s.busAnswers = .ok :: rest) (hph : s.phase = .init)
    (ht : settled (.next ((s.afterOk rest).afterInitWrite s.txBytes.length)) = .next t) : StepsTo s t := by
  unfold State.afterInitWrite at ht
  split at ht
  · next hge =>
    cases hc : s.cfgCbEn
    · rw [State.showBody_of_no_callback (s := (s.afterOk rest).advanceInit s.txBytes.length) hc,
        settled_of_inShowCmd ⟨rfl, rfl⟩] at ht
      injection ht with ht
      exact .initDone rest hw hq hph hge hc ht.symm
    · rw [State.showBody_of_callback (s := (s.afterOk rest).advanceInit s.txBytes.length) hc,
        settled_next (show (((s.afterOk rest).advanceInit s.txBytes.length).goTo .cbShow).startCallback.fetching = false
          from hw.2.1)] at ht
      injection ht with ht
      exact .initDoneCallback rest hw hq hph hge hc ht.symm
  · next hlt =>
    obtain ⟨b, hb⟩ := settled_of_inInit ⟨rfl, rfl⟩ ht
    exact .initOk rest b hw hq hph (by omega) ht hb

theorem stepsTo_of_stepBus {s t : State} (hw : s.waitsFor .bus) (h : settled s.stepBus = .next t) : StepsTo s t := by
  obtain ⟨u, hu, ht⟩ := settled_inv h
  unfold State.stepBus at hu
  split at hu
  · next hq =>
    injection hu with hu
    subst hu
    rw [settled_next hw.2.1] at ht
    injection ht with ht
    exact .noAnswer hw hq ht.symm
  · next rest hq =>
    unfold State.afterWrite at hu
    split at hu
    · next hph =>
      injection hu with hu
      subst hu
      exact stepsTo_of_initOk hw hq hph ht
    · next hph =>
      injection hu with hu
      subst hu
      rw [settled_next rfl] at ht
      injection ht with ht
      exact .enableOk rest hw hq hph ht.symm
    · next hph =>
      injection hu with hu
      subst hu
      have hf : (s.afterOk rest).afterLineWrite.fetching = false := by
        unfold State.afterLineWrite
        split
        · rfl
        · exact hw.2.1
      rw [show ((s.tookAnswer rest s.txBytes.length).endTransaction).afterLineWrite = (s.afterOk rest).afterLineWrite
        from rfl, settled_next hf] at ht
      injection ht with ht
      exact .lineOk rest hw hq hph ht.symm
    · nomatch hu
  · next k rest hq =>
    have hf : (s.tookAnswer rest k).busErrorExit.fetching = false := hw.2.1
    unfold State.failWrite at hu
    split at hu
    · next hph =>
      injection hu with hu
      subst hu
      rw [settled_next hf] at ht
      injection ht with ht
      exact .busError k rest hw hq (.inl hph) ht.symm
    · next hph =>
      injection hu with hu
      subst hu
      rw [settled_next hf] at ht
      injection ht with ht
      exact .busError k rest hw hq (.inr (.inl hph)) ht.symm
    · next hph =>
      injection hu with hu
      subst hu
      rw [settled_next hf] at ht
      injection ht with ht
      exact .busError k rest hw hq (.inr (.inr hph)) ht.symm
    · nomatch hu

/-- One step of the machine: every next state is one of `StepsTo`. -/
theorem stepsTo_of_step {s t : State} (h : step s = .next t) : StepsTo s t := by
  unfold step at h
  split at h
  · next k hp => injection h with h; exact .powerOnReset k hp h.symm
  · next hp =>
    unfold State.advance at h
    split at h
    · next hf =>
      obtain ⟨hph, b, hb⟩ := settled_of_fetching hf h
      exact .resumed b hp hf hph hb
    · next hf =>
      have hf : s.fetching = false := by simpa using hf
      split at h
      · next hw => exact stepsTo_of_stepHost ⟨hp, hf, hw⟩ h
      · next hw => exact stepsTo_of_stepDelay ⟨hp, hf, hw⟩ h
      · next hw => exact stepsTo_of_stepCallback ⟨hp, hf, hw⟩ h
      · next hw => exact stepsTo_of_stepBus ⟨hp, hf, hw⟩ h

/-- While the transport gives no answer the step leaves the block as it is (R606). -/
theorem step_of_noAnswer {s : State} (hw : s.waitsFor .bus) (hq : s.busAnswers = []) : step s = .next s := by
  obtain ⟨hp, hf, hb⟩ := hw
  have hs : s.stepBus = .next s := by unfold State.stepBus; rw [hq]
  unfold step State.advance
  simp only [hp, hf, hb, hs, Bool.false_eq_true, if_false]
  exact settled_next hf

/-- While the callback agent gives no CB_ACK the step leaves the block as it is (R608). -/
theorem step_of_noAck {s : State} (hw : s.waitsFor .cb) (hq : s.cbAcks = 0) : step s = .next s := by
  obtain ⟨hp, hf, hb⟩ := hw
  have hs : s.stepCallback = .next s := by unfold State.stepCallback; rw [hq]
  unfold step State.advance
  simp only [hp, hf, hb, hs, Bool.false_eq_true, if_false]
  exact settled_next hf

/-- Two runs, one after the other. -/
theorem runs_trans {n m : Nat} {s t u : State} (h : runs n s t) (h' : runs m t u) : runs (n + m) s u := by
  induction n generalizing s with
  | zero => have h : s = t := h; subst h; simpa using h'
  | succ n ih =>
    obtain ⟨x, hx, hr⟩ := h
    rw [Nat.add_right_comm]
    exact ⟨x, hx, ih hr⟩

/-- A state whose step leaves it as it is stays for any number of steps. -/
theorem runs_of_waits {s : State} (h : step s = .next s) (n : Nat) : runs n s s := by
  induction n with
  | zero => rfl
  | succ n ih => exact ⟨s, h, ih⟩

end Sys2Proof.Machine
end

