-- ==== Sys2Proof/Laws/Fair.lean ====
section
/-! SUPPORT. Termination by weak fairness (R812): where the transport and the callback agent answer, every endless run is idle again and again. No condition on the delay timer is needed. -/

namespace Sys2Proof.Machine

/-- Every state of an execution is a state that runs reach. -/
theorem Execution.reachable {σ : Nat → State} (h : Execution σ) (n : Nat) : Reachable (σ n) := by
  induction n with
  | zero =>
    obtain ⟨p, hp⟩ := h.start
    exact hp ▸ .powerOn p
  | succ n ih =>
    rcases h.next n with hs | ⟨a, ha⟩
    · exact .step _ _ ih hs
    · exact ha ▸ .agent _ a ih

/-- The agent that the sequencer waits for has not answered: the transport or the callback agent (R606, R608). -/
def State.unanswered (s : State) : Prop := (s.wait = .bus ∧ s.busAnswers = []) ∨ (s.wait = .cb ∧ s.cbAcks = 0)

/-- An init transaction that is not the last ends at a higher INIT_IDX, below 57 (R109, R652). -/
theorem initRanges_advance :
    ∀ r ∈ initRanges, r.1 < r.2 ∧ r.2 ≤ 57 ∧ (romSlice initRom r).length = r.2 - r.1 := by decide

theorem State.Consistent.advanceInit_gt {s : State} (h : s.Consistent) (hp : s.phase = .init)
    (hlt : (s.advanceInit s.txBytes.length).initIdx.toNat < initLen) :
    s.initIdx.toNat < (s.advanceInit s.txBytes.length).initIdx.toNat := by
  have he : (s.advanceInit s.txBytes.length).initIdx.toNat = (s.initIdx.toNat + s.txBytes.length) % 64 := by
    simp [State.advanceInit, BitVec.toNat_add]
  rw [he] at hlt ⊢
  cases hf : s.params.initFraming
  · obtain ⟨h₀, h₁⟩ := h.blobTransfer hp hf
    rw [h₀, h₁] at hlt
    exact absurd hlt (by decide)
  · obtain ⟨r, hr, h₀, h₁⟩ := h.discreteTransfer hp hf
    obtain ⟨h₂, h₃, h₄⟩ := initRanges_advance r hr
    rw [h₁, h₄, h₀]
    omega

/-- A step of a busy block either ends the request, or passes a waiting point, or finds no answer. -/
theorem State.Consistent.step_progress {s t : State} (h : s.Consistent) (hb : s.busy = true) (hs : step s = .next t) :
    t.busy = false ∨ t.toGo < s.toGo ∨ (t = s ∧ s.unanswered) := by
  have hidle : ∀ {u : State}, u.phase = .unconf ∨ u.phase = .ready → u.busy = false := fun {u} hu =>
    u.busy_eq_false_iff.2 hu
  have hnb : ¬ s.busy = false := by simp [hb]
  cases stepsTo_of_step hs with
  | powerOnReset k hp ht => exact .inl (ht ▸ hidle (.inl rfl))
  | resumed bytes hp hf => exact absurd hf (by simp [h.settled])
  | noRequest hw hb' => exact absurd hb' hnb
  | noAck hw hq ht => exact .inr (.inr ⟨ht, .inr ⟨hw.2.2, hq⟩⟩)
  | noAnswer hw hq ht => exact .inr (.inr ⟨ht, .inl ⟨hw.2.2, hq⟩⟩)
  | request i w rest hw hb' => exact absurd hb' hnb
  | showEnable w rest hw hph => exact absurd (hidle (.inr hph)) hnb
  | illegal e w rest hw hb' => exact absurd hb' hnb
  | holdLow hw hph ht => exact .inr (.inl (by subst ht; simp [State.toGo, hph]))
  | holdHighCallback hw hph hc ht => exact .inr (.inl (by subst ht; simp [State.toGo, hph]))
  | holdHigh bytes hw hph hc hs ht => exact .inr (.inl (by subst ht; simp [State.toGo, hph]; omega))
  | ackInit n bytes hw hq hph hs ht => exact .inr (.inl (by subst ht; simp [State.toGo, hph]; omega))
  | ackShow n hw hq hph ht => exact .inr (.inl (by subst ht; simp [State.toGo, hph]))
  | initOk rest bytes hw hq hph hlt hs ht =>
    have hlt : (s.advanceInit s.txBytes.length).initIdx.toNat < initLen := hlt
    have := h.advanceInit_gt hph hlt
    have hl : initLen = 57 := rfl
    refine .inr (.inl ?_)
    have ht : t.toGo = 189 - (s.advanceInit s.txBytes.length).initIdx.toNat := by rw [ht]; rfl
    rw [ht, State.toGo, hph]
    show _ < 189 - s.initIdx.toNat
    omega
  | initDoneCallback rest hw hq hph hge hc ht =>
    have := h.initRange
    exact .inr (.inl (by subst ht; simp [State.toGo, hph]; omega))
  | initDone rest hw hq hph hge hc ht =>
    have := h.initRange
    exact .inr (.inl (by subst ht; simp [State.toGo, hph]; omega))
  | enableOk rest hw hq hph ht => exact .inr (.inl (by rw [show t.toGo = 129 by rw [ht]; rfl, State.toGo, hph]; show 129 < 130; decide))
  | lineOk rest hw hq hph ht =>
    have hl : nScan = 128 := rfl
    have hr := h.lineRunning hph
    have he : (s.afterOk rest).advanceLine.line.toNat = s.line.toNat + 1 := by
      show (s.line + 1).toNat = _
      rw [BitVec.toNat_add]
      show (s.line.toNat + 1) % 256 = _
      omega
    unfold State.afterLineWrite at ht
    split at ht
    · have ht : t.toGo = 129 - (s.afterOk rest).advanceLine.line.toNat := by
        have hp : t.phase = .showLines := by rw [ht]; exact hph
        have hln : t.line = (s.afterOk rest).advanceLine.line := by rw [ht]; rfl
        rw [State.toGo, hp, hln]
      refine .inr (.inl ?_)
      rw [ht, he, State.toGo, hph]
      show _ < 129 - s.line.toNat
      omega
    · exact .inl (ht ▸ hidle (.inr rfl))
  | busError k rest hw hq hph ht =>
    refine .inl (ht ▸ hidle ?_)
    show failedPhase s.opKind = .unconf ∨ failedPhase s.opKind = .ready
    cases s.opKind
    · exact .inl rfl
    · exact .inr rfl

/-- Nothing has moved the block from s to t: only mailboxes have grown. -/
structure State.Still (s t : State) : Prop where
  busy : t.busy = s.busy
  wait : t.wait = s.wait
  toGo : t.toGo = s.toGo
  busAnswers : s.busAnswers ≠ [] → t.busAnswers ≠ []
  cbAcks : s.cbAcks ≠ 0 → t.cbAcks ≠ 0

theorem State.Still.refl (s : State) : s.Still s := ⟨rfl, rfl, rfl, id, id⟩

theorem State.Still.trans {s t u : State} (h : s.Still t) (h' : t.Still u) : s.Still u :=
  ⟨h'.busy.trans h.busy, h'.wait.trans h.wait, h'.toGo.trans h.toGo, fun hs => h'.busAnswers (h.busAnswers hs),
    fun hs => h'.cbAcks (h.cbAcks hs)⟩

theorem State.still_agent (s : State) (a : AgentAction) : s.Still (s.agent a) := by
  cases a <;> refine ⟨rfl, rfl, rfl, fun h => ?_, fun h => ?_⟩ <;> simp_all [State.agent]

/-- Where both agents are weakly fair, the block is idle at some later point or nearer to it (R812). -/
theorem Execution.progress {σ : Nat → State} (he : Execution σ) (hc : ∀ n, (σ n).Consistent)
    (ht : transportAnswers σ) (ha : callbackAnswers σ) (n : Nat) :
    ∃ m, n ≤ m ∧ ((σ m).busy = false ∨ (σ m).toGo < (σ n).toGo) := by
  by_contra hno
  have hno : ∀ m, n ≤ m → (σ m).busy = true ∧ (σ n).toGo ≤ (σ m).toGo := fun m hm => by
    by_contra hc
    refine hno ⟨m, hm, ?_⟩
    cases hb : (σ m).busy
    · exact .inl rfl
    · exact .inr (Nat.lt_of_not_le fun hle => hc ⟨hb, hle⟩)
  -- every sequencer step from here on finds no answer
  have hstep : ∀ m, n ≤ m → (σ m).toGo = (σ n).toGo → step (σ m) = .next (σ (m + 1)) →
      σ (m + 1) = σ m ∧ (σ m).unanswered := fun m hm hg hs => by
    rcases (hc m).step_progress (hno m hm).1 hs with h | h | h
    · exact absurd h (by simp [(hno (m + 1) (by omega)).1])
    · exact absurd (hno (m + 1) (by omega)).2 (by omega)
    · exact h
  have hstill : ∀ m k, n ≤ m → (σ m).toGo = (σ n).toGo → (σ m).Still (σ (m + k)) := fun m k hm hg => by
    induction k with
    | zero => exact .refl _
    | succ k ih =>
      refine ih.trans ?_
      rcases he.next (m + k) with hs | ⟨a, h⟩
      · rw [← Nat.add_assoc, (hstep (m + k) (by omega) (ih.toGo.trans hg) hs).1]
        exact .refl _
      · rw [← Nat.add_assoc, h]
        exact State.still_agent _ a
  -- a sequencer step after m finds the answer that stands at m
  have hlive : ∀ m, n ≤ m → (σ m).toGo = (σ n).toGo → ∃ u, (σ m).Still u ∧ u.unanswered := fun m hm hg => by
    obtain ⟨k, hk, hs⟩ := he.live m
    obtain ⟨j, rfl⟩ := Nat.exists_eq_add_of_le hk
    have hst := hstill m j hm hg
    exact ⟨_, hst, (hstep _ (by omega) (hst.toGo.trans hg) hs).2⟩
  obtain ⟨u, hu, hun⟩ := hlive n (Nat.le_refl n) rfl
  rcases hun with ⟨hw, -⟩ | ⟨hw, -⟩
  · obtain ⟨m, hm, hans⟩ := ht n (hu.wait ▸ hw)
    obtain ⟨j, rfl⟩ := Nat.exists_eq_add_of_le hm
    have hst := hstill n j (Nat.le_refl n) rfl
    have hwm : (σ (n + j)).wait = .bus := hst.wait.trans (hu.wait ▸ hw)
    obtain ⟨v, hv, hvn⟩ := hlive (n + j) hm hst.toGo
    rcases hvn with ⟨-, hq⟩ | ⟨hw', -⟩
    · exact hv.busAnswers (hans hwm) hq
    · exact absurd (hw'.symm.trans (hv.wait.trans hwm)) (by decide)
  · obtain ⟨m, hm, hans⟩ := ha n (hu.wait ▸ hw)
    obtain ⟨j, rfl⟩ := Nat.exists_eq_add_of_le hm
    have hst := hstill n j (Nat.le_refl n) rfl
    have hwm : (σ (n + j)).wait = .cb := hst.wait.trans (hu.wait ▸ hw)
    obtain ⟨v, hv, hvn⟩ := hlive (n + j) hm hst.toGo
    rcases hvn with ⟨hw', -⟩ | ⟨-, hq⟩
    · exact absurd (hw'.symm.trans (hv.wait.trans hwm)) (by decide)
    · exact hv.cbAcks (hans hwm) hq

/-- R812: a run ends by the transport and the callback agent answering, and by nothing else: in an endless run in
which both are weakly fair, BUSY is 0 again after every point. The states of an execution are those that runs reach
(`Execution.reachable`), so their consistency is the statement ReachableStatesAreConsistent. -/
theorem Execution.returns_to_idle {σ : Nat → State} (he : Execution σ) (hc : ∀ n, (σ n).Consistent)
    (ht : transportAnswers σ) (ha : callbackAnswers σ) (n : Nat) : ∃ m, n ≤ m ∧ (σ m).busy = false := by
  induction hk : (σ n).toGo using Nat.strongRecOn generalizing n with
  | ind k ih =>
    cases hb : (σ n).busy
    · exact ⟨n, Nat.le_refl n, hb⟩
    · obtain ⟨m, hm, h | h⟩ := he.progress hc ht ha n
      · exact ⟨m, hm, h⟩
      · obtain ⟨j, hj, h'⟩ := ih _ (hk ▸ h) m rfl
        exact ⟨j, hm.trans hj, h'⟩

end Sys2Proof.Machine
end

