-- ==== Sys2Proof/Laws/PerInstr.lean ====
section
/-! SUPPORT. Families of laws stated for every instruction, one lemma for each constructor of Instr. -/

namespace Sys2Proof.Laws.EncodedLength

/-- The number of bytes the block emits for an instruction: the column of total bytes of R326, and none for a
host request, which is a word and is not emitted (R300). -/
def emittedBytes : Instr → Nat
  | .construct _ _ _ => 0
  | .showFrame => 0
  | .bwr _ _ => 0
  | .brd _ => 0
  | .enc _ _ _ => 0
  | .remap _ => 0
  | .sleep => 1
  | .remapDepth _ => 2
  | .startLine _ => 2
  | .offset _ => 2
  | .displayMode => 1
  | .masterConfig _ => 2
  | .powerSave _ => 2
  | .precharge _ => 2
  | .clockOsc _ => 2
  | .grayscaleLut _ => 26
  | .prechargeVoltage _ _ _ => 4
  | .vcomh _ => 2
  | .contrast _ _ _ => 4
  | .masterCurrent _ => 2
  | .muxRatio _ => 2
  | .displayOn => 1
  | .enableDataWrite => 1

/-- An instruction that its format can spell is emitted with the number of bytes R326 gives its opcode. -/
def Statement (i : Instr) : Prop :=
  i.wellFormed = true → ∀ p : Params, (commandBytes p i).length = emittedBytes i

theorem construct (h : Byte) (w : Byte) (cb : Bool) : Statement (.construct h w cb) := fun _ _ => rfl
theorem showFrame : Statement .showFrame := fun _ _ => rfl
theorem bwr (a : BufAddr) (d : Byte) : Statement (.bwr a d) := fun _ _ => rfl
theorem brd (a : BufAddr) : Statement (.brd a) := fun _ _ => rfl
theorem enc (r : Byte) (g : Byte) (b : Byte) : Statement (.enc r g b) := fun _ _ => rfl
theorem remap (l : BitVec 7) : Statement (.remap l) := fun _ _ => rfl
theorem sleep : Statement .sleep := fun _ _ => rfl
theorem remapDepth (x : Byte) : Statement (.remapDepth x) := fun _ _ => rfl
theorem startLine (x : Byte) : Statement (.startLine x) := fun _ _ => rfl
theorem offset (x : Byte) : Statement (.offset x) := fun _ _ => rfl
theorem displayMode : Statement .displayMode := fun _ _ => rfl
theorem masterConfig (x : Byte) : Statement (.masterConfig x) := fun _ _ => rfl
theorem powerSave (x : Byte) : Statement (.powerSave x) := fun _ _ => rfl
theorem precharge (x : Byte) : Statement (.precharge x) := fun _ _ => rfl
theorem clockOsc (x : Byte) : Statement (.clockOsc x) := fun _ _ => rfl
theorem grayscaleLut (lut : List Byte) : Statement (.grayscaleLut lut) := by
  intro h p
  have h : lut.length = 25 := by simpa [Instr.wellFormed, lutArguments] using h
  simp [commandBytes, emittedBytes, h]
theorem prechargeVoltage (x : Byte) (y : Byte) (z : Byte) : Statement (.prechargeVoltage x y z) := fun _ _ => rfl
theorem vcomh (x : Byte) : Statement (.vcomh x) := fun _ _ => rfl
theorem contrast (x : Byte) (y : Byte) (z : Byte) : Statement (.contrast x y z) := fun _ _ => rfl
theorem masterCurrent (x : Byte) : Statement (.masterCurrent x) := fun _ _ => rfl
theorem muxRatio (x : Byte) : Statement (.muxRatio x) := fun _ _ => rfl
theorem displayOn : Statement .displayOn := fun _ _ => rfl
theorem enableDataWrite : Statement .enableDataWrite := fun _ _ => rfl

end Sys2Proof.Laws.EncodedLength
end

