-- ==== Sys2Proof/Laws/Streamer.lean ====
section
/-! SUPPORT. Where the init streamer gets to in one step, exactly: the WRITE of one range of R652 under DISCRETE, of the whole ROM under BLOB (R651). -/

namespace Sys2Proof.Machine

/-- At the start of each range the ROM holds an init command whose meaning sends exactly the range's bytes. -/
theorem exec_romCommand :
    ∀ r ∈ initRanges, ∃ i, decodeCommand (initRom.drop r.1) = .ok i
      ∧ ∀ s, exec i s = .next (s.sendInitCommand (romSlice initRom r)) := by
  intro r hr
  simp only [initRanges, List.mem_cons, List.not_mem_nil, or_false] at hr
  rcases hr with rfl | rfl | rfl | rfl | rfl | rfl | rfl | rfl | rfl | rfl | rfl | rfl | rfl | rfl | rfl | rfl
  all_goals exact ⟨_, rfl, fun _ => rfl⟩

/-- The streamer at the start of a range takes that range's command. -/
theorem State.takeCommand_of_range {s : State} (hp : s.phase = .init) (hrom : s.rom = initRom) {r : Nat × Nat}
    (hr : r ∈ initRanges) (hpos : s.romPosition = r.1) :
    s.takeCommand = .next (s.sendInitCommand (romSlice initRom r)) := by
  obtain ⟨i, hd, he⟩ := exec_romCommand r hr
  unfold State.takeCommand State.fetchCommand
  simp only [hp, hrom, hpos, decode, hd]
  exact he s

/-- DISCRETE: the step goes on to the WRITE of the range that INIT_IDX starts (R652). -/
theorem settled_of_discrete {s : State} (h : s.inInit) (hrom : s.rom = initRom)
    (hf : s.params.initFraming = .discrete) (htx : s.txBytes = []) {r : Nat × Nat} (hr : r ∈ initRanges)
    (hi : s.initIdx.toNat = r.1) : settled (.next s) = .next (s.startTransaction .cmd (romSlice initRom r)) := by
  rw [settled, show initLen = 56 + 1 from rfl, State.settle_of_fetching h.2,
    State.takeCommand_of_range h.1 hrom hr (by simp [State.romPosition, hi, htx])]
  show State.settle 56 (s.sendInitCommand _) = _
  rw [State.sendInitCommand, if_pos (show s.phase = .init ∧ s.fetching = true from h), if_pos (.inl hf), htx,
    List.nil_append]
  exact State.settle_of_settled rfl 56

/-- BLOB: one command before the last joins the bytes gathered. -/
theorem State.settle_gathers {s : State} (h : s.inInit) (hrom : s.rom = initRom) (hf : s.params.initFraming = .blob)
    {r : Nat × Nat} (hr : r ∈ initRanges) (hpos : s.romPosition = r.1) (hlt : r.2 < 57) (n : Nat) :
    s.settle (n + 1) = (s.gather (romSlice initRom r)).settle n := by
  have hlen : ∀ r ∈ initRanges, r.1 + (romSlice initRom r).length = r.2 := by decide
  have hl := hlen r hr
  have he : s.sendInitCommand (romSlice initRom r) = s.gather (romSlice initRom r) := by
    rw [State.sendInitCommand, if_pos (show s.phase = .init ∧ s.fetching = true from h), if_neg]
    rw [hf, List.length_append]
    unfold State.romPosition at hpos
    have : initLen = 57 := rfl
    simp only [reduceCtorEq, false_or]
    omega
  rw [State.settle_of_fetching h.2, State.takeCommand_of_range h.1 hrom hr hpos, he]

/-- BLOB: from ROM index 0 the step goes on to the one WRITE of all 57 bytes (R651). -/
theorem settled_of_blob {s : State} (h : s.inInit) (hrom : s.rom = initRom) (hf : s.params.initFraming = .blob)
    (htx : s.txBytes = []) (hi : s.initIdx = 0) : settled (.next s) = .next (s.startTransaction .cmd initRom) := by
  -- after the ranges below 56, their bytes are gathered and one command is left
  have key : ∀ k, k ≤ 15 → ∀ b, b = initRom.take (initRanges[k]!).1 →
      settled (.next s) = ({ s with txBytes := b } : State).settle (57 - k) := by
    intro k
    induction k with
    | zero =>
      intro _ b hb
      have hb : b = [] := hb
      have hs : ({ s with txBytes := b } : State) = s := by rw [hb, ← htx]
      rw [hs]
      rfl
    | succ k ih =>
      intro hk b hb
      have hrow : ∀ k, k < 15 → initRanges[k]! ∈ initRanges ∧ (initRanges[k]!).2 < 57
          ∧ (initRom.take (initRanges[k]!).1).length = (initRanges[k]!).1
          ∧ initRom.take (initRanges[k]!).1 ++ romSlice initRom (initRanges[k]!)
            = initRom.take (initRanges[k + 1]!).1 := by decide
      obtain ⟨hm, hlt, hlen, happ⟩ := hrow k (by omega)
      rw [ih (by omega) _ rfl, show 57 - k = (57 - (k + 1)) + 1 by omega,
        State.settle_gathers (s := { s with txBytes := initRom.take (initRanges[k]!).1 }) h hrom hf hm
          (by show s.initIdx.toNat + (initRom.take (initRanges[k]!).1).length = _
              rw [hi, hlen]
              exact Nat.zero_add _) hlt, hb, ← happ]
      rfl
  obtain ⟨g, hg⟩ : ∃ g : State, g = { s with txBytes := initRom.take 56 } := ⟨_, rfl⟩
  have hin : g.inInit := hg ▸ h
  have hpos : g.romPosition = 56 := by
    rw [hg]
    show s.initIdx.toNat + (initRom.take 56).length = 56
    rw [hi]
    rfl
  have hlen : initLen ≤ (g.txBytes ++ romSlice initRom (56, 57)).length := by
    rw [hg]
    exact (by decide : initLen ≤ (initRom.take 56 ++ romSlice initRom (56, 57)).length)
  have hsend : g.sendInitCommand (romSlice initRom (56, 57)) = s.startTransaction .cmd initRom := by
    rw [State.sendInitCommand, if_pos (show g.phase = .init ∧ g.fetching = true from hin),
      if_pos (.inr (Nat.le_trans hlen (Nat.le_add_left _ _))), hg]
    rfl
  have hk : settled (.next s) = g.settle (41 + 1) := hg ▸ key 15 (Nat.le_refl 15) _ rfl
  rw [hk, State.settle_of_fetching hin.2,
    State.takeCommand_of_range hin.1 (hg ▸ hrom) (r := (56, 57)) (by decide) hpos, hsend]
  exact State.settle_of_settled rfl 41

end Sys2Proof.Machine
end

