-- ==== Sys2Proof/Tests/Slice0.lean ====
section
/-! SUPPORT. The model's own tests. Expected words and values are transcribed from spec/95_test_vectors.md, or from the rule named at the test. At the end, a witness for every statement that has hypotheses. -/

namespace Sys2Proof.Tests

open Sys2Proof.Machine

/-! ## Helpers -/

/-- A configured block, idle in READY, with default parameters. -/
def ready (h w : Byte) : State :=
  { State.reset with phase := .ready, cfgHeight := h, cfgWidth := w, initIdx := 57, line := 128 }

/-- A block about to take the init command at ROM index i, under DISCRETE. -/
def streaming (i : BitVec 6) : State :=
  { ready 128 128 with
    phase := .init, fetching := true, initIdx := i, params := { Params.default with initFraming := .discrete } }

/-- A block whose WRITE of the given bytes is running in phase p. -/
def writing (p : Phase) (bytes : List Byte) : State := { ready 128 1 with phase := p, wait := .bus, txBytes := bytes }

/-- The state after one step. -/
def next (s : State) : Option State :=
  match step s with
  | .next t => some t
  | .fault _ => none
  | .refused _ => none

/-- The state after one step in which the host has presented the word. -/
def request (s : State) (w : HostWord) : Option State := next { s with hostReqs := [w] }

/-- The response to the word, where one step answers it. -/
def answer (s : State) (w : HostWord) : Option HostWord := (request s w).bind fun t => t.responses.getLast?

/-- The bytes of the transaction that one step issues. -/
def issuedBytes (s : State) : Option (List Byte) := (next s).map (·.txBytes)

/-! ## WellFormed: the one check refuses an argument list of the wrong length -/

theorem test_lut_of_24_refused : (Instr.grayscaleLut (List.replicate 24 0)).wellFormed = false := by decide
theorem test_lut_of_26_refused : (Instr.grayscaleLut (List.replicate 26 0)).wellFormed = false := by decide
theorem test_lut_of_25_accepted : (Instr.grayscaleLut (List.replicate 25 0)).wellFormed = true := by decide

/-! ## Decode: every constructor, from a word or bytes written out from the spec -/

-- format K (R303): 0000 0000 | width | height | 000 cb | 0001
theorem test_decode_construct : decodeRequest 0b00000000_00000011_10000000_00010001 = .ok (.construct 128 3 true) := by decide
-- format N (R304)
theorem test_decode_show : decodeRequest 0b00000000_00000000_00000000_00000010 = .ok .showFrame := by decide
-- format W (R305): data | address | 0000 0011
theorem test_decode_bwr : decodeRequest 0b10101011_01111111_11111110_00000011 = .ok (.bwr 0x7FFE 0xAB) := by decide
-- format R (R306): 0000 0000 | address | 0000 0100
theorem test_decode_brd : decodeRequest 0b00000000_11111110_00000001_00000100 = .ok (.brd 0xFE01) := by decide
-- format E (R307): blue | green | red | 0000 0101
theorem test_decode_enc : decodeRequest 0b01010110_00110100_00010010_00000101 = .ok (.enc 0x12 0x34 0x56) := by decide
-- format L (R308): 17 zeros | line | 0000 0110
theorem test_decode_remap : decodeRequest 0b00000000_00000000_01111001_00000110 = .ok (.remap 121) := by decide
-- the bytes of R653 to R668, in the order of the ROM
theorem test_decode_sleep : decodeCommand [0b10101110] = .ok .sleep := by decide
theorem test_decode_remap_depth : decodeCommand [0b10100000, 0xB4] = .ok (.remapDepth 0xB4) := by decide
theorem test_decode_start_line : decodeCommand [0b10100001, 0x00] = .ok (.startLine 0x00) := by decide
theorem test_decode_offset : decodeCommand [0b10100010, 0x00] = .ok (.offset 0x00) := by decide
theorem test_decode_display_mode : decodeCommand [0b10100110] = .ok .displayMode := by decide
theorem test_decode_master_config : decodeCommand [0b10101101, 0x8E] = .ok (.masterConfig 0x8E) := by decide
theorem test_decode_power_save : decodeCommand [0b10110000, 0x05] = .ok (.powerSave 0x05) := by decide
theorem test_decode_precharge : decodeCommand [0b10110001, 0x11] = .ok (.precharge 0x11) := by decide
theorem test_decode_clock_osc : decodeCommand [0b10110011, 0xF0] = .ok (.clockOsc 0xF0) := by decide
theorem test_decode_grayscale_lut :
    decodeCommand [0b10111000, 1, 6, 11, 16, 21, 26, 31, 36, 41, 46, 51, 56, 61, 66, 71, 76, 81, 86, 91, 96, 101, 106,
        111, 116, 121, 0xBB] =
      .ok (.grayscaleLut [1, 6, 11, 16, 21, 26, 31, 36, 41, 46, 51, 56, 61, 66, 71, 76, 81, 86, 91, 96, 101, 106, 111,
        116, 121]) := by decide
theorem test_decode_precharge_voltage :
    decodeCommand [0b10111011, 0x1A, 0x1B, 0x1C] = .ok (.prechargeVoltage 0x1A 0x1B 0x1C) := by decide
theorem test_decode_vcomh : decodeCommand [0b10111110, 0x3F] = .ok (.vcomh 0x3F) := by decide
theorem test_decode_contrast : decodeCommand [0b11000001, 0xDC, 0xD2, 0xFF] = .ok (.contrast 0xDC 0xD2 0xFF) := by decide
theorem test_decode_master_current : decodeCommand [0b11000111, 0x0A] = .ok (.masterCurrent 0x0A) := by decide
theorem test_decode_mux_ratio : decodeCommand [0b11001010, 0x7F] = .ok (.muxRatio 0x7F) := by decide
theorem test_decode_display_on : decodeCommand [0b10101111] = .ok .displayOn := by decide
theorem test_decode_enable_data_write : decode Params.default (.enable 0b01011100) = .ok .enableDataWrite := by decide

-- rejections by name (R309, R328, R326)
theorem test_reject_reserved_bits : decodeRequest 0x00008006 = .error .reservedBits := by decide
theorem test_reject_reserved_op : decodeRequest 0x00000000 = .error .reservedOp := by decide
theorem test_reject_unknown_command : decodeCommand [0x5C] = .error .unknownCommand := by decide
theorem test_reject_missing_arguments : decodeCommand [0xC1, 0xDC, 0xD2] = .error .missingArguments := by decide

/-! ## The host's entry points -/

theorem test_table_word_request : decodeTableWord 32 0x56341205 = some (.enc 0x12 0x34 0x56) := by decide
theorem test_table_word_command : decodeTableWord 8 0xA0 = some (.remapDepth 0) := by decide
theorem test_table_word_enable : decodeTableWord 8 0x5C = some .enableDataWrite := by decide
theorem test_fetch_word_request :
    (next (State.reset.withFetchWord 32 0x56341205)).map (·.responses) = some [0x11AA0000] := by decide
theorem test_fetch_word_command : issuedBytes (State.reset.withFetchWord 8 0xA0) = some [0xA0, 0x00] := by decide
theorem test_fetch_word_lut :
    issuedBytes (State.reset.withFetchWord 8 0xB8) = some (0xB8 :: List.replicate 25 0x00) := by decide
theorem test_fetch_word_enable : issuedBytes (State.reset.withFetchWord 8 0x5C) = some [0x5C] := by decide

/-! ## Host requests, one step each -/

-- vectors E3, E7 of section 3
theorem test_enc_mixed : answer State.reset 0x56341205 = some 0x11AA0000 := by decide
theorem test_enc_truncates : answer (ready 96 96) 0x0000F705 = some 0xF0000000 := by decide
-- the example of R410: the last byte of a 128 by 128 buffer, and the first address beyond it
theorem test_bwr_last_byte : (request (ready 128 128) 0xAB7FFF03).map (·.buf) = some [(32767, 0xAB)] := by decide
theorem test_bwr_beyond : answer (ready 128 128) 0xAB800003 = some 0x00000005 := by decide
-- the example of R420, and StateError before CONSTRUCT (R702)
theorem test_brd_last_byte :
    answer { ready 128 128 with buf := [(32767, 0xAB)] } 0x007FFF04 = some 0x00AB0000 := by decide
theorem test_brd_unconfigured : answer State.reset 0x007FFF04 = some 0x00000004 := by decide
-- REMAP rows of section 2: H96 W96 line 121, and the dead band at line 64
theorem test_remap_h96_tail : answer (ready 96 96) 0x00007906 = some 0x34804600 := by decide
theorem test_remap_dead_band : answer (ready 96 96) 0x00004006 = some 0x00008000 := by decide
-- CONSTRUCT: vector K2 (height 95), and the reset pulse's start (R454)
theorem test_construct_height_95 :
    (request State.reset 0x00805F01).map (fun t => (t.responses, t.statusPort 0)) = some ([1], 0x0100) := by decide
theorem test_construct_starts_reset :
    (request State.reset 0x00808001).map (fun t => (t.res, t.trace, t.statusPort 1)) =
      some (false, [.pin .res false, .delay], 0x8080) := by decide
-- SHOW: the callback first where one is configured (R551)
theorem test_show_callback :
    (request { ready 96 96 with cfgCbEn := true } 0x00000002).map (fun t => (t.phase, t.trace)) =
      some (.cbShow, [.cbReq]) := by decide
-- without one, the same step sends the enable-data-write command (R16, R552, R601)
theorem test_show_sends_enable :
    (request (ready 96 96) 0x00000002).map (fun t => (t.statusPort 0 &&& 0x1F, t.wait, t.trace)) =
      some (0x16, .bus, [.pin .cs true, .pin .dc false, .pin .cs false, .write [0x5C]]) := by decide

/-! ## Panel commands: the step at each ROM index of R652 issues the bytes that S18 lists there -/

theorem test_stream_sleep : issuedBytes (streaming 0) = some [0xAE] := by decide
theorem test_stream_remap_depth : issuedBytes (streaming 1) = some [0xA0, 0xB4] := by decide
theorem test_stream_start_line : issuedBytes (streaming 3) = some [0xA1, 0x00] := by decide
theorem test_stream_offset : issuedBytes (streaming 5) = some [0xA2, 0x00] := by decide
theorem test_stream_display_mode : issuedBytes (streaming 7) = some [0xA6] := by decide
theorem test_stream_master_config : issuedBytes (streaming 8) = some [0xAD, 0x8E] := by decide
theorem test_stream_power_save : issuedBytes (streaming 10) = some [0xB0, 0x05] := by decide
theorem test_stream_precharge : issuedBytes (streaming 12) = some [0xB1, 0x11] := by decide
theorem test_stream_clock_osc : issuedBytes (streaming 14) = some [0xB3, 0xF0] := by decide
theorem test_stream_grayscale_lut : issuedBytes (streaming 16) =
    some [0xB8, 0x01, 0x06, 0x0B, 0x10, 0x15, 0x1A, 0x1F, 0x24, 0x29, 0x2E, 0x33, 0x38, 0x3D, 0x42, 0x47, 0x4C, 0x51,
      0x56, 0x5B, 0x60, 0x65, 0x6A, 0x6F, 0x74, 0x79] := by decide
theorem test_stream_precharge_voltage : issuedBytes (streaming 42) = some [0xBB, 0x1C, 0x1C, 0x1C] := by decide
theorem test_stream_vcomh : issuedBytes (streaming 46) = some [0xBE, 0x3F] := by decide
theorem test_stream_contrast : issuedBytes (streaming 48) = some [0xC1, 0xDC, 0xD2, 0xFF] := by decide
theorem test_stream_master_current : issuedBytes (streaming 52) = some [0xC7, 0x0A] := by decide
theorem test_stream_mux_ratio : issuedBytes (streaming 54) = some [0xCA, 0x7F] := by decide
theorem test_stream_display_on : issuedBytes (streaming 56) = some [0xAF] := by decide
-- the framing of R601 with the default levels: CS idle, DC to command, CS to select, WRITE
theorem test_enable_data_write_framing :
    (next { ready 96 96 with phase := .showCmd, fetching := true }).map (·.trace) =
      some [.pin .cs true, .pin .dc false, .pin .cs false, .write [0x5C]] := by decide

/-! ## The sequencer, the status port and the host's syntax -/

-- R705: a failed init WRITE leaves FAIL_PHASE 4, ERR_STICKY, UNCONF and LAST_RC 2, with CS still selected
theorem test_bus_error_status :
    (next { writing .init [0xAE] with busAnswers := [.err 0], cs := false }).map
      (fun t => (t.statusPort 0, t.responses, t.cs)) = some (0x42A0, [2], false) := by decide
-- R454, R812: a hold that the timer has fixed lasts 1 ms and the timer's excess
theorem test_hold_ends :
    (next { ready 128 1 with phase := .rstLo, wait := .delay, res := false, holds := [5] }).map
      (fun t => (t.phase, t.res, t.holdTimes)) = some (.rstHi, true, [1005]) := by decide
-- R455: a hold ends though the timer has fixed no duration, and the first init WRITE follows (R651)
theorem test_free_hold_ends :
    (next { ready 128 1 with phase := .rstHi, wait := .delay, initIdx := 0 }).map
      (fun t => (t.phase, t.wait, t.txBytes.length)) = some (.init, .bus, 57) := by decide
-- R554: after scan line 127
theorem test_last_line :
    (next { writing .showLines [0, 0] with busAnswers := [.ok], line := 127 }).map
      (fun t => (t.line, t.phase, t.responses)) = some (128, .ready, [0]) := by decide
-- S1, S6: the corners of both mappings
theorem test_remap_corners_h128 : [0, 95, 96, 127].map (remapRow .h128) = [95, 0, 127, 96] := by decide
theorem test_remap_corners_h96 : [0, 63, 64, 95, 96, 127].map (remapRow .h96) = [63, 0, 0, 0, 95, 64] := by decide
-- R331 on program P2's pixel (10, 70) with W = 96 (S19): the high byte at the even address
theorem test_pixw_bytes : assemble 96 (.pixw 10 70 0xF800) = some [0xF8349403, 0x00349503] := by decide
theorem test_parse_construct :
    (parseLine ['C', 'O', 'N', 'S', 'T', 'R', 'U', 'C', 'T', ' ', 'h', '=', '9', '6', ',', ' ', 'w', '=', '0', 'x', '6',
        '0', ',', ' ', 'c', 'b', ' ', ';', ' ', 'x']) = some (.construct 96 96 true) := by decide

/-! ## The invariant at a concrete state -/

/-- An idle block after power-on, to which a CONSTRUCT and then a reserved word are presented. -/
def presented : State := { State.reset with hostReqs := [0x00808001, 0x00000000] }

theorem presented_consistent : presented.Consistent where
  rom := by decide
  bufCanonical := Memory.wf_nil
  bufBounded := by decide
  config := .inr (by decide)
  settled := by decide
  waitPhase := by decide
  initRange := by decide
  initDone := by decide
  initNotBegun := by decide
  lineRange := by decide
  lineRunning := by decide
  constructing := by decide
  callback := by decide
  resetLine := by decide
  writeSelected := by decide
  writeDataMode := by decide
  writeCmdMode := by decide
  csIdle := by decide
  blobTransfer := nofun
  discreteTransfer := nofun
  enableTransfer := nofun
  lineTransfer := nofun
  noTransfer := by decide
  noFailure := by decide
  failure := by decide
  constructRequest := by decide
  showRequest := by decide

/-! ## Endless runs: one in which the transport never answers (R606), and so is not fair (R812) -/

/-- From reset, a CONSTRUCT is presented, and then only the sequencer acts. -/
def hanging : Nat → State
  | 0 => State.reset
  | 1 => State.reset.agent (.present 0x00808001)
  | n + 2 => (next (hanging (n + 1))).getD (hanging (n + 1))

/-- The fourth state waits for the transport, in INIT. -/
theorem test_hanging_waits :
    (hanging 4).waitsFor .bus ∧ (hanging 4).busAnswers = [] ∧ (hanging 4).phase = .init := by decide
theorem hanging_stays : ∀ n, hanging (n + 4) = hanging 4
  | 0 => rfl
  | n + 1 => by
    have h : next (hanging 4) = some (hanging 4) := by
      rw [next, step_of_noAnswer test_hanging_waits.1 test_hanging_waits.2.1]
    rw [hanging, hanging_stays n, h]
    rfl
theorem hanging_execution : Execution hanging where
  start := ⟨Params.default, rfl⟩
  next
    | 0 => .inr ⟨.present 0x00808001, rfl⟩
    | 1 => .inl rfl
    | 2 => .inl rfl
    | 3 => .inl rfl
    | n + 4 => .inl (by
      rw [hanging_stays (n + 1), hanging_stays n, step_of_noAnswer test_hanging_waits.1 test_hanging_waits.2.1])
  live n := ⟨n + 4, by omega, by
    rw [hanging_stays (n + 1), hanging_stays n, step_of_noAnswer test_hanging_waits.1 test_hanging_waits.2.1]⟩
theorem hanging_not_fair : ¬ transportAnswers hanging := fun h => by
  obtain ⟨m, hm, ha⟩ := h 4 test_hanging_waits.1.2.2
  obtain ⟨k, rfl⟩ := Nat.exists_eq_add_of_le hm
  rw [Nat.add_comm, hanging_stays k] at ha
  exact ha test_hanging_waits.1.2.2 test_hanging_waits.2.1
theorem witness_returns_to_idle :
    Execution (fun _ => State.reset) ∧ transportAnswers (fun _ => State.reset) ∧ callbackAnswers (fun _ => State.reset) :=
  ⟨⟨⟨Params.default, rfl⟩, fun _ => .inl rfl, fun n => ⟨n, Nat.le_refl n, rfl⟩⟩, nofun, nofun⟩

/-! ## Witnesses: a concrete state and operands that meet the hypotheses of each statement -/

theorem witness_DecodeOfEncode : (Instr.grayscaleLut (List.replicate 25 0xFF)).wellFormed = true := by decide
theorem witness_RequestWordOfDecode : ∃ i, decodeRequest 0xFFFFFF05 = .ok i := ⟨.enc 0xFF 0xFF 0xFF, by decide⟩
theorem witness_InitCommandLengthFromOpcode :
    ∃ i : Instr, i.wellFormed = true ∧ i.isRequest = false ∧ i ≠ .enableDataWrite :=
  ⟨.grayscaleLut (List.replicate 25 0), by decide⟩
theorem witness_PowerOnResetAbandonsTheRequest : ∃ s k, State.porIn s = some k ∧ s.busy = true :=
  ⟨{ writing .init [0xAE] with porIn := some 1 }, 1, by decide⟩
theorem witness_StepRunsAcceptedRequest :
    ∃ (s : State) (w : HostWord) (rest : List HostWord) (i : Instr),
      s.idle ∧ s.hostReqs = w :: rest ∧ decodeRequest w = .ok i :=
  ⟨presented, 0x00808001, [0x00000000], .construct 128 128 false, ⟨by decide, by decide⟩, rfl, by decide⟩
theorem witness_StepRunsAcceptedRequest_exec :
    (Instr.construct 128 128 false ≠ .showFrame ∨ presented.phase ≠ .ready ∨ presented.cfgCbEn = true) := by decide
theorem witness_StepRunsFetchedCommand_init :
    ∃ (s : State) (i : Instr), s.porIn = none ∧ s.inInit
      ∧ decodeCommand (s.rom.drop (s.initIdx.toNat + s.txBytes.length)) = .ok i :=
  ⟨streaming 56, .displayOn, rfl, ⟨rfl, rfl⟩, by decide⟩
theorem witness_StepRunsFetchedCommand_show : ∃ s : State, s.porIn = none ∧ s.inShowCmd :=
  ⟨{ ready 96 1 with phase := .showCmd, fetching := true }, rfl, rfl, rfl⟩
-- every reserved encoding: the ends of the reserved OPs and the ends of each format's reserved bits
theorem idle_when_presented (w : HostWord) : ({ State.reset with hostReqs := [w] } : State).idle :=
  ⟨⟨rfl, rfl, rfl⟩, (by decide : Phase.busy .unconf = false)⟩
theorem witness_ReservedWords_op :
    reservedWord 0x00000000 ∧ reservedWord 0x00000007 ∧ reservedWord 0x0000000F := by unfold reservedWord; decide
theorem witness_ReservedWords_construct_low : reservedWord 0x00606021 ∧ reservedWord 0x00606081 := by
  unfold reservedWord; decide
theorem witness_ReservedWords_construct_high : reservedWord 0x01606001 ∧ reservedWord 0x80606001 := by
  unfold reservedWord; decide
theorem witness_ReservedWords_show : reservedWord 0x00000012 ∧ reservedWord 0x80000002 := by unfold reservedWord; decide
theorem witness_ReservedWords_bwr : reservedWord 0x00000013 ∧ reservedWord 0x00000083 := by unfold reservedWord; decide
theorem witness_ReservedWords_brd : reservedWord 0x00000014 ∧ reservedWord 0x01000004 ∧ reservedWord 0x80000004 := by
  unfold reservedWord; decide
theorem witness_ReservedWords_enc : reservedWord 0x00000015 ∧ reservedWord 0x00000085 := by unfold reservedWord; decide
theorem witness_ReservedWords_remap : reservedWord 0x00000016 ∧ reservedWord 0x00008006 ∧ reservedWord 0x80000006 := by
  unfold reservedWord; decide
theorem witness_ReservedWordsAnswerIllegalRequest :
    ∃ (s : State) (w : HostWord) (rest : List HostWord), s.idle ∧ s.hostReqs = w :: rest ∧ reservedWord w :=
  ⟨_, 0x00008006, [], idle_when_presented 0x00008006, rfl, witness_ReservedWords_remap.2.1⟩
theorem witness_EncAnswersRgb565 : State.reset.busy = false ∧ (ready 96 1).busy = false := by decide
theorem witness_BwrStoresOneByte :
    (ready 128 255).phase = .ready ∧ (0x0000 : BufAddr).toNat < 2 * (255 : Byte).toNat * (128 : Byte).toNat
      ∧ (0xFEFF : BufAddr).toNat < 2 * (255 : Byte).toNat * (128 : Byte).toNat ∧ Memory.wf (ready 128 255).buf := by decide
theorem witness_BrdAnswersTheByte :
    (ready 96 1).phase = .ready ∧ (191 : BufAddr).toNat < 2 * (ready 96 1).cfgWidth.toNat * (ready 96 1).cfgHeight.toNat := by
  decide
theorem witness_BufferAccessBeyondEndIsAddressRange :
    (ready 96 1).phase = .ready ∧ 2 * (ready 96 1).cfgWidth.toNat * (ready 96 1).cfgHeight.toNat ≤ (192 : BufAddr).toNat := by
  decide
theorem witness_BwrThenBrdReadsBack :
    ∃ (a : BufAddr) (d : Byte) (s : State), s.idle ∧ s.phase = .ready ∧ Memory.wf s.buf
      ∧ a.toNat < 2 * s.cfgWidth.toNat * s.cfgHeight.toNat
      ∧ s.hostReqs = requestWord (.bwr a d) :: requestWord (.brd a) :: [] :=
  ⟨191, 0xAB, { ready 96 1 with hostReqs := [0xAB00BF03, 0x0000BF04] }, ⟨⟨rfl, rfl, rfl⟩, by decide⟩, rfl, Memory.wf_nil,
    by decide, by decide⟩
theorem witness_PixwThenPixrReadsBack :
    ∃ (x y : Nat) (v : BitVec 16) (s : State) (put get : List HostWord), s.idle ∧ s.phase = .ready ∧ Memory.wf s.buf
      ∧ legalConfig s.cfgHeight s.cfgWidth = true ∧ x < s.cfgWidth.toNat ∧ y < s.cfgHeight.toNat
      ∧ pixw s.cfgWidth.toNat x y v.toNat = some put ∧ pixr s.cfgWidth.toNat x y = some get ∧ s.hostReqs = put ++ get :=
  ⟨254, 127, 0xF81F, { ready 128 255 with hostReqs := [0xF8FEFE03, 0x1FFEFF03, 0x00FEFE04, 0x00FEFF04] },
    [0xF8FEFE03, 0x1FFEFF03], [0x00FEFE04, 0x00FEFF04], ⟨⟨rfl, rfl, rfl⟩, by decide⟩, rfl, Memory.wf_nil, by decide, by decide,
    by decide, by decide, by decide, rfl⟩
theorem witness_RemapAnswersRowOffsetAndDead :
    ∀ h ∈ ([96, 128] : List Byte), (ready h 255).phase = .ready
      ∧ legalConfig (ready h 255).cfgHeight (ready h 255).cfgWidth = true := by decide
theorem witness_RemapRowFormulas :
    (∀ l ∈ [0, 63], l < 128 ∧ l < 64) ∧ (∀ l ∈ [64, 95], l < 128 ∧ 64 ≤ l ∧ l < 96) ∧ ∀ l ∈ [96, 127], l < 128 ∧ 96 ≤ l := by
  decide
theorem witness_RowsStayInsideTheBuffer :
    legalConfig 96 1 = true ∧ legalConfig 96 255 = true ∧ legalConfig 128 1 = true ∧ legalConfig 128 255 = true := by decide
theorem witness_ConstructRefusesIllegalGeometry :
    State.reset.busy = false ∧ (∀ h ∈ ([95, 97, 127, 129] : List Byte), h ≠ 96 ∧ h ≠ 128) ∧ (0 : Byte) = 0 := by decide
theorem witness_ConstructCommitsAndPullsResetLow :
    State.reset.busy = false ∧ ((96 : Byte) = 96 ∨ (96 : Byte) = 128) ∧ ((128 : Byte) = 96 ∨ (128 : Byte) = 128)
      ∧ (1 : Byte) ≠ 0 ∧ (255 : Byte) ≠ 0 := by decide
theorem witness_ShowStartsShowBody :
    (ready 96 1).phase = .ready ∧ (ready 96 1).cfgCbEn = false
      ∧ ({ ready 96 1 with cfgCbEn := true } : State).phase = .ready
      ∧ ({ ready 96 1 with cfgCbEn := true } : State).cfgCbEn = true := by decide
theorem witness_ShowStartsShowBody_step :
    ∃ (s : State) (rest : List HostWord), s.phase = .ready ∧ s.idle ∧ s.cfgCbEn = false
      ∧ s.hostReqs = requestWord .showFrame :: rest :=
  ⟨{ ready 96 1 with hostReqs := [2] }, [], rfl, ⟨⟨rfl, rfl, rfl⟩, by decide⟩, rfl, rfl⟩
theorem witness_RequestsBeforeConstructAreStateErrors : State.reset.phase = .unconf := by decide
theorem witness_RequestsAreHeldWhileBusy :
    (Instr.construct 128 128 true).isRequest = true ∧ (writing .init [0xAE]).busy = true := by decide
theorem witness_RequestsAreAcceptedOneAtATime_idle : presented.porIn = none ∧ ∃ t, step presented = .next t :=
  ⟨rfl, _, rfl⟩
theorem witness_RequestsAreAcceptedOneAtATime_busy :
    ({ writing .showLines [0, 0] with busAnswers := [.ok] } : State).busy = true
      ∧ ∃ t, step { writing .showLines [0, 0] with busAnswers := [.ok] } = .next t := ⟨by decide, _, rfl⟩
theorem witness_ArgumentlessInitCommands : (streaming 56).inInit := ⟨rfl, rfl⟩
theorem witness_OneArgumentInitCommands : (streaming 54).inInit := ⟨rfl, rfl⟩
theorem witness_ThreeArgumentInitCommands : (streaming 48).inInit := ⟨rfl, rfl⟩
theorem witness_GrayscaleLutCommand : (streaming 16).inInit ∧ (List.replicate 25 (0xFF : Byte)).length = 25 :=
  ⟨⟨rfl, rfl⟩, by decide⟩
theorem witness_EnableDataWriteIsSentAlone : ({ ready 96 1 with phase := .showCmd, fetching := true } : State).inShowCmd :=
  ⟨rfl, rfl⟩
theorem witness_PanelCommandsOutsideTheirPhase_init :
    Instr.sleep.isRequest = false ∧ Instr.sleep ≠ .enableDataWrite ∧ State.reset.phase ≠ .init
      ∧ (writing .showCmd [0x5C]).phase ≠ .init := by decide
theorem witness_PanelCommandsOutsideTheirPhase_enable :
    State.reset.phase ≠ .showCmd ∧ (streaming 0).phase ≠ .showCmd := by decide
theorem witness_BlobInitStream :
    ∃ (s : State) (rest : List BusAnswer), s.porIn = none ∧ s.inInit ∧ s.initIdx = 0 ∧ s.txBytes = [] ∧ s.rom = initRom
      ∧ s.params.initFraming = .blob ∧ s.busAnswers = .ok :: rest :=
  ⟨{ ready 96 1 with phase := .init, fetching := true, initIdx := 0, busAnswers := [.ok] }, [], rfl, ⟨rfl, rfl⟩, rfl, rfl,
    rfl, rfl, rfl⟩
theorem witness_DiscreteInitStream :
    ∃ (s : State) (rest : List BusAnswer), (s.porIn = none ∧ s.inInit ∧ s.initIdx = 0 ∧ s.txBytes = [] ∧ s.rom = initRom
      ∧ s.params.initFraming = .discrete ∧ s.busAnswers = List.replicate 16 .ok ++ rest)
      ∧ initRanges[0]? = some (0, 1) ∧ initRanges[15]? = some (56, 57) :=
  ⟨{ streaming 0 with busAnswers := List.replicate 16 .ok }, [], ⟨rfl, ⟨rfl, rfl⟩, rfl, rfl, rfl, rfl, by decide⟩,
    rfl, rfl⟩
theorem witness_ResetPulseHolds :
    ∀ p ∈ [Phase.rstLo, .rstHi], ∀ cb ∈ [false, true], ∀ d ∈ [[], [0]],
      ({ ready 96 1 with phase := p, wait := .delay, cfgCbEn := cb, holds := d, initIdx := 0 } : State).waitsFor .delay
      ∧ ({ ready 96 1 with phase := p, wait := .delay, cfgCbEn := cb, holds := d, initIdx := 0 } : State).rom = initRom := by
  decide
theorem witness_CallbackGoesOnAtAck :
    ∀ p ∈ [Phase.cbInit, .cbShow], ∀ n ∈ [0, 1],
      ({ ready 96 1 with phase := p, wait := .cb, cbAcks := n, initIdx := 0 } : State).waitsFor .cb
      ∧ ({ ready 96 1 with phase := p, wait := .cb, cbAcks := n, initIdx := 0 } : State).rom = initRom := by decide
theorem witness_SilentTransportHangs :
    (writing .init [0xAE]).waitsFor .bus ∧ (writing .init [0xAE]).busAnswers = [] := by decide
theorem witness_EnableDataWriteCompletes :
    ∃ s : State, s.waitsFor .bus ∧ s.phase = .showCmd ∧ s.busAnswers = [.ok] :=
  ⟨{ writing .showCmd [0x5C] with busAnswers := [.ok] }, ⟨rfl, rfl, rfl⟩, rfl, rfl⟩
theorem witness_ScanLineCompletes :
    ∀ l ∈ ([0, 126, 127] : List (BitVec 8)),
      ∃ s : State, s.waitsFor .bus ∧ s.phase = .showLines ∧ s.busAnswers = [.ok] ∧ s.line = l :=
  fun l _ => ⟨{ writing .showLines [0, 0] with busAnswers := [.ok], line := l }, ⟨rfl, rfl, rfl⟩, rfl, rfl, rfl⟩
theorem witness_BusErrorExitEffects :
    ∀ p ∈ [Phase.init, .showCmd, .showLines],
      (p = .init ∨ p = .showCmd ∨ p = .showLines)
      ∧ ∃ s : State, s.waitsFor .bus ∧ s.phase = p ∧ s.busAnswers = [.err 0] :=
  fun p hp => ⟨by revert p; decide, { writing p [0] with busAnswers := [.err 0] }, ⟨rfl, rfl, rfl⟩, rfl, rfl⟩
theorem witness_ConsistentKeptByStep : presented.Consistent ∧ ∃ t, step presented = .next t ∧ t.busy = true :=
  ⟨presented_consistent, _, rfl, by decide⟩
theorem witness_ConsistentKeptByAgents : presented.Consistent := presented_consistent
theorem witness_ConsistentBlockNeverStops : presented.Consistent := presented_consistent
theorem witness_ReachableStatesAreConsistent : ∃ t, Reachable t ∧ t.busy = true :=
  ⟨_, .step _ _ (.agent _ (.present 0x00808001) (.powerOn Params.default)) rfl, by decide⟩
theorem witness_ErrStickyAndFailPhase :
    (∃ t, step { writing .init [0xAE] with porIn := some 1 } = .next t)
      ∧ ∃ t, step { writing .init [0xAE] with busAnswers := [.err 1] } = .next t := ⟨⟨_, rfl⟩, _, rfl⟩
theorem witness_ConfigurationWrittenOnlyByConstruct : presented.porIn = none ∧ ∃ t, step presented = .next t :=
  ⟨rfl, _, rfl⟩
theorem witness_BufferWrittenOnlyByBwrAndConstruct :
    ∃ t, step { ready 128 128 with hostReqs := [0xAB7FFF03] } = .next t ∧ t.buf ≠ [] := ⟨_, rfl, by decide⟩
theorem witness_LinesFollowTheirEvents : ∃ t, step presented = .next t ∧ t.res = false := ⟨_, rfl, rfl⟩
theorem witness_ShowRunTrace :
    ∀ cb, ∃ (s : State) (rest : List HostWord) (answers : List BusAnswer) (acks : Nat), s.cfgCbEn = cb ∧ s.idle
      ∧ s.phase = .ready ∧ s.hostReqs = requestWord .showFrame :: rest
      ∧ s.busAnswers = List.replicate 129 .ok ++ answers ∧ s.cbAcks = acks + cbCount s.cfgCbEn :=
  fun cb => ⟨{ ready 96 96 with cfgCbEn := cb, hostReqs := [2], busAnswers := List.replicate 129 .ok, cbAcks := cbCount cb },
    [], [], 0, rfl, ⟨⟨rfl, rfl, rfl⟩, (by decide : Phase.busy .ready = false)⟩, rfl, rfl, (List.append_nil _).symm, (Nat.zero_add _).symm⟩
theorem witness_ConstructRunTrace :
    ∀ f, ∃ (s : State) (answers : List BusAnswer), s.params.initFraming = f ∧ s.idle ∧ s.rom = initRom
      ∧ legalConfig 128 255 = true ∧ s.hostReqs = requestWord (.construct 128 255 true) :: []
      ∧ s.busAnswers = List.replicate (initWrites s.params.initFraming + 129) .ok ++ answers
      ∧ s.cbAcks = 0 + 2 * cbCount true :=
  fun f => ⟨{ State.powerOn { Params.default with initFraming := f } with
      hostReqs := [0x00FF8011], busAnswers := List.replicate (initWrites f + 129) .ok, cbAcks := 2 },
    [], rfl, ⟨⟨rfl, rfl, rfl⟩, (by decide : Phase.busy .unconf = false)⟩, rfl, by decide,
    congrArg (· :: []) (by decide : (0x00FF8011 : HostWord) = requestWord (.construct 128 255 true)), (List.append_nil _).symm, rfl⟩
theorem witness_FailedShowRunTrace :
    ∀ n ∈ [0, 1, 128], ∃ (s : State) (rest : List HostWord) (answers : List BusAnswer) (acks k : Nat), s.idle
      ∧ s.phase = .ready ∧ s.hostReqs = requestWord .showFrame :: rest ∧ n < 129
      ∧ s.busAnswers = List.replicate n .ok ++ .err k :: answers ∧ s.cbAcks = acks + cbCount s.cfgCbEn :=
  fun n hn => ⟨{ ready 96 96 with hostReqs := [2], busAnswers := List.replicate n .ok ++ [.err 1] }, [], [], 0, 1,
    ⟨⟨rfl, rfl, rfl⟩, (by decide : Phase.busy .ready = false)⟩, rfl, rfl, by revert n; decide, rfl, rfl⟩

end Sys2Proof.Tests
end

section
/-! PROOFS. The status port (R107, R130, R131), and what a step does to ERR_STICKY and FAIL_PHASE (R112, R122). -/

namespace Sys2Proof.Machine

/-! ## The status port -/

@[simp] theorem State.statusPort_status (s : State) : s.statusPort 0 = s.statusReg := rfl
@[simp] theorem State.statusPort_cfg (s : State) : s.statusPort 1 = s.cfgReg := rfl
@[simp] theorem State.statusPort_seqpos (s : State) : s.statusPort 2 = s.seqposReg := rfl
@[simp] theorem State.statusPort_reserved (s : State) : s.statusPort 3 = 0 := rfl

/-- BUSY is 1 exactly in the phases 1 to 7 (R107). -/
theorem State.busy_iff (s : State) : s.busy = true ↔ 1 ≤ s.phase.bits.toNat ∧ s.phase.bits.toNat ≤ 7 := by
  rw [State.busy, Phase.busy, decide_eq_true_iff]

/-- A slice of a word is a field when their bits agree. -/
theorem extractLsb'_eq_of_bits {n len start : Nat} {x : BitVec n} {y : BitVec len}
    (h : ∀ i < len, x.getLsbD (start + i) = y.getLsbD i) : x.extractLsb' start len = y :=
  BitVec.eq_of_getLsbD_eq fun i hi => by rw [BitVec.getLsbD_extractLsb', h i hi, decide_eq_true hi, Bool.true_and]

/-- What each bit of STATUS shows (R130). -/
theorem State.statusReg_getLsbD (s : State) (i : Nat) :
    s.statusReg.getLsbD i =
      if i < 4 then s.phase.bits.getLsbD i
      else if i < 5 then s.busy
      else if i < 6 then decide (s.cfgHeight = 128)
      else if i < 7 then s.cfgCbEn
      else if i < 8 then s.errSticky
      else if i < 12 then s.lastRc.bits.getLsbD (i - 8)
      else s.failPhase.getLsbD (i - 12) := by
  change BitVec.getLsbD (w := 4 + 4 + 1 + 1 + 1 + 1 + 4) (_ ++ _) i = _
  simp only [BitVec.getLsbD_append, BitVec.getLsbD_ofBool]
  grind

/-- What each bit of SEQPOS shows (R130). -/
theorem State.seqposReg_getLsbD (s : State) (i : Nat) :
    s.seqposReg.getLsbD i =
      if i < 8 then s.line.getLsbD i
      else if i < 14 then s.initIdx.getLsbD (i - 8)
      else if i < 15 then s.opKind.bit.getLsbD (i - 14)
      else false := by
  change BitVec.getLsbD (w := 1 + 1 + 6 + 8) (_ ++ _) i = _
  simp only [BitVec.getLsbD_append]
  grind

@[simp] theorem State.statusReg_phase (s : State) : s.statusReg.extractLsb' 0 4 = s.phase.bits :=
  extractLsb'_eq_of_bits fun i hi => by grind [State.statusReg_getLsbD]
@[simp] theorem State.statusReg_busy (s : State) : s.statusReg.getLsbD 4 = s.busy := s.statusReg_getLsbD 4
@[simp] theorem State.statusReg_geom (s : State) : s.statusReg.getLsbD 5 = decide (s.cfgHeight = 128) :=
  s.statusReg_getLsbD 5
@[simp] theorem State.statusReg_cbEn (s : State) : s.statusReg.getLsbD 6 = s.cfgCbEn := s.statusReg_getLsbD 6
@[simp] theorem State.statusReg_errSticky (s : State) : s.statusReg.getLsbD 7 = s.errSticky := s.statusReg_getLsbD 7
@[simp] theorem State.statusReg_lastRc (s : State) : s.statusReg.extractLsb' 8 4 = s.lastRc.bits :=
  extractLsb'_eq_of_bits fun i hi => by grind [State.statusReg_getLsbD]
@[simp] theorem State.statusReg_failPhase (s : State) : s.statusReg.extractLsb' 12 4 = s.failPhase :=
  extractLsb'_eq_of_bits fun i hi => by grind [State.statusReg_getLsbD]

@[simp] theorem State.cfgReg_width (s : State) : s.cfgReg.extractLsb' 0 8 = s.cfgWidth :=
  BitVec.extractLsb'_append_eq_right
@[simp] theorem State.cfgReg_height (s : State) : s.cfgReg.extractLsb' 8 8 = s.cfgHeight :=
  BitVec.extractLsb'_append_eq_left

@[simp] theorem State.seqposReg_line (s : State) : s.seqposReg.extractLsb' 0 8 = s.line :=
  extractLsb'_eq_of_bits fun i hi => by grind [State.seqposReg_getLsbD]
@[simp] theorem State.seqposReg_initIdx (s : State) : s.seqposReg.extractLsb' 8 6 = s.initIdx :=
  extractLsb'_eq_of_bits fun i hi => by grind [State.seqposReg_getLsbD]
@[simp] theorem State.seqposReg_opKind (s : State) : s.seqposReg.extractLsb' 14 1 = s.opKind.bit :=
  extractLsb'_eq_of_bits fun i hi => by grind [State.seqposReg_getLsbD]
@[simp] theorem State.seqposReg_reserved (s : State) : s.seqposReg.getLsbD 15 = false := s.seqposReg_getLsbD 15

/-- No status register shows a parameter of R9 after power-on (R130, R800). -/
theorem State.powerOn_statusPort (p : Params) (n : BitVec 2) :
    (State.powerOn p).statusPort n = State.reset.statusPort n := rfl

/-- Every field of the four registers is zero at reset (R131, R800). -/
theorem State.reset_statusPort : ∀ n : BitVec 2, State.reset.statusPort n = 0 := by decide

/-- Settles O9: the parameters do not show in the status port, and with the defaults it reads zero. -/
theorem powerOnStatusPortReadsZero : Obligations.PowerOnStatusPortReadsZero := fun p n =>
  (State.powerOn_statusPort p n).trans (State.reset_statusPort n)

/-- Settles O11: field by field, from the layout of STATUS, CFG and SEQPOS. -/
theorem statusPortRegisters : Obligations.StatusPortRegisters := fun s =>
  ⟨⟨s.statusReg_phase, s.statusReg_busy, s.statusReg_geom, s.statusReg_cbEn, s.statusReg_errSticky, s.statusReg_lastRc,
      s.statusReg_failPhase⟩,
    ⟨s.cfgReg_width, s.cfgReg_height⟩,
    ⟨s.seqposReg_line, s.seqposReg_initIdx, s.seqposReg_opKind, s.seqposReg_reserved⟩,
    s.statusPort_reserved, s.busy_iff, fun _ => rfl⟩

/-! ## ERR_STICKY and FAIL_PHASE -/

/-- ERR_STICKY and FAIL_PHASE, the block's record of a BusError, are in t as they are in s (R112, R122). -/
structure State.KeepsErrorRecord (s t : State) : Prop where
  errSticky : t.errSticky = s.errSticky
  failPhase : t.failPhase = s.failPhase

theorem State.KeepsErrorRecord.refl (s : State) : s.KeepsErrorRecord s := ⟨rfl, rfl⟩

theorem State.KeepsErrorRecord.trans {s t u : State} (h : s.KeepsErrorRecord t) (h' : t.KeepsErrorRecord u) :
    s.KeepsErrorRecord u := ⟨h'.errSticky.trans h.errSticky, h'.failPhase.trans h.failPhase⟩

/-- A running WRITE is answered ERR (R605). -/
def State.answeredErr (s : State) : Prop := s.waitsFor .bus ∧ ∃ k rest, s.busAnswers = .err k :: rest

/-- `answeredErr` by the answer at the head of the transport's mailbox. -/
theorem State.answeredErr_iff_head (s : State) :
    s.answeredErr ↔ s.waitsFor .bus ∧ s.busAnswers.head?.any (· != .ok) = true := by
  refine and_congr_right fun _ => ?_
  rcases s.busAnswers with _ | ⟨_ | k, rest⟩ <;> simp

theorem State.whenIdle_keepsErrorRecord {s : State} {f : State → State} (h : s.KeepsErrorRecord (f s)) :
    s.KeepsErrorRecord (s.whenIdle f) := by
  unfold State.whenIdle
  split
  · exact .refl s
  · exact h

theorem State.whenReady_keepsErrorRecord {s : State} {f : State → State} (h : s.KeepsErrorRecord (f s)) :
    s.KeepsErrorRecord (s.whenReady f) := by
  rcases s.whenReady_cases f with ⟨-, he⟩ | ⟨-, he⟩ | ⟨-, he⟩ <;> rw [he]
  · exact .refl s
  · exact ⟨rfl, rfl⟩
  · exact h

theorem State.whenInBuf_keepsErrorRecord {s : State} {a : BufAddr} {f : State → State} (h : s.KeepsErrorRecord (f s)) :
    s.KeepsErrorRecord (s.whenInBuf a f) := by
  unfold State.whenInBuf
  split
  · exact ⟨rfl, rfl⟩
  · exact h

theorem State.showBody_keepsErrorRecord (s : State) : s.KeepsErrorRecord s.showBody := by
  unfold State.showBody
  split <;> exact ⟨rfl, rfl⟩

theorem State.holdOver_keepsErrorRecord (s : State) : s.KeepsErrorRecord s.holdOver := by
  unfold State.holdOver
  split <;> exact ⟨rfl, rfl⟩

theorem State.afterLineWrite_keepsErrorRecord (s : State) : s.KeepsErrorRecord s.afterLineWrite := by
  unfold State.afterLineWrite
  split <;> exact ⟨rfl, rfl⟩

/-- No request writes the record: every way it can end at once, or make the block busy, leaves it (R703, R704). -/
theorem exec_request_keepsErrorRecord {i : Instr} {s t : State} (hi : i.isRequest = true) (h : exec i s = .next t) :
    s.KeepsErrorRecord t := by
  cases i <;> simp only [Instr.isRequest, Bool.false_eq_true] at hi <;> injection h with h <;> subst h
  case construct hgt w cb =>
    refine State.whenIdle_keepsErrorRecord ?_
    split <;> exact ⟨rfl, rfl⟩
  case showFrame =>
    have hcommit : s.KeepsErrorRecord s.commitShow := ⟨rfl, rfl⟩
    exact State.whenReady_keepsErrorRecord (hcommit.trans s.commitShow.showBody_keepsErrorRecord)
  case bwr a d => exact State.whenReady_keepsErrorRecord (State.whenInBuf_keepsErrorRecord ⟨rfl, rfl⟩)
  case brd a => exact State.whenReady_keepsErrorRecord (State.whenInBuf_keepsErrorRecord ⟨rfl, rfl⟩)
  case enc r g b => exact State.whenIdle_keepsErrorRecord ⟨rfl, rfl⟩
  case remap l => exact State.whenReady_keepsErrorRecord ⟨rfl, rfl⟩

/-- A step that finds the answer ERR is the BusError exit (R705). -/
theorem busErrorExit_of_step {s t : State} {k : Nat} {rest : List BusAnswer} (hw : s.waitsFor .bus)
    (hq : s.busAnswers = .err k :: rest) (h : step s = .next t) : t = (s.tookAnswer rest k).busErrorExit := by
  obtain ⟨hp, hf, hb⟩ := hw
  have hs : step s = settled (s.tookAnswer rest k).failWrite := by
    unfold step State.advance State.stepBus
    simp only [hp, hf, hb, hq, Bool.false_eq_true, if_false]
  obtain ⟨u, hu, ht⟩ := settled_inv (hs ▸ h)
  have hu : u = (s.tookAnswer rest k).busErrorExit := by
    unfold State.failWrite at hu
    split at hu <;> cases hu <;> rfl
  subst hu
  rw [settled_next (show (s.tookAnswer rest k).busErrorExit.fetching = false from hf)] at ht
  injection ht with ht
  exact ht.symm

/-- A step without a power-on reset and without the answer ERR leaves the record (R112, R122). -/
theorem keepsErrorRecord_of_step {s t : State} (h : step s = .next t) (hp : s.porIn = none) (hno : ¬ s.answeredErr) :
    s.KeepsErrorRecord t := by
  cases stepsTo_of_step h
  case powerOnReset k hp' _ => exact nomatch hp.symm.trans hp'
  case busError k rest hw hq _ _ => exact absurd ⟨hw, k, rest, hq⟩ hno
  case request i w rest _ _ _ hd ht _ =>
    have haccepted : s.KeepsErrorRecord (s.accepted rest) := ⟨rfl, rfl⟩
    exact haccepted.trans (exec_request_keepsErrorRecord (isRequest_of_decodeRequest hd) ht)
  case lineOk rest _ _ _ ht =>
    have hok : s.KeepsErrorRecord (s.afterOk rest) := ⟨rfl, rfl⟩
    exact ht ▸ hok.trans (s.afterOk rest).afterLineWrite_keepsErrorRecord
  case holdLow | holdHighCallback | holdHigh =>
    subst ‹t = _›
    exact s.holdOver_keepsErrorRecord.trans ⟨rfl, rfl⟩
  -- the other steps are compositions of operations none of which writes the record
  all_goals
    subst ‹t = _›
    exact ⟨rfl, rfl⟩

/-- A step of a state with a power-on reset at its input is that reset (R802). -/
theorem step_of_porIn {s : State} {k : Nat} (hp : s.porIn = some k) : step s = .next (s.powerOnReset k) := by
  unfold step
  rw [hp]

/-- Settles O54: the three kinds of step are the power-on reset, the BusError exit, and those that keep the record. -/
theorem errStickyAndFailPhase : Obligations.ErrStickyAndFailPhase := by
  intro s t h
  refine ⟨fun k hp => ?_, fun hp => ?_, t.statusReg_errSticky, t.statusReg_failPhase⟩
  · rw [step_of_porIn hp] at h
    injection h with h
    subst h
    exact ⟨rfl, rfl⟩
  · change (t.errSticky = true ↔ s.errSticky = true ∨ s.answeredErr) ∧ _
    by_cases herr : s.answeredErr
    · rw [if_pos (s.answeredErr_iff_head.1 herr)]
      obtain ⟨hw, k, rest, hq⟩ := herr
      have ht := busErrorExit_of_step hw hq h
      exact ⟨iff_of_true (ht ▸ rfl) (.inr ⟨hw, k, rest, hq⟩), ht ▸ rfl⟩
    · have hkeep := keepsErrorRecord_of_step h hp herr
      rw [if_neg (mt s.answeredErr_iff_head.2 herr), hkeep.errSticky]
      exact ⟨(or_iff_left herr).symm, hkeep.failPhase⟩

end Sys2Proof.Machine
end

section
/-! PROOFS. The request port: a reserved word is answered with IllegalRequest (R309), and requests are accepted one at a time, each answered once (R301). -/

namespace Sys2Proof.Machine

/-! ## Reserved words -/

/-- A word selected by a row has the row's pattern in every slice that the row's mask covers (R309). -/
theorem extractLsb'_of_selects {w mask pattern : HostWord} (h : selects w mask pattern = true) {lo len : Nat}
    (hm : mask.extractLsb' lo len = BitVec.allOnes len) : w.extractLsb' lo len = pattern.extractLsb' lo len := by
  rw [selects, beq_iff_eq] at h
  rw [← h, BitVec.extractLsb'_and, hm, BitVec.and_allOnes]

/-- A word that decodes has the OP of its row and no reserved bit of the row's format (R303 to R309). -/
theorem not_reservedWord_of_decodeRequest {w : HostWord} {i : Instr} (h : decodeRequest w = .ok i) :
    ¬ reservedWord w := by
  unfold decodeRequest at h
  split at h
  · next hsel => -- CONSTRUCT
    have hop : w.extractLsb' 0 4 = 1 := extractLsb'_of_selects hsel (by decide)
    have hlow : w.extractLsb' 5 3 = 0 := extractLsb'_of_selects hsel (by decide)
    have hhigh : w.extractLsb' 24 8 = 0 := extractLsb'_of_selects hsel (by decide)
    simp [reservedWord, hop, hlow, hhigh]
  split at h
  · next hsel => -- SHOW
    have hop : w.extractLsb' 0 4 = 2 := extractLsb'_of_selects hsel (by decide)
    have hhigh : w.extractLsb' 4 28 = 0 := extractLsb'_of_selects hsel (by decide)
    simp [reservedWord, hop, hhigh]
  split at h
  · next hsel => -- BWR
    have hop : w.extractLsb' 0 4 = 3 := extractLsb'_of_selects hsel (by decide)
    have hlow : w.extractLsb' 4 4 = 0 := extractLsb'_of_selects hsel (by decide)
    simp [reservedWord, hop, hlow]
  split at h
  · next hsel => -- BRD
    have hop : w.extractLsb' 0 4 = 4 := extractLsb'_of_selects hsel (by decide)
    have hlow : w.extractLsb' 4 4 = 0 := extractLsb'_of_selects hsel (by decide)
    have hhigh : w.extractLsb' 24 8 = 0 := extractLsb'_of_selects hsel (by decide)
    simp [reservedWord, hop, hlow, hhigh]
  split at h
  · next hsel => -- ENC
    have hop : w.extractLsb' 0 4 = 5 := extractLsb'_of_selects hsel (by decide)
    have hlow : w.extractLsb' 4 4 = 0 := extractLsb'_of_selects hsel (by decide)
    simp [reservedWord, hop, hlow]
  split at h
  · next hsel => -- REMAP
    have hop : w.extractLsb' 0 4 = 6 := extractLsb'_of_selects hsel (by decide)
    have hlow : w.extractLsb' 4 4 = 0 := extractLsb'_of_selects hsel (by decide)
    have hhigh : w.extractLsb' 15 17 = 0 := extractLsb'_of_selects hsel (by decide)
    simp [reservedWord, hop, hlow, hhigh]
  split at h <;> injection h

/-- An idle block answers a word that decodes to no request with IllegalRequest (R309, R706). -/
theorem step_of_undecodable {s : State} {w : HostWord} {rest : List HostWord} {e : DecodeError} (hs : s.idle)
    (hq : s.hostReqs = w :: rest) (hd : decodeRequest w = .error e) :
    step s = .next ((s.accepted rest).raise .illegalRequest) := by
  obtain ⟨⟨hp, hf, hw⟩, hb⟩ := hs
  have hhost : s.stepHost = .next ((s.accepted rest).raise .illegalRequest) := by
    unfold State.stepHost State.takeRequest
    simp only [hb, hq, hd, Bool.false_eq_true, if_false]
  unfold step State.advance
  simp only [hp, hf, hw, hhost, Bool.false_eq_true, if_false]
  exact settled_next hf

/-- Settles O14: a reserved word decodes to no request. -/
theorem reservedWordsAnswerIllegalRequest : Obligations.ReservedWordsAnswerIllegalRequest := by
  intro s w rest hs hq hres
  cases hd : decodeRequest w with
  | ok i => exact absurd hres (not_reservedWord_of_decodeRequest hd)
  | error e => exact step_of_undecodable hs hq hd

/-! ## Presented, running and answered requests -/

theorem State.busy_of_phase {s : State} {p : Phase} (hph : s.phase = p) (hp : p.busy = true) : s.busy = true := by
  rw [State.busy, hph, hp]

/-- From s to t the presented requests stay, and n more requests are running or answered. -/
structure State.AddsRequests (n : Nat) (s t : State) : Prop where
  hostReqs : t.hostReqs = s.hostReqs
  count : t.outstanding + t.responses.length = s.outstanding + s.responses.length + n

theorem State.AddsRequests.refl (s : State) : s.AddsRequests 0 s := ⟨rfl, rfl⟩

theorem State.outstanding_of_busy {s : State} (h : s.busy = true) : s.outstanding = 1 := if_pos h

theorem State.outstanding_of_idle {s : State} (h : s.busy = false) : s.outstanding = 0 := if_neg (by simp [h])

/-- A response without a change of PHASE answers one request. -/
theorem State.addsRequests_of_respond {s t : State} {w : HostWord} (hq : t.hostReqs = s.hostReqs)
    (hph : t.phase = s.phase) (hr : t.responses = s.responses ++ [w]) : s.AddsRequests 1 t where
  hostReqs := hq
  count := by
    rw [State.outstanding, State.busy_congr hph, hr, List.length_append, Nat.add_assoc]
    rfl

/-- A block that goes busy without a response runs one request. -/
theorem State.addsRequests_of_start {s t : State} (hs : s.busy = false) (ht : t.busy = true)
    (hq : t.hostReqs = s.hostReqs) (hr : t.responses = s.responses) : s.AddsRequests 1 t where
  hostReqs := hq
  count := by rw [State.outstanding_of_idle hs, State.outstanding_of_busy ht, hr]; omega

/-- A block that stays busy without a response still runs its request. -/
theorem State.addsRequests_of_running {s t : State} (hs : s.busy = true) (ht : t.busy = true)
    (hq : t.hostReqs = s.hostReqs) (hr : t.responses = s.responses) : s.AddsRequests 0 t where
  hostReqs := hq
  count := by rw [State.outstanding_of_busy hs, State.outstanding_of_busy ht, hr, Nat.add_zero]

/-- A block that ends its running request with a response has the same number running or answered. -/
theorem State.addsRequests_of_end {s t : State} {w : HostWord} (hs : s.busy = true) (ht : t.busy = false)
    (hq : t.hostReqs = s.hostReqs) (hr : t.responses = s.responses ++ [w]) : s.AddsRequests 0 t where
  hostReqs := hq
  count := by
    rw [State.outstanding_of_busy hs, State.outstanding_of_idle ht, hr, List.length_append, List.length_singleton]
    omega

theorem State.raise_addsRequests (s : State) (e : ResultCode) : s.AddsRequests 1 (s.raise e) :=
  State.addsRequests_of_respond rfl rfl rfl

theorem State.whenReady_addsRequests {s : State} {f : State → State} (hb : s.busy = false)
    (h : s.AddsRequests 1 (f s)) : s.AddsRequests 1 (s.whenReady f) := by
  rcases s.whenReady_cases f with ⟨hbusy, -⟩ | ⟨-, he⟩ | ⟨-, he⟩
  · exact absurd (hb.symm.trans hbusy) Bool.false_ne_true
  · exact he ▸ s.raise_addsRequests _
  · exact he ▸ h

theorem State.whenInBuf_addsRequests {s : State} {a : BufAddr} {f : State → State} (h : s.AddsRequests 1 (f s)) :
    s.AddsRequests 1 (s.whenInBuf a f) := by
  unfold State.whenInBuf
  split
  · exact s.raise_addsRequests _
  · exact h

/-- ShowBody starts in a busy phase, CB_SHOW or SHOW_CMD (R551). -/
theorem State.showBody_addsRequests {s : State} (hb : s.busy = false) : s.AddsRequests 1 s.showBody := by
  unfold State.showBody
  split <;> exact State.addsRequests_of_start hb rfl rfl rfl

/-- An idle block's request is answered at once, or is the one that runs (R301, R701). -/
theorem exec_request_addsRequests {i : Instr} {s t : State} (hi : i.isRequest = true) (hb : s.busy = false)
    (h : exec i s = .next t) : s.AddsRequests 1 t := by
  cases i <;> simp only [Instr.isRequest, Bool.false_eq_true] at hi <;> injection h with h <;> subst h
  case construct hgt w cb =>
    rw [State.whenIdle_of_idle hb]
    split
    · exact State.addsRequests_of_start hb rfl rfl rfl
    · exact s.raise_addsRequests _
  case showFrame =>
    have hbody := State.showBody_addsRequests (s := s.commitShow) hb
    exact State.whenReady_addsRequests hb ⟨hbody.hostReqs, hbody.count⟩
  case bwr a d =>
    exact State.whenReady_addsRequests hb (State.whenInBuf_addsRequests (State.addsRequests_of_respond rfl rfl rfl))
  case brd a =>
    exact State.whenReady_addsRequests hb (State.whenInBuf_addsRequests (State.addsRequests_of_respond rfl rfl rfl))
  case enc r g b =>
    rw [State.whenIdle_of_idle hb]
    exact State.addsRequests_of_respond rfl rfl rfl
  case remap l => exact State.whenReady_addsRequests hb (State.addsRequests_of_respond rfl rfl rfl)

@[simp] theorem State.holdOver_hostReqs (s : State) : s.holdOver.hostReqs = s.hostReqs := by
  unfold State.holdOver
  split <;> rfl

@[simp] theorem State.holdOver_responses (s : State) : s.holdOver.responses = s.responses := by
  unfold State.holdOver
  split <;> rfl

/-- After a scan line the block sends the next one, or ends the SHOW with its response (R553, R554). -/
theorem State.afterLineWrite_addsRequests {s : State} (hph : s.phase = .showLines) :
    s.AddsRequests 0 s.afterLineWrite := by
  have hb : s.busy = true := State.busy_of_phase hph rfl
  unfold State.afterLineWrite
  split
  · exact State.addsRequests_of_running hb hb rfl rfl
  · exact State.addsRequests_of_end hb rfl rfl rfl

theorem failedPhase_not_busy (k : OpKind) : (failedPhase k).busy = false := by
  cases k <;> rfl

/-- The BusError exit ends the running request with its response (R705). -/
theorem State.busErrorExit_addsRequests {s : State} (hb : s.busy = true) : s.AddsRequests 0 s.busErrorExit :=
  State.addsRequests_of_end hb (failedPhase_not_busy s.opKind) rfl rfl

/-- A step that is no power-on reset takes no request, or takes the oldest one in an idle block, which then is
running or answered (R301). -/
theorem addsRequests_of_step {s t : State} (h : step s = .next t) (hp : s.porIn = none) :
    s.AddsRequests 0 t
      ∨ (s.busy = false ∧ ∃ w rest, s.hostReqs = w :: rest ∧ (s.accepted rest).AddsRequests 1 t) := by
  cases stepsTo_of_step h
  case powerOnReset k hp' _ => exact nomatch hp.symm.trans hp'
  case resumed bytes _ _ _ ht => exact .inl (ht ▸ ⟨rfl, rfl⟩)
  case noRequest | noAck | noAnswer =>
    subst ‹t = s›
    exact .inl (.refl t)
  case request i w rest _ hb hq hd ht _ =>
    exact .inr ⟨hb, w, rest, hq, exec_request_addsRequests (isRequest_of_decodeRequest hd) (s := s.accepted rest) hb ht⟩
  case showEnable w rest _ hph hq _ _ ht =>
    have hb : s.busy = false := s.busy_eq_false_iff.2 (.inr hph)
    exact .inr ⟨hb, w, rest, hq, ht ▸ State.addsRequests_of_start (s := s.accepted rest) hb rfl rfl rfl⟩
  case illegal w rest _ hb hq _ ht => exact .inr ⟨hb, w, rest, hq, ht ▸ (s.accepted rest).raise_addsRequests _⟩
  case holdLow | holdHighCallback | holdHigh =>
    subst ‹t = _›
    exact .inl (State.addsRequests_of_running (State.busy_of_phase ‹s.phase = _› rfl) rfl s.holdOver_hostReqs
      s.holdOver_responses)
  case lineOk rest _ _ hph ht =>
    obtain ⟨hhost, hcount⟩ := State.afterLineWrite_addsRequests (s := s.afterOk rest) hph
    exact .inl (ht ▸ ⟨hhost, hcount⟩)
  case busError k rest _ _ hph ht =>
    have hb : s.busy = true := by rcases hph with hph | hph | hph <;> exact State.busy_of_phase hph rfl
    obtain ⟨hhost, hcount⟩ := State.busErrorExit_addsRequests (s := s.tookAnswer rest k) hb
    exact .inl (ht ▸ ⟨hhost, hcount⟩)
  -- the other steps go from one busy phase to the next
  all_goals
    subst ‹t = _›
    exact .inl (State.addsRequests_of_running (State.busy_of_phase ‹s.phase = _› rfl) rfl rfl rfl)

/-- Settles O34: a step takes no request, or the oldest one in an idle block. -/
theorem requestsAreAcceptedOneAtATime : Obligations.RequestsAreAcceptedOneAtATime := by
  intro s t hp h
  rcases addsRequests_of_step h hp with ⟨hhost, hcount⟩ | ⟨hb, w, rest, hq, hhost, hcount⟩
  · refine ⟨fun _ => hhost, .inl hhost, ?_⟩
    rw [hhost]
    omega
  · have hhost : t.hostReqs = rest := hhost
    have hcount : t.outstanding + t.responses.length = s.outstanding + s.responses.length + 1 := hcount
    refine ⟨fun hbusy => absurd (hb.symm.trans hbusy) Bool.false_ne_true, .inr ⟨w, hhost ▸ hq⟩, ?_⟩
    rw [hq, hhost, List.length_cons]
    omega

end Sys2Proof.Machine
end

section
/-! PROOFS. The RGB565 value: its three fields (R401), and the bijection from the channels' top bits to the 16-bit values (R402). -/

namespace Sys2Proof.Machine

/-! ## The fields of the RGB565 value -/

/-- A channel masked to its bits from k up (0xF8 for k = 3, 0xFC for k = 2) and moved up by n is the slice of
those bits, placed at k + n. -/
theorem topBits_shiftLeft (x : Byte) (k n : Nat) :
    (x.zeroExtend 16 &&& (BitVec.allOnes 8 <<< k).zeroExtend 16) <<< n
      = (x.extractLsb' k (8 - k)).setWidth 16 <<< (k + n) := by
  ext i hi
  simp only [BitVec.zeroExtend, BitVec.getElem_shiftLeft, BitVec.getElem_and, BitVec.getElem_setWidth,
    BitVec.getLsbD_shiftLeft, BitVec.getLsbD_extractLsb', BitVec.getLsbD_allOnes]
  grind

/-- A channel moved down by k is the slice of its bits from k up, placed at 0. -/
theorem topBits_ushiftRight (x : Byte) (k : Nat) :
    x.zeroExtend 16 >>> k = (x.extractLsb' k (8 - k)).setWidth 16 := by
  ext i hi
  simp only [BitVec.zeroExtend, BitVec.getElem_ushiftRight, BitVec.getElem_setWidth, BitVec.getLsbD_setWidth,
    BitVec.getLsbD_extractLsb']
  grind

/-- The three terms of R400 occupy disjoint bits: the value is the top bits of r, g and b side by side (R401). -/
theorem encodeRgb565_eq_append (r g b : Byte) :
    encodeRgb565 r g b = r.extractLsb' 3 5 ++ g.extractLsb' 2 6 ++ b.extractLsb' 3 5 := by
  have hr : (r.zeroExtend 16 &&& 0xF8) <<< 8 = (r.extractLsb' 3 5).setWidth 16 <<< (6 + 5) :=
    topBits_shiftLeft r 3 8
  have hg : (g.zeroExtend 16 &&& 0xFC) <<< 3 = (g.extractLsb' 2 6).setWidth 16 <<< 5 :=
    topBits_shiftLeft g 2 3
  have hb : b.zeroExtend 16 >>> 3 = (b.extractLsb' 3 5).setWidth 16 := topBits_ushiftRight b 3
  rw [encodeRgb565, hr, hg, hb, ← BitVec.setWidth_append_append_eq_shiftLeft_setWidth_or]
  exact BitVec.setWidth_eq _

theorem encodeRgb565_red (r g b : Byte) : (encodeRgb565 r g b).extractLsb' 11 5 = r.extractLsb' 3 5 := by
  rw [encodeRgb565_eq_append]
  exact (BitVec.extractLsb'_append_eq_of_le (by decide)).trans BitVec.extractLsb'_append_eq_left

theorem encodeRgb565_green (r g b : Byte) : (encodeRgb565 r g b).extractLsb' 5 6 = g.extractLsb' 2 6 := by
  rw [encodeRgb565_eq_append]
  exact (BitVec.extractLsb'_append_eq_of_le (by decide)).trans BitVec.extractLsb'_append_eq_right

theorem encodeRgb565_blue (r g b : Byte) : (encodeRgb565 r g b).extractLsb' 0 5 = b.extractLsb' 3 5 := by
  rw [encodeRgb565_eq_append]
  exact BitVec.extractLsb'_append_eq_right

/-- Settles O16: the value is the three fields side by side. -/
theorem encBitLayout : Obligations.EncBitLayout := fun r g b =>
  ⟨encodeRgb565_red r g b, encodeRgb565_green r g b, encodeRgb565_blue r g b⟩

/-! ## The bijection -/

/-- Two values are equal exactly when their three fields are (R402). -/
theorem encodeRgb565_inj {r g b r' g' b' : Byte} : encodeRgb565 r g b = encodeRgb565 r' g' b' ↔
    r.extractLsb' 3 5 = r'.extractLsb' 3 5 ∧ g.extractLsb' 2 6 = g'.extractLsb' 2 6
      ∧ b.extractLsb' 3 5 = b'.extractLsb' 3 5 := by
  constructor
  · intro h
    rw [← encodeRgb565_red r g b, ← encodeRgb565_green r g b, ← encodeRgb565_blue r g b, h]
    exact encBitLayout r' g' b'
  · rintro ⟨hr, hg, hb⟩
    rw [encodeRgb565_eq_append, encodeRgb565_eq_append, hr, hg, hb]

/-- The channels whose top bits are the fields of v, and whose low bits are 0, have the value v (R402). -/
theorem encodeRgb565_of_fields (v : BitVec 16) :
    encodeRgb565 (v.extractLsb' 11 5 ++ 0#3) (v.extractLsb' 5 6 ++ 0#2) (v.extractLsb' 0 5 ++ 0#3) = v := by
  calc encodeRgb565 (v.extractLsb' 11 5 ++ 0#3) (v.extractLsb' 5 6 ++ 0#2) (v.extractLsb' 0 5 ++ 0#3)
      = v.extractLsb' 11 5 ++ v.extractLsb' 5 6 ++ v.extractLsb' 0 5 := by
        rw [encodeRgb565_eq_append, BitVec.extractLsb'_append_eq_left, BitVec.extractLsb'_append_eq_left,
          BitVec.extractLsb'_append_eq_left]
    _ = v.extractLsb' 5 11 ++ v.extractLsb' 0 5 := by
        rw [BitVec.extractLsb'_append_extractLsb'_eq_extractLsb' (show 11 = 5 + 6 from rfl)]
    _ = v := BitVec.extractLsb'_append_extractLsb'

/-- Settles O17: the three fields determine the value, and any three fields are some channels'. -/
theorem encDependsOnTopBitsOnly : Obligations.EncDependsOnTopBitsOnly :=
  ⟨fun _ _ _ _ _ _ => encodeRgb565_inj, fun v => ⟨_, _, _, encodeRgb565_of_fields v⟩⟩

end Sys2Proof.Machine
end

section
/-! PROOFS. CONSTRUCT: the refusal of an illegal geometry (R451), and the commit with the first level of the reset pulse (R452, R454). -/

namespace Sys2Proof.Machine

/-- The check of R451 in words: one of the two panel heights, and a width that is not 0. -/
theorem legalConfig_iff {h w : Byte} : legalConfig h w = true ↔ (h = 96 ∨ h = 128) ∧ w ≠ 0 := by
  simp [legalConfig]

/-- An error response is the record of R701: LAST_RC and the zero-extended result code. -/
theorem State.raise_eq_errored (s : State) (e : ResultCode) : s.raise e = s.errored e (errorWord e) := rfl

theorem exec_construct_of_illegal {h w : Byte} {s : State} (hidle : s.busy = false) (hbad : ¬ legalConfig h w = true)
    (cb : Bool) : exec (.construct h w cb) s = .next (s.raise .configurationError) := by
  have hexec : exec (.construct h w cb) s = execConstruct h w cb s := rfl
  rw [hexec, execConstruct, State.whenIdle_of_idle hidle, if_neg hbad]

theorem exec_construct_of_legal {h w : Byte} {s : State} (hidle : s.busy = false) (hok : legalConfig h w = true)
    (cb : Bool) : exec (.construct h w cb) s
      = .next (((s.commitConstruct h w cb).goTo .rstLo).drive .res false).startHold := by
  have hexec : exec (.construct h w cb) s = execConstruct h w cb s := rfl
  rw [hexec, execConstruct, State.whenIdle_of_idle hidle, if_pos hok]

/-- Settles O29: the check fails, and ConfigurationError (code 1) is the whole effect. -/
theorem constructRefusesIllegalGeometry : Obligations.ConstructRefusesIllegalGeometry := by
  intro h w cb s hidle hbad
  have hillegal : ¬ legalConfig h w = true := by
    rw [legalConfig_iff]
    rintro ⟨hheight, hwidth⟩
    rcases hbad with ⟨h96, h128⟩ | hzero
    · exact hheight.elim h96 h128
    · exact hwidth hzero
  have hcode : errorWord .configurationError = 1 := rfl
  rw [exec_construct_of_illegal hidle hillegal, State.raise_eq_errored, hcode]

/-- Settles O30: the commit lists nothing in BUF, so every address reads 0, and the pulse's first acts add the
two events. -/
theorem constructCommitsAndPullsResetLow : Obligations.ConstructCommitsAndPullsResetLow := by
  intro h w cb s hidle hheight hwidth
  refine ⟨_, exec_construct_of_legal hidle (legalConfig_iff.2 ⟨hheight, hwidth⟩) cb, ?next, ?zeroed, ?size⟩
  case next =>
    have htrace : (s.trace ++ [.pin .res false]) ++ [.delay] = s.trace ++ [.pin .res false, .delay] :=
      List.append_assoc _ _ _
    simp only [State.startHold, State.drive, State.goTo, State.commitConstruct, htrace]
  case zeroed => exact Memory.read_nil
  case size => rfl

end Sys2Proof.Machine
end

section
/-! PROOFS. The RowRemapper: RemapRow segment by segment (R500), its gate-level form (R507), the two row mappings (R502, R503), and that the row ranges cover the buffer and stay inside it (R504). -/

namespace Sys2Proof.Machine

/-! ## RemapRow, segment by segment -/

theorem remapRow_h128_cast (l : Nat) : (remapRow .h128 l : Int) = (95 - (l : Int)) % 128 :=
  Int.toNat_of_nonneg (Int.emod_nonneg _ (by decide))

theorem remapRow_h128_head {l : Nat} (hl : l < 96) : remapRow .h128 l = 95 - l := by
  have hrow := remapRow_h128_cast l
  omega

theorem remapRow_h128_tail {l : Nat} (hfrom : 96 ≤ l) (hl : l < 128) : remapRow .h128 l = 223 - l := by
  have hrow := remapRow_h128_cast l
  omega

/-- Reversal, then rotation by 96 (R502). -/
theorem remapRow_h128_eq_rotated_reversal {l : Nat} (hl : l < 128) : remapRow .h128 l = ((127 - l) + 96) % 128 := by
  have hrow := remapRow_h128_cast l
  omega

theorem remapRow_h96_head {l : Nat} (hl : l < 64) : remapRow .h96 l = 63 - l := if_pos hl

theorem remapRow_h96_dead {l : Nat} (hfrom : 64 ≤ l) (hl : l < 96) : remapRow .h96 l = 0 :=
  (if_neg (Nat.not_lt.2 hfrom)).trans (if_pos hl)

/-- The tail is the formula's, not the prose's (R505). -/
theorem remapRow_h96_tail {l : Nat} (hfrom : 96 ≤ l) : remapRow .h96 l = 191 - l :=
  (if_neg (Nat.not_lt.2 (Nat.le_trans (by decide) hfrom))).trans (if_neg (Nat.not_lt.2 hfrom))

/-- Every scan line sends a row of its geometry (R504). -/
theorem remapRow_lt_geometryRows (g : Geometry) {l : Nat} (hl : l < 128) : remapRow g l < geometryRows g := by
  cases g with
  | h128 =>
    rw [remapRow_h128_eq_rotated_reversal hl]
    exact Nat.mod_lt _ (by decide)
  | h96 =>
    change remapRow .h96 l < 96
    rcases Nat.lt_or_ge l 64 with hhead | hfrom
    · rw [remapRow_h96_head hhead]; omega
    · rcases Nat.lt_or_ge l 96 with hdead | htail
      · rw [remapRow_h96_dead hfrom hdead]; decide
      · rw [remapRow_h96_tail htail]; omega

/-- Every row of a geometry is sent: in each segment the scan line mirrors the row (R504). -/
theorem exists_remapRow_eq (g : Geometry) {row : Nat} (hrow : row < geometryRows g) :
    ∃ l, l < 128 ∧ remapRow g l = row := by
  cases g with
  | h128 =>
    change row < 128 at hrow
    rcases Nat.lt_or_ge row 96 with hlow | hhigh
    · exact ⟨95 - row, by omega, by rw [remapRow_h128_head (by omega)]; omega⟩
    · exact ⟨223 - row, by omega, by rw [remapRow_h128_tail (by omega) (by omega)]; omega⟩
  | h96 =>
    change row < 96 at hrow
    rcases Nat.lt_or_ge row 64 with hlow | hhigh
    · exact ⟨63 - row, by omega, by rw [remapRow_h96_head (by omega)]; omega⟩
    · exact ⟨191 - row, by omega, by rw [remapRow_h96_tail (by omega)]; omega⟩

/-! ## Row offsets and row ranges -/

/-- The bytes of a scan line are read from its row's offset on (R500, R206). -/
theorem State.rowBytes_eq_map_readBuf (s : State) (l : Nat) : s.rowBytes l = (List.range (2 * s.cfgWidth.toNat)).map
    fun i => s.readBuf (rowOffset s.geometry s.cfgWidth.toNat l + i) := rfl

/-- A row range ends where the next row begins (R500). -/
theorem rowOffset_add_lineBytes (g : Geometry) (w l : Nat) : rowOffset g w l + 2 * w = 2 * w * (remapRow g l + 1) := by
  unfold rowOffset
  ring

/-- A row range ends inside the buffer of its geometry (R504). -/
theorem rowOffset_add_lineBytes_le (g : Geometry) (w : Nat) {l : Nat} (hl : l < 128) :
    rowOffset g w l + 2 * w ≤ 2 * w * geometryRows g := by
  rw [rowOffset_add_lineBytes]
  exact Nat.mul_le_mul_left _ (remapRow_lt_geometryRows g hl)

theorem geometryRows_le (g : Geometry) : geometryRows g ≤ 128 := by cases g <;> decide

/-- The row is at most 127 and the width at most 255 (R507). -/
theorem rowOffset_le (g : Geometry) (w : BitVec 8) {l : Nat} (hl : l < 128) : rowOffset g w.toNat l ≤ 64770 := by
  have hrow : remapRow g l ≤ 127 := Nat.le_of_lt_succ ((remapRow_lt_geometryRows g hl).trans_le (geometryRows_le g))
  have hwidth : w.toNat ≤ 255 := Nat.le_of_lt_succ w.isLt
  calc rowOffset g w.toNat l ≤ 127 * 2 * 255 := Nat.mul_le_mul (Nat.mul_le_mul_right 2 hrow) hwidth
    _ = 64770 := rfl

/-- A legal height is the number of rows of its geometry (R10, R103). -/
theorem geometryRows_geometryOf {h w : Byte} (hlegal : legalConfig h w = true) :
    geometryRows (geometryOf h) = h.toNat := by
  obtain ⟨rfl | rfl, -⟩ := legalConfig_iff.1 hlegal <;> rfl

/-- Settles O28: the height is the number of rows, each of them is sent, and no range passes the last one. -/
theorem rowsStayInsideTheBuffer : Obligations.RowsStayInsideTheBuffer := by
  intro h w hlegal
  rw [← geometryRows_geometryOf hlegal]
  exact ⟨fun l hl => ⟨remapRow_lt_geometryRows _ hl, rowOffset_add_lineBytes_le _ _ hl⟩,
    fun row hrow => exists_remapRow_eq _ hrow⟩

/-- Settles O24, by the segment lemmas. -/
theorem remapRowFormulas : Obligations.RemapRowFormulas := fun l _ =>
  ⟨remapRow_h128_cast l, remapRow_h96_head, fun ⟨hfrom, hl⟩ => remapRow_h96_dead hfrom hl, remapRow_h96_tail,
    fun _ _ => rfl, fun s => s.rowBytes_eq_map_readBuf l⟩

/-! ## The gate-level form -/

/-- The 7-bit subtraction wraps exactly as the formula's modulus does (R507). -/
theorem remapRowGates_h128 (l : BitVec 7) : (remapRowGates .h128 l).toNat = remapRow .h128 l.toNat := by
  have hsub : (remapRowGates .h128 l).toNat = (128 - l.toNat + 95) % 128 := BitVec.toNat_sub _ _
  have hl : l.toNat < 128 := l.isLt
  rw [hsub, remapRow_h128_eq_rotated_reversal hl]
  omega

/-- Complementing the low n bits counts down from 2^n - 1. -/
theorem toNat_not_extractLsb'_zero {k : Nat} (l : BitVec k) (n : Nat) :
    (~~~ l.extractLsb' 0 n).toNat = 2 ^ n - 1 - l.toNat % 2 ^ n := by
  rw [BitVec.toNat_not, BitVec.extractLsb'_toNat, Nat.shiftRight_zero]

theorem getLsbD_eq_false_iff {k : Nat} (l : BitVec k) (i : Nat) : l.getLsbD i = false ↔ l.toNat / 2 ^ i % 2 = 0 := by
  rw [BitVec.getLsbD, Nat.testBit_eq_decide_div_mod_eq, decide_eq_false_iff_not, Nat.mod_two_not_eq_one]

/-- The bits 6 and 5 of the scan line tell the three segments apart (R507). -/
theorem remapRowGates_h96 (l : BitVec 7) : (remapRowGates .h96 l).toNat = remapRow .h96 l.toNat := by
  have hl : l.toNat < 128 := l.isLt
  have hbit6 := getLsbD_eq_false_iff l 6
  have hbit5 := getLsbD_eq_false_iff l 5
  simp only [remapRowGates]
  split
  case isTrue h6 =>
    have hhead : l.toNat < 64 := by have := hbit6.1 h6; omega
    rw [BitVec.zeroExtend, BitVec.toNat_setWidth_of_le (by decide), toNat_not_extractLsb'_zero, remapRow_h96_head hhead]
    omega
  case isFalse h6 =>
    have hfrom : 64 ≤ l.toNat := by have := mt hbit6.2 h6; omega
    split
    case isTrue h5 =>
      rw [remapRow_h96_dead hfrom (by have := hbit5.1 h5; omega)]
      rfl
    case isFalse h5 =>
      have htail : 96 ≤ l.toNat := by have := mt hbit5.2 h5; omega
      have htop : (2 : BitVec 2).toNat = 2 := rfl
      rw [BitVec.toNat_append, ← Nat.shiftLeft_add_eq_or_of_lt (BitVec.isLt _), toNat_not_extractLsb'_zero, htop,
        remapRow_h96_tail htail]
      omega

/-- Settles O25: the two gate-level equations, and the bound on the offset. -/
theorem remapGatesAgree : Obligations.RemapGatesAgree := by
  refine ⟨fun g l => ⟨?gates, fun w => rowOffset_le g w l.isLt⟩, rfl⟩
  case gates =>
    cases g with
    | h128 => exact remapRowGates_h128 l
    | h96 => exact remapRowGates_h96 l

/-! ## The row mappings -/

/-- A mapping is the rows of the first a scan lines, then those of the b others. -/
theorem rowMapping_eq_append (g : Geometry) {a b : Nat} (hab : nScan = a + b) :
    rowMapping g = (List.range a).map (remapRow g) ++ (List.range b).map fun i => remapRow g (a + i) := by
  rw [rowMapping, hab, List.range_add, List.map_append, List.map_map]
  rfl

theorem rowMapping_h128 : rowMapping .h128 = (List.range 96).map (95 - ·) ++ (List.range 32).map (127 - ·) := by
  rw [rowMapping_eq_append .h128 (show nScan = 96 + 32 from rfl)]
  refine congrArg₂ (· ++ ·) ?head ?tail
  case head => exact List.map_congr_left fun l hl => remapRow_h128_head (List.mem_range.1 hl)
  case tail =>
    refine List.map_congr_left fun i hi => ?_
    have hi := List.mem_range.1 hi
    rw [remapRow_h128_tail (by omega) (by omega)]
    omega

theorem rowMapping_h96 :
    rowMapping .h96 = (List.range 64).map (63 - ·) ++ List.replicate 32 0 ++ (List.range 32).map (95 - ·) := by
  have hdead : (List.range 32).map (fun i => remapRow .h96 (64 + i)) = List.replicate 32 0 :=
    List.eq_replicate_iff.2 ⟨by simp, by
      simp only [List.mem_map, List.mem_range]
      rintro _ ⟨i, hi, rfl⟩
      exact remapRow_h96_dead (by omega) (by omega)⟩
  rw [rowMapping_eq_append .h96 (show nScan = 64 + 32 + 32 from rfl), List.range_add, List.map_append, List.map_map]
  refine congrArg₂ (· ++ ·) (congrArg₂ (· ++ ·) ?head hdead) ?tail
  case head => exact List.map_congr_left fun l hl => remapRow_h96_head (List.mem_range.1 hl)
  case tail =>
    refine List.map_congr_left fun i _ => ?_
    rw [remapRow_h96_tail (by omega)]
    omega

/-- A run that counts n rows down from a holds each of them once and no other. -/
theorem count_map_range_sub (a row : Nat) {n : Nat} (hn : n ≤ a + 1) :
    ((List.range n).map (a - ·)).count row = if row ≤ a ∧ a < row + n then 1 else 0 := by
  induction n with
  | zero => exact (if_neg (by omega)).symm
  | succ n ih =>
    rw [List.range_succ, List.map_append, List.count_append, ih (by omega), List.map_singleton, List.count_singleton]
    simp only [beq_iff_eq]
    split_ifs <;> omega

/-- Settles O26: the two countdowns share no row and together hold all 128. -/
theorem h128MappingIsBijection : Obligations.H128MappingIsBijection := by
  refine ⟨rowMapping_h128, fun row hrow => ?once, fun l hl => remapRow_h128_eq_rotated_reversal hl⟩
  case once =>
    rw [rowMapping_h128, List.count_append, count_map_range_sub 95 row (by decide),
      count_map_range_sub 127 row (by decide)]
    split_ifs <;> omega

/-- How often the H96 mapping sends a row, by segment (R503). -/
theorem rowMapping_h96_count (row : Nat) : (rowMapping .h96).count row
    = (if row ≤ 63 then 1 else 0) + (if row = 0 then 32 else 0) + (if 64 ≤ row ∧ row ≤ 95 then 1 else 0) := by
  rw [rowMapping_h96, List.count_append, List.count_append, List.count_replicate,
    count_map_range_sub 63 row (by decide), count_map_range_sub 95 row (by decide)]
  simp only [beq_iff_eq]
  split_ifs <;> omega

/-- Settles O27: row 0 is in the first segment and in the dead band, every other row in one segment only. -/
theorem h96MappingSegments : Obligations.H96MappingSegments := by
  refine ⟨rowMapping_h96, rowMapping_h96_count 0, fun row hfrom hrow => ?once⟩
  case once =>
    rw [rowMapping_h96_count]
    split_ifs <;> omega

end Sys2Proof.Machine
end

section
/-! PROOFS. Bus framing: a block that waits for the transport, with requests presented (R606). -/

namespace Sys2Proof.Machine

/-- Presented requests queue up in the host's mailbox in order, and that is their whole effect (R301). -/
theorem State.foldl_present (s : State) (ws : List HostWord) :
    ws.foldl (fun t w => t.agent (.present w)) s = { s with hostReqs := s.hostReqs ++ ws } := by
  induction ws generalizing s with
  | nil => rw [List.foldl_nil, List.append_nil]
  | cons w ws ih =>
    rw [List.foldl_cons, ih, ← List.singleton_append, ← List.append_assoc]
    rfl

/-- Settles O45: requests fill the host's mailbox only, so the block still waits for an answer, and its step leaves it
as it is. -/
theorem silentTransportHangs : Obligations.SilentTransportHangs := by
  intro s ws n hwaits hsilent
  rw [s.foldl_present ws]
  have hstep : step { s with hostReqs := s.hostReqs ++ ws } = .next { s with hostReqs := s.hostReqs ++ ws } :=
    step_of_noAnswer hwaits hsilent
  exact runs_of_waits hstep n

end Sys2Proof.Machine
end

section
/-! PROOFS. The init ROM: its length, and where the grayscale LUT's arguments stand in it (R650, R671). -/

namespace Sys2Proof.Machine

@[simp] theorem initRomHead_length : initRomHead.length = 16 := rfl

@[simp] theorem initRomTail_length : initRomTail.length = 15 := rfl

@[simp] theorem initLut_length : initLut.length = 25 := by
  rw [initLut, List.length_map, List.length_range]

/-- Sixteen bytes of head, the LUT's opcode and 25 arguments, and fifteen bytes of tail. -/
theorem initRom_length : initRom.length = 57 := by
  simp [initRom]

/-- R671's formula for the LUT's arguments. -/
theorem initLut_getElem? {i : Nat} (hi : i < 25) : initLut[i]? = some (BitVec.ofNat 8 (1 + 5 * i)) := by
  rw [initLut, List.getElem?_map, List.getElem?_range hi, Option.map_some]

/-- The LUT's arguments begin at ROM index 17, behind the head and the opcode byte. -/
theorem initRom_getElem?_lut {i : Nat} (hi : i < 25) : initRom[17 + i]? = initLut[i]? := by
  have hbeforeTail : 17 + i < (initRomHead ++ 0xB8 :: initLut).length := by simp; omega
  have hafterHead : initRomHead.length ≤ 17 + i := by simp; omega
  have hoffset : 17 + i - initRomHead.length = i + 1 := by simp; omega
  rw [initRom, List.getElem?_append_left hbeforeTail, List.getElem?_append_right hafterHead, hoffset,
    List.getElem?_cons_succ]

/-- Settles O5: the listed bytes by evaluation, the LUT's bytes by their place in the ROM. -/
theorem initRomIsTheFixedStream : Obligations.InitRomIsTheFixedStream := by
  refine ⟨?bytes, initRom_length, fun i hi => ?lut⟩
  case bytes => rfl
  case lut => rw [initRom_getElem?_lut hi, initLut_getElem? hi]

end Sys2Proof.Machine
end

section
/-! PROOFS. The power-on reset of a running machine (R800, R802): what was observed stays, and each group of registers and the lines go to their reset values. -/

namespace Sys2Proof.Machine

/-- No event and no response is added, and what is fixed for a run stays (R802). -/
theorem State.powerOnReset_keepsObserved (s : State) (k : Nat) :
    (s.powerOnReset k).trace = s.trace ∧ (s.powerOnReset k).responses = s.responses
      ∧ (s.powerOnReset k).params = s.params ∧ (s.powerOnReset k).rom = s.rom := ⟨rfl, rfl, rfl, rfl⟩

/-- The geometry and the callback enable are those of an unconfigured block (R800). -/
theorem State.powerOnReset_configuration (s : State) (k : Nat) :
    (s.powerOnReset k).cfgHeight = 0 ∧ (s.powerOnReset k).cfgWidth = 0 ∧ (s.powerOnReset k).cfgCbEn = false :=
  ⟨rfl, rfl, rfl⟩

/-- The abandoned request leaves nothing of its progress: the block waits for the host in UNCONF (R800, R802). -/
theorem State.powerOnReset_sequencer (s : State) (k : Nat) :
    (s.powerOnReset k).phase = .unconf ∧ (s.powerOnReset k).wait = .host ∧ (s.powerOnReset k).opKind = .construct
      ∧ (s.powerOnReset k).initIdx = 0 ∧ (s.powerOnReset k).line = 0 := ⟨rfl, rfl, rfl, rfl, rfl⟩

/-- The reset clears the record of earlier requests, errors included (R800). -/
theorem State.powerOnReset_status (s : State) (k : Nat) :
    (s.powerOnReset k).lastRc = .ok ∧ (s.powerOnReset k).errSticky = false ∧ (s.powerOnReset k).failPhase = 0 :=
  ⟨rfl, rfl, rfl⟩

/-- The lines go straight to their reset levels, which the parameters of R9 fix for CS and DC (R802). -/
theorem State.powerOnReset_lines (s : State) (k : Nat) :
    (s.powerOnReset k).res = true ∧ (s.powerOnReset k).cs = (!s.params.csSelectLevel)
      ∧ (s.powerOnReset k).dc = s.params.dcCmdLevel := ⟨rfl, rfl, rfl⟩

/-- Settles O10: with the reset input asserted, whatever the block was doing, its step is the power-on reset
(`step_of_porIn`); the five lemmas above say what that does. -/
theorem powerOnResetAbandonsTheRequest : Obligations.PowerOnResetAbandonsTheRequest := by
  intro s k hp
  obtain ⟨htrace, hresponses, hparams, hrom⟩ := s.powerOnReset_keepsObserved k
  exact ⟨s.powerOnReset k, step_of_porIn hp, htrace, hresponses, hparams, hrom, s.powerOnReset_configuration k,
    s.powerOnReset_sequencer k, s.powerOnReset_status k, s.powerOnReset_lines k⟩

end Sys2Proof.Machine
end

section
/-! PROOFS. The encodings: an encoded instruction decodes to itself, a request word decodes unless it is reserved, and the assembler's words are the request words (R302 to R309, R326, R330). -/

namespace Sys2Proof.Machine

/-! ## Init commands -/

/-- The 25 argument bytes of the grayscale LUT are taken off whatever follows them (R662). -/
theorem lutCommand_append {lut : List Byte} (h : lut.length = lutArguments) (rest : List Byte) :
    lutCommand (lut ++ rest) = .ok (.grayscaleLut lut) := by
  have hle : lutArguments ≤ (lut ++ rest).length := by rw [List.length_append, h]; exact Nat.le_add_right _ _
  rw [lutCommand, if_pos hle, List.take_left' h]

/-- The decoder reads an init command off the head of a byte stream (R326). -/
theorem decodeCommand_commandBytes_append (p : Params) {i : Instr} (hwf : i.wellFormed = true)
    (hi : isInitCommand i) (rest : List Byte) : decodeCommand (commandBytes p i ++ rest) = .ok i := by
  obtain ⟨hreq, hne⟩ := hi
  cases i <;> simp only [Instr.isRequest, reduceCtorEq] at hreq
  case enableDataWrite => exact absurd rfl hne
  case grayscaleLut lut => exact lutCommand_append (beq_iff_eq.1 hwf) rest
  -- the other opcodes have a fixed number of bytes, all of them written out
  all_goals rfl

/-- Settles O4. -/
theorem initCommandLengthFromOpcode : Obligations.InitCommandLengthFromOpcode :=
  fun p _ rest hwf hreq hne => decodeCommand_commandBytes_append p hwf ⟨hreq, hne⟩ rest

/-! ## Request words -/

/-- The mask and the pattern of a row, cut as its format is: a word selects the row when the slices agree. -/
theorem selects_of_and {w mask mask' pattern : HostWord} (hm : mask = mask') (h : w &&& mask' = pattern) :
    selects w mask pattern = true := by
  rw [selects, hm, h, beq_self_eq_true]

/-- A word with another OP selects no row whose mask covers the OP field (R309). -/
theorem not_selects_of_op {w mask pattern : HostWord} (hm : mask.extractLsb' 0 4 = BitVec.allOnes 4)
    (hop : w.extractLsb' 0 4 ≠ pattern.extractLsb' 0 4) : ¬ selects w mask pattern = true :=
  fun h => hop (extractLsb'_of_selects h hm)

theorem selects_construct (h w : Byte) (cb : Bool) :
    selects (requestWord (.construct h w cb)) 0xFF0000EF 0x00000001 = true := by
  have hand : (0#8 ++ w ++ h ++ 0#3 ++ BitVec.ofBool cb ++ 1#4
      &&& BitVec.allOnes 8 ++ 0#8 ++ 0#8 ++ BitVec.allOnes 3 ++ 0#1 ++ BitVec.allOnes 4) = (0x00000001 : BitVec 32) := by
    simp only [BitVec.and_append]
    simp
  exact selects_of_and (by decide) hand

theorem selects_bwr (a : BufAddr) (d : Byte) : selects (requestWord (.bwr a d)) 0x000000FF 0x00000003 = true := by
  have hand : (d ++ a ++ 3#8 &&& 0#8 ++ 0#16 ++ BitVec.allOnes 8) = (0x00000003 : BitVec 32) := by
    simp only [BitVec.and_append]
    simp
  exact selects_of_and (by decide) hand

theorem selects_brd (a : BufAddr) : selects (requestWord (.brd a)) 0xFF0000FF 0x00000004 = true := by
  have hand : (0#8 ++ a ++ 4#8 &&& BitVec.allOnes 8 ++ 0#16 ++ BitVec.allOnes 8) = (0x00000004 : BitVec 32) := by
    simp only [BitVec.and_append]
    simp
  exact selects_of_and (by decide) hand

theorem selects_enc (r g b : Byte) : selects (requestWord (.enc r g b)) 0x000000FF 0x00000005 = true := by
  have hand : (b ++ g ++ r ++ 5#8 &&& 0#8 ++ 0#8 ++ 0#8 ++ BitVec.allOnes 8) = (0x00000005 : BitVec 32) := by
    simp only [BitVec.and_append]
    simp
  exact selects_of_and (by decide) hand

theorem selects_remap (l : BitVec 7) : selects (requestWord (.remap l)) 0xFFFF80FF 0x00000006 = true := by
  have hand : (0#17 ++ l ++ 6#8 &&& BitVec.allOnes 17 ++ 0#7 ++ BitVec.allOnes 8) = (0x00000006 : BitVec 32) := by
    simp only [BitVec.and_append]
    simp
  exact selects_of_and (by decide) hand

/-- The OP of a request word is in its low four bits, whatever its operands are (R300). -/
theorem op_of_append {n : Nat} (x : BitVec n) (y : Byte) : (x ++ y).extractLsb' 0 4 = y.extractLsb' 0 4 :=
  BitVec.extractLsb'_append_eq_of_add_le (by decide)

/-- A slice that begins above the low part of a word is a slice of the high part. -/
theorem slice_of_high {n m : Nat} (x : BitVec n) (y : BitVec m) {lo k len : Nat} (h : lo = m + k) :
    (x ++ y).extractLsb' lo len = x.extractLsb' k len := by
  rw [BitVec.extractLsb'_append_eq_of_le (by omega), h, Nat.add_sub_cancel_left]

/-- A one-bit field is the bit above the part that follows it. -/
theorem flag_above {n m : Nat} (x : BitVec n) (b : Bool) (y : BitVec m) :
    (x ++ BitVec.ofBool b ++ y).getLsbD m = b := by
  rw [BitVec.getLsbD_append, BitVec.getLsbD_append]
  simp

theorem decodeRequest_construct (h w : Byte) (cb : Bool) :
    decodeRequest (requestWord (.construct h w cb)) = .ok (.construct h w cb) := by
  have hhigh : ∀ k len, (requestWord (.construct h w cb)).extractLsb' (8 + k) len = (0#8 ++ w ++ h).extractLsb' k len :=
    fun k len => (slice_of_high (k := 4 + k) _ 1#4 (by omega)).trans <|
      (slice_of_high (k := 3 + k) _ (BitVec.ofBool cb) (by omega)).trans (slice_of_high _ 0#3 rfl)
  have hh : field 8 8 (requestWord (.construct h w cb)) = h := (hhigh 0 8).trans BitVec.extractLsb'_append_eq_right
  have hw : field 16 8 (requestWord (.construct h w cb)) = w :=
    (hhigh 8 8).trans <| (slice_of_high _ h rfl).trans BitVec.extractLsb'_append_eq_right
  have hcb : (requestWord (.construct h w cb)).getLsbD 4 = cb := flag_above (0#8 ++ w ++ h ++ 0#3) cb 1#4
  rw [decodeRequest, if_pos (selects_construct h w cb), hh, hw, hcb]

theorem decodeRequest_showFrame : decodeRequest (requestWord .showFrame) = .ok .showFrame := by decide

theorem decodeRequest_bwr (a : BufAddr) (d : Byte) : decodeRequest (requestWord (.bwr a d)) = .ok (.bwr a d) := by
  have hop : (requestWord (.bwr a d)).extractLsb' 0 4 = 3 := op_of_append (d ++ a) 3
  have ha : field 8 16 (requestWord (.bwr a d)) = a :=
    (slice_of_high (d ++ a) 3#8 rfl).trans BitVec.extractLsb'_append_eq_right
  have hd : field 24 8 (requestWord (.bwr a d)) = d :=
    (slice_of_high (d ++ a) 3#8 rfl).trans BitVec.extractLsb'_append_eq_left
  rw [decodeRequest, if_neg (not_selects_of_op (by decide) (by rw [hop]; decide)),
    if_neg (not_selects_of_op (by decide) (by rw [hop]; decide)), if_pos (selects_bwr a d), ha, hd]

theorem decodeRequest_brd (a : BufAddr) : decodeRequest (requestWord (.brd a)) = .ok (.brd a) := by
  have hop : (requestWord (.brd a)).extractLsb' 0 4 = 4 := op_of_append (0#8 ++ a) 4
  have ha : field 8 16 (requestWord (.brd a)) = a :=
    (slice_of_high (0#8 ++ a) 4#8 rfl).trans BitVec.extractLsb'_append_eq_right
  rw [decodeRequest, if_neg (not_selects_of_op (by decide) (by rw [hop]; decide)),
    if_neg (not_selects_of_op (by decide) (by rw [hop]; decide)),
    if_neg (not_selects_of_op (by decide) (by rw [hop]; decide)), if_pos (selects_brd a), ha]

theorem decodeRequest_enc (r g b : Byte) : decodeRequest (requestWord (.enc r g b)) = .ok (.enc r g b) := by
  have hop : (requestWord (.enc r g b)).extractLsb' 0 4 = 5 := op_of_append (b ++ g ++ r) 5
  have hr : field 8 8 (requestWord (.enc r g b)) = r :=
    (slice_of_high (b ++ g ++ r) 5#8 rfl).trans BitVec.extractLsb'_append_eq_right
  have hg : field 16 8 (requestWord (.enc r g b)) = g :=
    (slice_of_high (b ++ g ++ r) 5#8 rfl).trans <| (slice_of_high (b ++ g) r rfl).trans BitVec.extractLsb'_append_eq_right
  have hb : field 24 8 (requestWord (.enc r g b)) = b :=
    (slice_of_high (b ++ g ++ r) 5#8 rfl).trans <| (slice_of_high (b ++ g) r rfl).trans BitVec.extractLsb'_append_eq_left
  rw [decodeRequest, if_neg (not_selects_of_op (by decide) (by rw [hop]; decide)),
    if_neg (not_selects_of_op (by decide) (by rw [hop]; decide)),
    if_neg (not_selects_of_op (by decide) (by rw [hop]; decide)),
    if_neg (not_selects_of_op (by decide) (by rw [hop]; decide)), if_pos (selects_enc r g b), hr, hg, hb]

theorem decodeRequest_remap (l : BitVec 7) : decodeRequest (requestWord (.remap l)) = .ok (.remap l) := by
  have hop : (requestWord (.remap l)).extractLsb' 0 4 = 6 := op_of_append (0#17 ++ l) 6
  have hl : field 8 7 (requestWord (.remap l)) = l :=
    (slice_of_high (0#17 ++ l) 6#8 rfl).trans BitVec.extractLsb'_append_eq_right
  rw [decodeRequest, if_neg (not_selects_of_op (by decide) (by rw [hop]; decide)),
    if_neg (not_selects_of_op (by decide) (by rw [hop]; decide)),
    if_neg (not_selects_of_op (by decide) (by rw [hop]; decide)),
    if_neg (not_selects_of_op (by decide) (by rw [hop]; decide)),
    if_neg (not_selects_of_op (by decide) (by rw [hop]; decide)), if_pos (selects_remap l), hl]

/-- A host request's word decodes to the request (R303 to R309). -/
theorem decodeRequest_requestWord {i : Instr} (hi : i.isRequest = true) : decodeRequest (requestWord i) = .ok i := by
  cases i <;> simp only [Instr.isRequest, Bool.false_eq_true] at hi
  case construct h w cb => exact decodeRequest_construct h w cb
  case showFrame => exact decodeRequest_showFrame
  case bwr a d => exact decodeRequest_bwr a d
  case brd a => exact decodeRequest_brd a
  case enc r g b => exact decodeRequest_enc r g b
  case remap l => exact decodeRequest_remap l

/-- An init command is fetched from the ROM as its bytes (R326). -/
theorem encode_initCommand (p : Params) {i : Instr} (hi : isInitCommand i) :
    encode p i = .command (commandBytes p i) := by
  obtain ⟨hreq, hne⟩ := hi
  cases i <;> simp only [Instr.isRequest, reduceCtorEq] at hreq
  case enableDataWrite => exact absurd rfl hne
  all_goals rfl

theorem encode_request (p : Params) {i : Instr} (hi : i.isRequest = true) : encode p i = .request (requestWord i) := by
  cases i <;> simp only [Instr.isRequest, Bool.false_eq_true] at hi <;> rfl

/-- Settles O1: by the place each instruction is fetched from. -/
theorem decodeOfEncode : Obligations.DecodeOfEncode := by
  intro p i hwf
  by_cases hreq : i.isRequest = true
  · rw [encode_request p hreq]
    exact decodeRequest_requestWord hreq
  · by_cases hne : i = .enableDataWrite
    · subst hne
      exact if_pos rfl
    · have hinit : isInitCommand i := ⟨by simpa using hreq, hne⟩
      have hdecode := decodeCommand_commandBytes_append p hwf hinit []
      rw [List.append_nil] at hdecode
      rw [encode_initCommand p hinit]
      exact hdecode

/-! ## Words that are no request -/

/-- Two neighbouring slices are one slice. -/
theorem slices_join {n : Nat} (w : BitVec n) {lo hi len len' : Nat} (h : hi = lo + len) :
    w.extractLsb' hi len' ++ w.extractLsb' lo len = w.extractLsb' lo (len' + len) :=
  BitVec.extractLsb'_append_extractLsb'_eq_extractLsb' h

/-- A word is its three upper bytes and its low byte. -/
theorem upper_append_low (w : HostWord) : w.extractLsb' 8 24 ++ w.extractLsb' 0 8 = w :=
  BitVec.extractLsb'_append_extractLsb' (w := 24) (len := 8)

/-- The low byte of a word whose bits 7..4 are zero is its OP (formats W, R, E and L). -/
theorem lowByte_of_op {w : HostWord} {op : BitVec 4} (hop : w.extractLsb' 0 4 = op) (hlow : w.extractLsb' 4 4 = 0) :
    w.extractLsb' 0 8 = 0#4 ++ op := by
  rw [← hop, ← slices_join w (show 4 = 0 + 4 from rfl) (len' := 4), hlow]
  rfl

/-- A valid OP is one of the six (R302). -/
theorem op_cases : ∀ op : BitVec 4, ¬ (op = 0 ∨ 7 ≤ op.toNat) →
    op = 1 ∨ op = 2 ∨ op = 3 ∨ op = 4 ∨ op = 5 ∨ op = 6 := by decide

theorem requestWord_construct_of_fields {w : HostWord} (hop : w.extractLsb' 0 4 = 1) (hlow : w.extractLsb' 5 3 = 0)
    (hhigh : w.extractLsb' 24 8 = 0) :
    requestWord (.construct (w.extractLsb' 8 8) (w.extractLsb' 16 8) (w.getLsbD 4)) = w := by
  have hcb : BitVec.ofBool (w.getLsbD 4) = w.extractLsb' 4 1 := by
    ext i hi
    obtain rfl : i = 0 := by omega
    simp
  have hone : (1 : BitVec 4) = w.extractLsb' 0 4 := hop.symm
  have hzeros : (0 : BitVec 3) = w.extractLsb' 5 3 := hlow.symm
  have hupper : (0 : BitVec 8) = w.extractLsb' 24 8 := hhigh.symm
  rw [requestWord, hcb, hone, hzeros, hupper, slices_join w (show 24 = 16 + 8 from rfl),
    slices_join w (show 16 = 8 + 8 from rfl), slices_join w (show 8 = 5 + 3 from rfl),
    slices_join w (show 5 = 4 + 1 from rfl)]
  exact BitVec.extractLsb'_append_extractLsb' (w := 28) (len := 4)

theorem requestWord_showFrame_of_fields {w : HostWord} (hop : w.extractLsb' 0 4 = 2) (hhigh : w.extractLsb' 4 28 = 0) :
    requestWord .showFrame = w := by
  have hsplit : w.extractLsb' 4 28 ++ w.extractLsb' 0 4 = w :=
    BitVec.extractLsb'_append_extractLsb' (w := 28) (len := 4)
  rw [← hsplit, hop, hhigh]
  rfl

theorem requestWord_bwr_of_fields {w : HostWord} (hop : w.extractLsb' 0 4 = 3) (hlow : w.extractLsb' 4 4 = 0) :
    requestWord (.bwr (w.extractLsb' 8 16) (w.extractLsb' 24 8)) = w := by
  have hbyte : w.extractLsb' 0 8 = 0x03 := lowByte_of_op hop hlow
  rw [requestWord, ← hbyte, slices_join w (show 24 = 8 + 16 from rfl)]
  exact upper_append_low w

theorem requestWord_brd_of_fields {w : HostWord} (hop : w.extractLsb' 0 4 = 4) (hlow : w.extractLsb' 4 4 = 0)
    (hhigh : w.extractLsb' 24 8 = 0) : requestWord (.brd (w.extractLsb' 8 16)) = w := by
  have hbyte : w.extractLsb' 0 8 = 0x04 := lowByte_of_op hop hlow
  rw [requestWord, ← hbyte, ← hhigh, slices_join w (show 24 = 8 + 16 from rfl)]
  exact upper_append_low w

theorem requestWord_enc_of_fields {w : HostWord} (hop : w.extractLsb' 0 4 = 5) (hlow : w.extractLsb' 4 4 = 0) :
    requestWord (.enc (w.extractLsb' 8 8) (w.extractLsb' 16 8) (w.extractLsb' 24 8)) = w := by
  have hbyte : w.extractLsb' 0 8 = 0x05 := lowByte_of_op hop hlow
  rw [requestWord, ← hbyte, slices_join w (show 24 = 16 + 8 from rfl), slices_join w (show 16 = 8 + 8 from rfl)]
  exact upper_append_low w

theorem requestWord_remap_of_fields {w : HostWord} (hop : w.extractLsb' 0 4 = 6) (hlow : w.extractLsb' 4 4 = 0)
    (hhigh : w.extractLsb' 15 17 = 0) : requestWord (.remap (w.extractLsb' 8 7)) = w := by
  have hbyte : w.extractLsb' 0 8 = 0x06 := lowByte_of_op hop hlow
  rw [requestWord, ← hbyte, ← hhigh, slices_join w (show 15 = 8 + 7 from rfl)]
  exact upper_append_low w

/-- Every word with no reserved bit set is some request's word (R309, D4). -/
theorem exists_requestWord_of_not_reserved {w : HostWord} (h : ¬ reservedWord w) :
    ∃ i : Instr, i.isRequest = true ∧ requestWord i = w := by
  unfold reservedWord at h
  simp only [not_or, not_and, ne_eq, not_not] at h
  obtain ⟨hrange, hK, hN, hW, hR, hE, hL⟩ := h
  rcases op_cases (w.extractLsb' 0 4) (by simpa only [not_or] using hrange) with hop | hop | hop | hop | hop | hop
  · exact ⟨_, rfl, requestWord_construct_of_fields hop (hK hop).1 (hK hop).2⟩
  · exact ⟨_, rfl, requestWord_showFrame_of_fields hop (hN hop)⟩
  · exact ⟨_, rfl, requestWord_bwr_of_fields hop (hW hop)⟩
  · exact ⟨_, rfl, requestWord_brd_of_fields hop (hR hop).1 (hR hop).2⟩
  · exact ⟨_, rfl, requestWord_enc_of_fields hop (hE hop)⟩
  · exact ⟨_, rfl, requestWord_remap_of_fields hop (hL hop).1 (hL hop).2⟩

/-- Settles O3: a word that is not reserved is a request's word, which decodes. -/
theorem requestDecodesUnlessReserved : Obligations.RequestDecodesUnlessReserved := by
  refine fun w => ⟨fun ⟨i, hi⟩ => not_reservedWord_of_decodeRequest hi, fun h => ?_⟩
  obtain ⟨i, hi, rfl⟩ := exists_requestWord_of_not_reserved h
  exact ⟨i, decodeRequest_requestWord hi⟩

/-- Settles O2: a word that decodes is not reserved, so it is the word of a request, and of the one it decodes to. -/
theorem requestWordOfDecode : Obligations.RequestWordOfDecode := by
  intro w i hdecode
  obtain ⟨j, hj, rfl⟩ := exists_requestWord_of_not_reserved (not_reservedWord_of_decodeRequest hdecode)
  rw [decodeRequest_requestWord hj] at hdecode
  injection hdecode with hji
  subst hji
  exact ⟨hj, rfl⟩

/-- Settles O7, by evaluation: the statement is about fixed words. -/
theorem specWordsDecode : Obligations.SpecWordsDecode := by
  unfold Obligations.SpecWordsDecode
  decide

/-! ## The ROM's commands -/

/-- The sixteen init commands of R653 to R668, in the order of the ROM. -/
def romCommands : List Instr :=
  [.sleep, .remapDepth 0xB4, .startLine 0x00, .offset 0x00, .displayMode, .masterConfig 0x8E, .powerSave 0x05,
    .precharge 0x11, .clockOsc 0xF0, .grayscaleLut initLut, .prechargeVoltage 0x1C 0x1C 0x1C, .vcomh 0x3F,
    .contrast 0xDC 0xD2 0xFF, .masterCurrent 0x0A, .muxRatio 0x7F, .displayOn]

theorem decode_at_initRanges :
    initRanges.map (fun r => (decodeCommand (initRom.drop r.1)).toOption) = romCommands.map some := by decide

/-- Each range of R652 holds the bytes of its command. -/
theorem romSlices_eq_commandBytes :
    initRanges.map (romSlice initRom) = romCommands.map (commandBytes Params.default) := by decide

/-- The ranges follow one another and fill the ROM (R670). -/
theorem romSlices_flatten : (initRanges.map (romSlice initRom)).flatten = initRom := by decide

/-- Settles O6, by the three facts about the ROM's commands. -/
theorem romSplitsIntoSixteenCommands : Obligations.RomSplitsIntoSixteenCommands :=
  ⟨romCommands, rfl, decode_at_initRanges, romSlices_eq_commandBytes, romSlices_flatten⟩

/-! ## The assembler -/

/-- A formula of the assembler's table gives a request's word when it has the word's value, and the operands fit. -/
theorem fits_eq_some {ok : Bool} {n : Nat} {w : HostWord} (hok : ok = true) (hn : n = w.toNat) :
    fits ok n = some w := by
  rw [fits, if_pos hok, hn, BitVec.ofNat_toNat, BitVec.setWidth_eq]

theorem bwrWord_eq (a : BufAddr) (d : Byte) : bwrWord a.toNat d.toNat = some (requestWord (.bwr a d)) := by
  refine fits_eq_some (decide_eq_true ⟨a.isLt, d.isLt⟩) ?_
  have hword : (requestWord (.bwr a d)).toNat = (d.toNat <<< 16 ||| a.toNat) <<< 8 ||| 3 := by
    rw [requestWord, BitVec.toNat_append, BitVec.toNat_append]
    rfl
  rw [hword, Nat.shiftLeft_or_distrib, ← Nat.shiftLeft_add]

theorem brdWord_eq (a : BufAddr) : brdWord a.toNat = some (requestWord (.brd a)) := by
  refine fits_eq_some (decide_eq_true a.isLt) ?_
  have hword : (requestWord (.brd a)).toNat = (0 <<< 16 ||| a.toNat) <<< 8 ||| 4 := by
    rw [requestWord, BitVec.toNat_append, BitVec.toNat_append]
    rfl
  rw [hword, Nat.zero_shiftLeft, Nat.zero_or]

theorem encWord_eq (r g b : Byte) : encWord r.toNat g.toNat b.toNat = some (requestWord (.enc r g b)) := by
  refine fits_eq_some (decide_eq_true ⟨r.isLt, g.isLt, b.isLt⟩) ?_
  have hword : (requestWord (.enc r g b)).toNat = ((b.toNat <<< 8 ||| g.toNat) <<< 8 ||| r.toNat) <<< 8 ||| 5 := by
    rw [requestWord, BitVec.toNat_append, BitVec.toNat_append, BitVec.toNat_append]
    rfl
  simp only [hword, Nat.shiftLeft_or_distrib, ← Nat.shiftLeft_add]

theorem assemble_construct (width : Nat) (h w : Byte) (cb : Bool) :
    assemble width (.construct h.toNat w.toNat cb) = some [requestWord (.construct h w cb)] := by
  have hword : (requestWord (.construct h w cb)).toNat
      = ((((0 <<< 8 ||| w.toNat) <<< 8 ||| h.toNat) <<< 3 ||| 0) <<< 1 ||| cb.toNat) <<< 4 ||| 1 := by
    rw [requestWord, BitVec.toNat_append, BitVec.toNat_append, BitVec.toNat_append, BitVec.toNat_append,
      BitVec.toNat_append, BitVec.toNat_ofBool]
    rfl
  have hlow : (if cb then 0x11 else 0x01) = cb.toNat <<< 4 ||| 1 := by cases cb <;> rfl
  rw [assemble, hlow, fits_eq_some (decide_eq_true ⟨h.isLt, w.isLt⟩) (w := requestWord (.construct h w cb))]
  · rfl
  · simp only [hword, Nat.zero_shiftLeft, Nat.zero_or, Nat.or_zero, Nat.shiftLeft_or_distrib, ← Nat.shiftLeft_add,
      Nat.or_assoc]

theorem assemble_remap (width : Nat) (l : BitVec 7) :
    assemble width (.remap l.toNat) = some [requestWord (.remap l)] := by
  have hword : (requestWord (.remap l)).toNat = (0 <<< 7 ||| l.toNat) <<< 8 ||| 6 := by
    rw [requestWord, BitVec.toNat_append, BitVec.toNat_append]
    rfl
  rw [assemble, fits_eq_some (decide_eq_true l.isLt) (w := requestWord (.remap l))]
  · rfl
  · rw [hword, Nat.zero_shiftLeft, Nat.zero_or]

/-- Settles O8: each formula shifts the operands to where the format has them. -/
theorem assemblerWritesTheEncodings : Obligations.AssemblerWritesTheEncodings := by
  intro width h w d r g b cb a l
  refine ⟨assemble_construct width h w cb, rfl, ?_, ?_, ?_, assemble_remap width l⟩
  · rw [assemble, bwrWord_eq]; rfl
  · rw [assemble, brdWord_eq]; rfl
  · rw [assemble, encWord_eq]; rfl

end Sys2Proof.Machine
end

section
/-! PROOFS. One step from each waiting point (R16, R119): what the sequencer does with the answer it waited for, or with the request it accepts. -/

namespace Sys2Proof.Machine

/-! ## Transactions in the terms of the statements -/

/-- The events and levels of R601, as the model's operation and as the statements write them. -/
theorem State.startTransaction_eq_issued (s : State) (m : BusMode) (bytes : List Byte) :
    s.startTransaction m bytes = s.issued m bytes := by
  cases m <;> rfl

theorem State.afterOk_eq_answeredOk (s : State) (rest : List BusAnswer) : s.afterOk rest = s.answeredOk rest := by
  have hwire : s.txBytes.take s.txBytes.length = s.txBytes := List.take_length
  simp only [State.afterOk, State.tookAnswer, State.endTransaction, State.answeredOk, Params.csIdle, hwire]

theorem State.sendLine_eq_issued (s : State) : s.sendLine = s.issued .data (s.lineData s.line.toNat) :=
  s.startTransaction_eq_issued .data _

/-! ## The step by what the block waits for -/

/-- A state within a step goes on to its waiting point (log 6). -/
theorem step_of_fetching {s : State} (hp : s.porIn = none) (hf : s.fetching = true) : step s = settled (.next s) := by
  unfold step State.advance
  simp only [hp, hf, if_true]

/-- An idle block runs the oldest request presented (R301). -/
theorem step_of_request {s : State} {w : HostWord} {rest : List HostWord} {i : Instr} (hs : s.idle)
    (hq : s.hostReqs = w :: rest) (hd : decodeRequest w = .ok i) : step s = settled (exec i (s.accepted rest)) := by
  obtain ⟨⟨hp, hf, hw⟩, hb⟩ := hs
  have hhost : s.stepHost = exec i (s.accepted rest) := by
    unfold State.stepHost State.takeRequest
    simp only [hb, hq, hd, Bool.false_eq_true, if_false]
  unfold step State.advance
  simp only [hp, hf, hw, hhost, Bool.false_eq_true, if_false]

/-- A hold always ends (R7, log 12). -/
theorem step_of_hold {s : State} (hw : s.waitsFor .delay) : step s = settled s.holdOver.afterHold := by
  obtain ⟨hp, hf, hw⟩ := hw
  have hdelay : s.stepDelay = s.holdOver.afterHold := by
    unfold State.stepDelay State.holdOver
    cases s.holds <;> rfl
  unfold step State.advance
  simp only [hp, hf, hw, hdelay, Bool.false_eq_true, if_false]

theorem step_of_ack {s : State} {n : Nat} (hw : s.waitsFor .cb) (hq : s.cbAcks = n + 1) :
    step s = settled (s.tookAck n).afterCallback := by
  obtain ⟨hp, hf, hw⟩ := hw
  have hcb : s.stepCallback = (s.tookAck n).afterCallback := by
    unfold State.stepCallback
    rw [hq]
  unfold step State.advance
  simp only [hp, hf, hw, hcb, Bool.false_eq_true, if_false]

theorem step_of_ok {s : State} {rest : List BusAnswer} (hw : s.waitsFor .bus) (hq : s.busAnswers = .ok :: rest) :
    step s = settled ((s.answeredOk rest).afterWrite s.txBytes.length) := by
  obtain ⟨hp, hf, hw⟩ := hw
  have hbus : s.stepBus = (s.answeredOk rest).afterWrite s.txBytes.length := by
    rw [← s.afterOk_eq_answeredOk]
    unfold State.stepBus
    rw [hq]
    rfl
  unfold step State.advance
  simp only [hp, hf, hw, hbus, Bool.false_eq_true, if_false]

theorem step_of_err {s : State} {k : Nat} {rest : List BusAnswer} (hw : s.waitsFor .bus)
    (hq : s.busAnswers = .err k :: rest) : step s = settled (s.tookAnswer rest k).failWrite := by
  obtain ⟨hp, hf, hw⟩ := hw
  have hbus : s.stepBus = (s.tookAnswer rest k).failWrite := by
    unfold State.stepBus
    rw [hq]
  unfold step State.advance
  simp only [hp, hf, hw, hbus, Bool.false_eq_true, if_false]

/-! ## Accepting a request -/

/-- No request's meaning stops the block. -/
theorem exec_request_next {i : Instr} (hi : i.isRequest = true) (s : State) : ∃ t, exec i s = .next t := by
  cases i <;> simp only [Instr.isRequest, Bool.false_eq_true] at hi
  all_goals exact ⟨_, rfl⟩

/-- A request that does not go on to the enable-data-write command ends the step (log 6). -/
theorem settled_exec_request {i : Instr} {s : State} (hi : i.isRequest = true) (hf : s.fetching = false)
    (hne : i ≠ .showFrame ∨ s.phase ≠ .ready ∨ s.cfgCbEn = true) : settled (exec i s) = exec i s := by
  obtain ⟨t, ht⟩ := exec_request_next hi s
  rw [ht]
  exact settled_next (exec_request_settled hi hf hne ht)

/-- Settles O12: acceptance takes the word from the mailbox, and all but one kind of request ends at a waiting point. -/
theorem stepRunsAcceptedRequest : Obligations.StepRunsAcceptedRequest := by
  intro s w rest i hs hq hd
  have hstep : step s = settled (exec i (s.accepted rest)) := step_of_request hs hq hd
  refine ⟨hstep, fun hne => hstep.trans ?_⟩
  exact settled_exec_request (s := s.accepted rest) (isRequest_of_decodeRequest hd) hs.1.2.1 hne

/-! ## Taking panel commands -/

/-- Where the next init command stands in the ROM, the streamer runs it (R457). -/
theorem State.takeCommand_of_decode {s : State} {i : Instr} (hs : s.inInit)
    (hd : decodeCommand (s.rom.drop s.romPosition) = .ok i) : s.takeCommand = exec i s := by
  unfold State.takeCommand State.fetchCommand
  simp only [hs.1, decode, hd]

/-- An init command sends a transaction, which ends the step, or brings the streamer on by one byte or more. -/
theorem exec_initCommand_cases {i : Instr} {s : State} (hi : isInitCommand i) (hs : s.inInit) :
    ∃ t, exec i s = .next t
      ∧ (t.fetching = false ∨ (t.inInit ∧ s.romPosition < t.romPosition ∧ t.romPosition < initLen)) := by
  obtain ⟨bytes, hne, hexec⟩ := exec_initCommand hi s
  have hpos : 0 < bytes.length := List.length_pos_iff.2 hne
  refine ⟨_, hexec, ?_⟩
  rcases s.sendInitCommand_cases bytes with ⟨hno, -⟩ | ⟨-, -, -, he⟩ | ⟨-, -, -, hlt, he⟩
  · exact absurd hs hno
  · exact .inl (by rw [he]; rfl)
  · have hlen : (s.gather bytes).romPosition = s.initIdx.toNat + (s.txBytes ++ bytes).length := rfl
    rw [he, hlen, List.length_append, State.romPosition]
    rw [List.length_append] at hlt
    exact .inr ⟨hs, by omega, by omega⟩

/-- In INIT the streamer takes nothing but init commands (R457). -/
theorem State.takeCommand_inv {s t : State} (hs : s.inInit) (h : s.takeCommand = .next t) :
    ∃ i, decodeCommand (s.rom.drop s.romPosition) = .ok i ∧ exec i s = .next t := by
  cases hd : decodeCommand (s.rom.drop s.romPosition) with
  | ok i => exact ⟨i, rfl, (State.takeCommand_of_decode hs hd).symm.trans h⟩
  | error e =>
    unfold State.takeCommand State.fetchCommand at h
    simp only [hs.1, decode, hd, reduceCtorEq] at h

/-- A bound on the commands that is enough to reach the stream's end is as good as any larger one. -/
theorem State.settle_succ {s : State} {n : Nat} (hs : s.inInit) (hn : 0 < n) (hlen : initLen ≤ n + s.romPosition) :
    s.settle (n + 1) = s.settle n := by
  induction n generalizing s with
  | zero => omega
  | succ n ih =>
    rw [State.settle_of_fetching hs.2, State.settle_of_fetching hs.2]
    cases htake : s.takeCommand with
    | fault r => rfl
    | refused r => rfl
    | next t =>
      obtain ⟨i, hd, hexec⟩ := State.takeCommand_inv hs htake
      obtain ⟨u, hu, hcases⟩ := exec_initCommand_cases (isInitCommand_of_decodeCommand hd) hs
      obtain rfl : t = u := by injection hexec.symm.trans hu
      show t.settle (n + 1) = t.settle n
      rcases hcases with hf | ⟨hin, hpos, hlt⟩
      · rw [State.settle_of_settled hf, State.settle_of_settled hf]
      · exact ih hin (by omega) (by omega)

/-- Within a step in INIT, going on is running the next command and going on from there (R16, R457). -/
theorem settled_of_initCommand {s : State} {i : Instr} (hs : s.inInit)
    (hd : decodeCommand (s.rom.drop s.romPosition) = .ok i) : settled (.next s) = settled (exec i s) := by
  obtain ⟨t, ht, hcases⟩ := exec_initCommand_cases (isInitCommand_of_decodeCommand hd) hs
  have hfirst : settled (.next s) = t.settle 56 := by
    rw [settled, show initLen = 56 + 1 from rfl, State.settle_of_fetching hs.2, State.takeCommand_of_decode hs hd, ht]
  have hrest : settled (exec i s) = t.settle (56 + 1) := by rw [ht]; rfl
  rw [hfirst, hrest]
  rcases hcases with hf | ⟨hin, hpos, -⟩
  · rw [State.settle_of_settled hf, State.settle_of_settled hf]
  · exact (State.settle_succ hin (by decide) (show 57 ≤ 56 + t.romPosition by omega)).symm

theorem exec_enableDataWrite {s : State} (hs : s.inShowCmd) :
    exec .enableDataWrite s = .next (s.issued .cmd [s.params.cmdWriteRam]) := by
  have hexec : exec .enableDataWrite s = .next (s.sendEnable s.params.cmdWriteRam) := rfl
  have hcond : s.phase = .showCmd ∧ s.fetching = true := hs
  rw [hexec, State.sendEnable, if_pos hcond, State.startTransaction_eq_issued]

/-- Within a step in SHOW_CMD, going on is the enable-data-write command's WRITE (R552). -/
theorem settled_of_enable {s : State} (hs : s.inShowCmd) :
    settled (.next s) = .next (s.issued .cmd [s.params.cmdWriteRam]) := by
  rw [settled_of_inShowCmd hs, State.startTransaction_eq_issued]

/-- Settles O13: at both places going on is the command's meaning, and step is going on. -/
theorem stepRunsFetchedCommand : Obligations.StepRunsFetchedCommand := by
  refine ⟨fun s i hs hd => ?init, fun s hs => ?enable⟩
  case init =>
    have hgo : settled (.next s) = settled (exec i s) := settled_of_initCommand hs hd
    exact ⟨hgo, fun hp => (step_of_fetching hp hs.2).trans hgo⟩
  case enable =>
    have hgo : settled (.next s) = exec .enableDataWrite s := (settled_of_enable hs).trans (exec_enableDataWrite hs).symm
    exact ⟨hgo, fun hp => (step_of_fetching hp hs.2).trans hgo⟩

/-- Where a BLOB or DISCRETE stream stands: the bytes of the init WRITE, and the INIT_IDX it starts at (R651, R652). -/
structure InitTransaction (p : Params) (idx : BitVec 6) (bytes : List Byte) : Prop where
  blob : p.initFraming = .blob → idx = 0 ∧ bytes = initRom
  discrete : p.initFraming = .discrete → ∃ r ∈ initRanges, idx.toNat = r.1 ∧ bytes = romSlice initRom r

theorem initTransaction_first (p : Params) : InitTransaction p 0 (firstInitBytes p) where
  blob hf := ⟨rfl, by rw [firstInitBytes, hf]⟩
  discrete hf := ⟨(0, 1), by decide, rfl, by rw [firstInitBytes, hf]⟩

/-- Going on to INIT is issuing the init WRITE that stands at INIT_IDX (R651, R652). -/
theorem settled_of_initTransaction {s : State} {bytes : List Byte} (hs : s.inInit) (hrom : s.rom = initRom)
    (htx : s.txBytes = []) (hb : InitTransaction s.params s.initIdx bytes) :
    settled (.next s) = .next (s.issued .cmd bytes) := by
  rw [← State.startTransaction_eq_issued]
  cases hf : s.params.initFraming with
  | blob =>
    obtain ⟨hidx, rfl⟩ := hb.blob hf
    exact settled_of_blob hs hrom hf htx hidx
  | discrete =>
    obtain ⟨r, hr, hidx, rfl⟩ := hb.discrete hf
    exact settled_of_discrete hs hrom hf htx hr hidx

/-- The first WRITE of the init stream (R457). -/
theorem settled_enterInit {s : State} (hrom : s.rom = initRom) (hidx : s.initIdx = 0) :
    settled (.next (s.enterFetch .init)) = .next ({ s with phase := .init }.issued .cmd (firstInitBytes s.params)) := by
  have hfirst : InitTransaction s.params s.initIdx (firstInitBytes s.params) := hidx ▸ initTransaction_first s.params
  exact settled_of_initTransaction (s := s.enterFetch .init) ⟨rfl, rfl⟩ hrom rfl hfirst

theorem settled_enterShowCmd (s : State) :
    settled (.next (s.enterFetch .showCmd)) = .next ({ s with phase := .showCmd }.issued .cmd [s.params.cmdWriteRam]) :=
  settled_of_enable (s := s.enterFetch .showCmd) ⟨rfl, rfl⟩

/-- ShowBody at its first waiting point: the callback where one is configured, else the enable-data-write command's
WRITE (R551, R552). -/
def State.showStarted (s : State) : State :=
  if s.cfgCbEn then { s with phase := .cbShow, wait := .cb, trace := s.trace ++ [.cbReq] }
  else { s with phase := .showCmd }.issued .cmd [s.params.cmdWriteRam]

theorem State.showStarted_of_callback {s : State} (hc : s.cfgCbEn = true) :
    s.showStarted = { s with phase := .cbShow, wait := .cb, trace := s.trace ++ [.cbReq] } := by
  rw [State.showStarted, if_pos hc]

theorem State.showStarted_of_no_callback {s : State} (hc : s.cfgCbEn = false) :
    s.showStarted = { s with phase := .showCmd }.issued .cmd [s.params.cmdWriteRam] := by
  rw [State.showStarted, if_neg (by simp [hc])]

theorem settled_showBody {s : State} (hf : s.fetching = false) : settled (.next s.showBody) = .next s.showStarted := by
  cases hc : s.cfgCbEn
  · rw [State.showBody_of_no_callback hc, State.showStarted_of_no_callback hc, settled_enterShowCmd]
  · rw [State.showBody_of_callback hc, State.showStarted_of_callback hc]
    exact settled_next hf

/-! ## Holds and callbacks -/

/-- How long the running hold lasts: T_HOLD_MIN and the timer's excess, or a free one (R454, log 12). -/
def State.holdLength (s : State) : Nat := tHoldMinUs + s.holds.headD (freeHold s.draws)

theorem State.holdLength_ge (s : State) : 1000 ≤ s.holdLength := Nat.le_add_right _ _

/-- The end of a hold changes the timer's own record only (log 12). -/
theorem State.holdOver_eq (s : State) : s.holdOver = { s with
    holds := s.holds.tail, holdTimes := s.holdTimes ++ [s.holdLength]
    draws := if s.holds = [] then s.draws + 1 else s.draws } := by
  unfold State.holdOver State.holdLength
  cases hq : s.holds <;> simp [State.drewHold, State.tookHold, hq]

theorem State.afterHold_of_rstLo {s : State} (hph : s.phase = .rstLo) :
    s.afterHold = .next ((s.goTo .rstHi).drive .res true).startHold := by
  unfold State.afterHold
  rw [hph]

theorem State.afterHold_of_rstHi {s : State} (hph : s.phase = .rstHi) :
    s.afterHold = .next (if s.cfgCbEn then (s.goTo .cbInit).startCallback else s.enterFetch .init) := by
  unfold State.afterHold
  rw [hph]

/-- Settles O43: the hold's length is fixed first, and what follows is read off the phase. -/
theorem resetPulseHolds : Obligations.ResetPulseHolds := by
  intro s hw
  have hstep : step s = settled s.holdOver.afterHold := step_of_hold hw
  have hf : s.fetching = false := hw.2.1
  have hwait : s.wait = .delay := hw.2.2
  rw [s.holdOver_eq] at hstep
  refine ⟨s.holdLength, s.holdLength_ge, fun extra hextra => ?_, fun u hu => ?_⟩
  · rw [State.holdLength, List.headD_eq_head?_getD, Option.mem_def.1 hextra]
    rfl
  · rw [← hu] at hstep
    refine ⟨fun hph => ?_, fun hph hc => ?_, fun hph hc hrom hidx => ?_⟩
    · rw [hstep, State.afterHold_of_rstLo (by rw [hu]; exact hph), settled_next (by rw [hu]; exact hf)]
      subst hu
      simp [State.startHold, State.drive, State.goTo, hwait]
    · rw [hstep, State.afterHold_of_rstHi (by rw [hu]; exact hph), if_pos (by rw [hu]; exact hc),
        settled_next (by rw [hu]; exact hf)]
      subst hu
      rfl
    · rw [hstep, State.afterHold_of_rstHi (by rw [hu]; exact hph), if_neg (by rw [hu]; simp [hc]),
        settled_enterInit (by rw [hu]; exact hrom) (by rw [hu]; exact hidx)]
      subst hu
      rfl

theorem State.afterCallback_of_cbInit {s : State} (hph : s.phase = .cbInit) :
    s.afterCallback = .next (s.enterFetch .init) := by
  unfold State.afterCallback
  rw [hph]

theorem State.afterCallback_of_cbShow {s : State} (hph : s.phase = .cbShow) :
    s.afterCallback = .next (s.enterFetch .showCmd) := by
  unfold State.afterCallback
  rw [hph]

/-- Settles O44: without an answer the step does nothing (`step_of_noAck`); with one it goes on to the WRITE. -/
theorem callbackGoesOnAtAck : Obligations.CallbackGoesOnAtAck := by
  refine fun s hw => ⟨step_of_noAck hw, fun n hq => ⟨fun hph hrom hidx => ?_, fun hph => ?_⟩⟩
  · rw [step_of_ack hw hq, State.afterCallback_of_cbInit (s := s.tookAck n) hph,
      settled_enterInit (s := s.tookAck n) hrom hidx]
    rfl
  · rw [step_of_ack hw hq, State.afterCallback_of_cbShow (s := s.tookAck n) hph, settled_enterShowCmd]
    rfl

/-! ## The transport's answers -/

/-- An init WRITE answered OK, up to where the step ends: ShowBody's start at the stream's end, else the next WRITE
(R457). -/
theorem step_of_initOk {s v : State} {rest : List BusAnswer} (hw : s.waitsFor .bus) (hph : s.phase = .init)
    (hq : s.busAnswers = .ok :: rest) (hv : (s.answeredOk rest).advanceInit s.txBytes.length = v) :
    step s = if initLen ≤ v.initIdx.toNat then .next v.showStarted else settled (.next (v.enterFetch .init)) := by
  have hf : v.fetching = false := hv ▸ hw.2.1
  have hafter : (s.answeredOk rest).afterWrite s.txBytes.length
      = .next ((s.answeredOk rest).afterInitWrite s.txBytes.length) := by
    unfold State.afterWrite
    rw [show (s.answeredOk rest).phase = .init from hph]
  rw [step_of_ok hw hq, hafter, State.afterInitWrite, hv]
  split
  · exact settled_showBody hf
  · rfl

theorem step_of_enableOk {s : State} {rest : List BusAnswer} (hw : s.waitsFor .bus) (hph : s.phase = .showCmd)
    (hq : s.busAnswers = .ok :: rest) : step s = .next (s.answeredOk rest).enterLines.sendLine := by
  have hafter : (s.answeredOk rest).afterWrite s.txBytes.length = .next (s.answeredOk rest).enterLines.sendLine := by
    unfold State.afterWrite
    rw [show (s.answeredOk rest).phase = .showCmd from hph]
  rw [step_of_ok hw hq, hafter]
  exact settled_next rfl

/-- Settles O46: the answer leads to SHOW_LINES, whose first act is the WRITE of scan line 0. -/
theorem enableDataWriteCompletes : Obligations.EnableDataWriteCompletes := by
  intro s rest hw hph hq
  rw [step_of_enableOk hw hph hq, State.sendLine_eq_issued]
  rfl

theorem step_of_lineOk {s : State} {rest : List BusAnswer} (hw : s.waitsFor .bus) (hph : s.phase = .showLines)
    (hq : s.busAnswers = .ok :: rest) : step s = .next (s.answeredOk rest).afterLineWrite := by
  have hafter : (s.answeredOk rest).afterWrite s.txBytes.length = .next (s.answeredOk rest).afterLineWrite := by
    unfold State.afterWrite
    rw [show (s.answeredOk rest).phase = .showLines from hph]
  have hf : (s.answeredOk rest).afterLineWrite.fetching = false := by
    unfold State.afterLineWrite
    split
    · rfl
    · exact hw.2.1
  rw [step_of_ok hw hq, hafter, settled_next hf]

/-- Settles O47: LINE + 1 is below 128 exactly where a scan line is left. -/
theorem scanLineCompletes : Obligations.ScanLineCompletes := by
  intro s rest hw hph hq
  have hline : (s.line + 1).toNat = (s.line.toNat + 1) % 256 := BitVec.toNat_add _ _
  refine ⟨fun hlt => ?_, fun hlast => ?_⟩
  · have hnext : (s.line + 1).toNat = s.line.toNat + 1 := by omega
    have hcond : (s.answeredOk rest).advanceLine.line.toNat < nScan := by
      show (s.line + 1).toNat < 128
      omega
    rw [step_of_lineOk hw hph hq, State.afterLineWrite, if_pos hcond, State.sendLine_eq_issued, ← hnext]
    rfl
  · have hcond : ¬ (s.answeredOk rest).advanceLine.line.toNat < nScan := by
      show ¬ (s.line + 1).toNat < 128
      omega
    have h128 : s.line + 1 = 128 := BitVec.eq_of_toNat_eq (by rw [hline, hlast]; rfl)
    rw [step_of_lineOk hw hph hq, State.afterLineWrite, if_neg hcond, ← h128]
    rfl

/-- The answer ERR in a phase that performs transactions is the BusError exit (R603, R705). -/
theorem step_of_busError {s : State} {k : Nat} {rest : List BusAnswer} (hw : s.waitsFor .bus)
    (hph : s.phase = .init ∨ s.phase = .showCmd ∨ s.phase = .showLines) (hq : s.busAnswers = .err k :: rest) :
    step s = .next (s.tookAnswer rest k).busErrorExit := by
  have hfail : (s.tookAnswer rest k).failWrite = .next (s.tookAnswer rest k).busErrorExit := by
    unfold State.failWrite
    rcases hph with hph | hph | hph <;> rw [State.tookAnswer_phase, hph]
  rw [step_of_err hw hq, hfail]
  exact settled_next hw.2.1

/-- Settles O48: PHASE's number and the phase a failed request ends in are read off their tables. -/
theorem busErrorExitEffects : Obligations.BusErrorExitEffects := by
  intro s k rest hw hph hq
  have hbits : s.phase.bits = if s.phase = .init then 4 else if s.phase = .showCmd then 6 else 7 := by
    rcases hph with hph | hph | hph <;> rw [hph] <;> rfl
  have hfailed : failedPhase s.opKind = if s.opKind = .construct then .unconf else .ready := by
    cases s.opKind <;> rfl
  rw [step_of_busError hw hph hq, ← hbits, ← hfailed]
  rfl

end Sys2Proof.Machine
end

section
/-! PROOFS. The panel commands: what each emits in its phase (R653 to R669), and that none has an effect elsewhere (R600, R672). -/

namespace Sys2Proof.Machine

/-- In INIT the streamer's act is the one the statements write out (R651, R652). -/
theorem State.sendInitCommand_of_inInit {s : State} (hs : s.inInit) (bytes : List Byte) :
    s.sendInitCommand bytes = s.afterInitCommand bytes := by
  have hcond : s.phase = .init ∧ s.fetching = true := hs
  have hlen : initLen ≤ s.initIdx.toNat + (s.txBytes ++ bytes).length
      ↔ 57 ≤ s.initIdx.toNat + s.txBytes.length + bytes.length := by
    rw [List.length_append, Nat.add_assoc]
    rfl
  simp only [State.sendInitCommand, State.afterInitCommand, if_pos hcond, hlen, State.startTransaction_eq_issued]
  rfl

theorem exec_of_sends {i : Instr} {s : State} {bytes : List Byte} (hs : s.inInit)
    (h : exec i s = .next (s.sendInitCommand bytes)) : exec i s = .next (s.afterInitCommand bytes) := by
  rw [h, State.sendInitCommand_of_inInit hs]

/-- Settles O35: each sends its opcode byte. -/
theorem argumentlessInitCommands : Obligations.ArgumentlessInitCommands := fun _ hs =>
  ⟨exec_of_sends hs rfl, exec_of_sends hs rfl, exec_of_sends hs rfl⟩

/-- Settles O36: each sends its opcode byte and its argument. -/
theorem oneArgumentInitCommands : Obligations.OneArgumentInitCommands := fun _ _ hs =>
  ⟨exec_of_sends hs rfl, exec_of_sends hs rfl, exec_of_sends hs rfl, exec_of_sends hs rfl, exec_of_sends hs rfl,
    exec_of_sends hs rfl, exec_of_sends hs rfl, exec_of_sends hs rfl, exec_of_sends hs rfl, exec_of_sends hs rfl⟩

/-- Settles O37: each sends its opcode byte and its arguments in order. -/
theorem threeArgumentInitCommands : Obligations.ThreeArgumentInitCommands := fun _ _ _ _ hs =>
  ⟨exec_of_sends hs rfl, exec_of_sends hs rfl⟩

/-- Settles O38: one opcode byte before 25 arguments. -/
theorem grayscaleLutCommand : Obligations.GrayscaleLutCommand := by
  refine fun lut s hs hlen => ⟨?_, exec_of_sends hs rfl⟩
  rw [List.length_cons, hlen]

/-- Settles O39. -/
theorem enableDataWriteIsSentAlone : Obligations.EnableDataWriteIsSentAlone := fun _ hs => exec_enableDataWrite hs

/-- Settles O40: what either kind of command does is guarded by its phase. -/
theorem panelCommandsOutsideTheirPhase : Obligations.PanelCommandsOutsideTheirPhase := by
  refine ⟨fun i s hreq hne hph => ?_, fun s hph => ?_⟩
  · obtain ⟨bytes, -, hexec⟩ := exec_initCommand ⟨hreq, hne⟩ s
    rw [hexec, State.sendInitCommand, if_neg fun h => hph h.1]
  · have hexec : exec .enableDataWrite s = .next (s.sendEnable s.params.cmdWriteRam) := rfl
    rw [hexec, State.sendEnable, if_neg fun h => hph h.1]

end Sys2Proof.Machine
end

section
/-! PROOFS. The requests that end at once (ENC, BWR, BRD, REMAP), SHOW's start, and the gates of R702 before each. -/

namespace Sys2Proof.Machine

/-! ## The gates -/

/-- Settles O33: every request's meaning is behind a gate that does nothing while BUSY = 1. -/
theorem requestsAreHeldWhileBusy : Obligations.RequestsAreHeldWhileBusy := by
  intro i s hi hb
  cases i <;> simp only [Instr.isRequest, Bool.false_eq_true] at hi
  case construct | enc => exact congrArg Host.Outcome.next (State.whenIdle_of_busy hb _)
  case showFrame | bwr | brd | remap => exact congrArg Host.Outcome.next (State.whenReady_of_busy hb _)

/-- A request that is legal in READY only is a StateError (code 4) in UNCONF (R702). -/
theorem State.whenReady_stateError {s : State} (h : s.phase = .unconf) (f : State → State) :
    s.whenReady f = s.errored .stateError 4 := by
  rw [State.whenReady_of_unconf h, State.raise_eq_errored]
  rfl

/-- Settles O32: all four requests are behind that gate. -/
theorem requestsBeforeConstructAreStateErrors : Obligations.RequestsBeforeConstructAreStateErrors := by
  intro s a d l h
  refine ⟨?_, ?_, ?_, ?_⟩ <;> exact congrArg Host.Outcome.next (State.whenReady_stateError h _)

theorem exec_bwr_of_ready {s : State} (h : s.phase = .ready) (a : BufAddr) (d : Byte) :
    exec (.bwr a d) s = .next (s.whenInBuf a fun u => (u.writeBuf a.toNat d).respondOk 0 false 0) :=
  congrArg Host.Outcome.next (State.whenReady_of_ready h _)

theorem exec_brd_of_ready {s : State} (h : s.phase = .ready) (a : BufAddr) : exec (.brd a) s
    = .next (s.whenInBuf a fun u => u.respondOk 0 false ((u.readBuf a.toNat).zeroExtend 16)) :=
  congrArg Host.Outcome.next (State.whenReady_of_ready h _)

/-- Settles O20: the address check comes before the access (R706), and AddressRange is code 5. -/
theorem bufferAccessBeyondEndIsAddressRange : Obligations.BufferAccessBeyondEndIsAddressRange := by
  intro a d s h hbeyond
  have hraise : s.raise .addressRange = s.errored .addressRange 5 := s.raise_eq_errored _
  rw [exec_bwr_of_ready h, exec_brd_of_ready h, State.whenInBuf_beyond hbeyond, State.whenInBuf_beyond hbeyond, hraise]
  exact ⟨rfl, rfl⟩

/-! ## The response word -/

/-- A bit above the low part of a word is a bit of the high part. -/
theorem bit_of_high {n m : Nat} (x : BitVec n) (y : BitVec m) {i k : Nat} (h : i = m + k) :
    (x ++ y).getLsbD i = x.getLsbD k := by
  rw [BitVec.getLsbD_append, if_neg (by omega), h, Nat.add_sub_cancel_left]

/-- RC and the bits 7..4 of an OK response are zero (R320). -/
theorem okWord_low (row : BitVec 7) (dead : Bool) (v : BitVec 16) : (okWord row dead v).extractLsb' 0 8 = 0 := by
  have hrc : (okWord row dead v).extractLsb' 0 4 = 0 := BitVec.extractLsb'_append_eq_right
  have hzeros : (okWord row dead v).extractLsb' 4 4 = 0 :=
    (slice_of_high _ ResultCode.ok.bits rfl).trans BitVec.extractLsb'_append_eq_right
  exact lowByte_of_op hrc hzeros

theorem okWord_row (row : BitVec 7) (dead : Bool) (v : BitVec 16) : (okWord row dead v).extractLsb' 8 7 = row :=
  (slice_of_high _ ResultCode.ok.bits rfl).trans <|
    (slice_of_high (v ++ BitVec.ofBool dead ++ row) 0#4 rfl).trans BitVec.extractLsb'_append_eq_right

theorem okWord_dead (row : BitVec 7) (dead : Bool) (v : BitVec 16) : (okWord row dead v).getLsbD 15 = dead :=
  (bit_of_high _ ResultCode.ok.bits rfl).trans <|
    (bit_of_high (v ++ BitVec.ofBool dead ++ row) 0#4 rfl).trans (flag_above v dead row)

theorem okWord_result (row : BitVec 7) (dead : Bool) (v : BitVec 16) : (okWord row dead v).extractLsb' 16 16 = v :=
  (slice_of_high _ ResultCode.ok.bits rfl).trans <|
    (slice_of_high (v ++ BitVec.ofBool dead ++ row) 0#4 rfl).trans <|
      (slice_of_high (v ++ BitVec.ofBool dead) row rfl).trans BitVec.extractLsb'_append_eq_left

/-- Where ROW and DEAD are zero, an OK response is RESULT over zeros (R320). -/
theorem okWord_of_result (v : BitVec 16) : okWord 0 false v = v ++ (0 : BitVec 16) := by
  have hword : (okWord 0 false v).toNat = ((((v.toNat <<< 1 ||| 0) <<< 7 ||| 0) <<< 4 ||| 0) <<< 4 ||| 0) := by
    rw [okWord, BitVec.toNat_append, BitVec.toNat_append, BitVec.toNat_append, BitVec.toNat_append]
    rfl
  have hshift : (v ++ (0 : BitVec 16)).toNat = v.toNat <<< 16 ||| 0 := BitVec.toNat_append _ _
  refine BitVec.eq_of_toNat_eq ?_
  rw [hword, hshift]
  simp only [Nat.or_zero, ← Nat.shiftLeft_add]

theorem okWord_zero : okWord 0 false 0 = 0 := by decide

/-- A byte answered in RESULT stands at bits 23..16 (R420). -/
theorem okWord_of_byte (x : Byte) : okWord 0 false (x.zeroExtend 16) = (0 : BitVec 8) ++ x ++ (0 : BitVec 16) := by
  have hzext : x.zeroExtend 16 = 0#8 ++ x := by
    refine BitVec.eq_of_toNat_eq ?_
    rw [BitVec.toNat_append, BitVec.zeroExtend, BitVec.toNat_setWidth_of_le (by decide)]
    simp
  rw [okWord_of_result, hzext]
  rfl

/-! ## ENC, BWR, BRD and REMAP -/

/-- Settles O15: RESULT is the formula of `encodeRgb565`, ROW and DEAD are zero. -/
theorem encAnswersRgb565 : Obligations.EncAnswersRgb565 := by
  intro r g b s hb
  have hexec : exec (.enc r g b) s = .next (s.respondOk 0 false (encodeRgb565 r g b)) :=
    congrArg Host.Outcome.next (State.whenIdle_of_idle hb _)
  rw [hexec, State.respondOk, okWord_of_result]
  rfl

/-- BUF[a] holds d, and the request that stored it has been answered (R410). -/
def State.stored (s : State) (a : BufAddr) (d : Byte) : State :=
  { s with buf := Memory.write s.buf a.toNat d, lastRc := .ok, responses := s.responses ++ [0] }

/-- A request that read a byte has been answered with it (R420). -/
def State.answeredByte (s : State) (x : Byte) : State :=
  { s with lastRc := .ok, responses := s.responses ++ [(0 : BitVec 8) ++ x ++ (0 : BitVec 16)] }

theorem exec_bwr_inside {s : State} {a : BufAddr} (h : s.phase = .ready)
    (hin : a.toNat < 2 * s.cfgWidth.toNat * s.cfgHeight.toNat) (d : Byte) :
    exec (.bwr a d) s = .next (s.stored a d) := by
  rw [exec_bwr_of_ready h, State.whenInBuf_inside hin, State.respondOk, okWord_zero]
  rfl

theorem exec_brd_inside {s : State} {a : BufAddr} (h : s.phase = .ready)
    (hin : a.toNat < 2 * s.cfgWidth.toNat * s.cfgHeight.toNat) :
    exec (.brd a) s = .next (s.answeredByte (s.readBuf a.toNat)) := by
  rw [exec_brd_of_ready h, State.whenInBuf_inside hin, State.respondOk, okWord_of_byte]
  rfl

/-- Settles O18, by the laws of `Memory.write`. -/
theorem bwrStoresOneByte : Obligations.BwrStoresOneByte := by
  intro a d s h hin hwf
  exact ⟨_, exec_bwr_inside h hin d, rfl, Memory.read_write_same hwf _ d,
    fun x hx => Memory.read_write_other _ hx d, Memory.write_wf hwf _ d⟩

/-- Settles O19. -/
theorem brdAnswersTheByte : Obligations.BrdAnswersTheByte := fun _ _ h hin => exec_brd_inside h hin

/-- GEOM of a legal configuration (R103). -/
theorem geometryOf_of_legal {h w : Byte} (hlegal : legalConfig h w = true) :
    geometryOf h = if h = 128 then .h128 else .h96 := by
  obtain ⟨rfl | rfl, -⟩ := legalConfig_iff.1 hlegal <;> rfl

/-- The dead band is the H96 panel's scan lines 64 to 95 (R506). -/
theorem deadLine_of_legal {h w : Byte} (hlegal : legalConfig h w = true) (l : Nat) :
    deadLine (geometryOf h) l = decide (h = 96 ∧ 64 ≤ l ∧ l < 96) := by
  have h96 : geometryOf 96 = .h96 := rfl
  have h128 : geometryOf 128 = .h128 := rfl
  obtain ⟨rfl | rfl, -⟩ := legalConfig_iff.1 hlegal
  · rw [deadLine, h96]
    simp
  · rw [deadLine, h128]
    simp

/-- Settles O23: the row fits ROW and the offset fits RESULT, so the response shows both in full. -/
theorem remapAnswersRowOffsetAndDead : Obligations.RemapAnswersRowOffsetAndDead := by
  intro l s h hlegal
  have hexec : exec (.remap l) s = .next (s.respondOk (BitVec.ofNat 7 (remapRow s.geometry l.toNat))
      (deadLine s.geometry l.toNat) (BitVec.ofNat 16 (rowOffset s.geometry s.cfgWidth.toNat l.toNat))) :=
    congrArg Host.Outcome.next (State.whenReady_of_ready h _)
  have hrow : remapRow s.geometry l.toNat < 128 :=
    (remapRow_lt_geometryRows _ l.isLt).trans_le (geometryRows_le _)
  have hoffset : rowOffset s.geometry s.cfgWidth.toNat l.toNat ≤ 64770 := rowOffset_le _ _ l.isLt
  have hgeom : s.geometry = if s.cfgHeight = 128 then .h128 else .h96 := geometryOf_of_legal hlegal
  refine ⟨_, hexec, okWord_low _ _ _, ?row, ?dead, ?result⟩
  case row => rw [okWord_row, BitVec.toNat_ofNat, Nat.mod_eq_of_lt hrow, hgeom]
  case dead => exact (okWord_dead _ _ _).trans (deadLine_of_legal hlegal _)
  case result =>
    rw [okWord_result, BitVec.toNat_ofNat, Nat.mod_eq_of_lt (by omega), rowOffset, hgeom]

/-! ## SHOW -/

theorem exec_showFrame_of_ready {s : State} (h : s.phase = .ready) :
    exec .showFrame s = .next s.commitShow.showBody := congrArg Host.Outcome.next (State.whenReady_of_ready h _)

/-- Settles O31: ShowBody's two starts, and the step that goes on from the second one. -/
theorem showStartsShowBody : Obligations.ShowStartsShowBody := by
  refine fun s h => ⟨fun hc => ?_, fun hc => ?_, fun rest hs hc hq => ?_⟩
  · rw [exec_showFrame_of_ready h, State.showBody_of_callback (s := s.commitShow) hc]
    rfl
  · rw [exec_showFrame_of_ready h, State.showBody_of_no_callback (s := s.commitShow) hc]
    rfl
  · rw [step_of_request hs hq decodeRequest_showFrame, exec_showFrame_of_ready (s := s.accepted rest) h,
      State.showBody_of_no_callback (s := (s.accepted rest).commitShow) hc, settled_enterShowCmd]
    rfl

/-! ## Storing and reading back -/

theorem runs_succ {n : Nat} {s t u : State} (h : step s = .next u) (h' : runs n u t) : runs (n + 1) s t := ⟨u, h, h'⟩

theorem runs_one {s t : State} (h : step s = .next t) : runs 1 s t := ⟨t, h, rfl⟩

/-- An idle block in READY with a buffer of n bytes, whose contents are m; the words q are presented to it, and rs
are its responses so far. -/
structure State.Serves (s : State) (n : Nat) (m : Memory) (q rs : List HostWord) : Prop where
  idle : s.idle
  phase : s.phase = .ready
  size : 2 * s.cfgWidth.toNat * s.cfgHeight.toNat = n
  buf : s.buf = m
  hostReqs : s.hostReqs = q
  responses : s.responses = rs

/-- A BWR inside the buffer is served by storing its byte (R410). -/
theorem State.Serves.bwr {s : State} {n : Nat} {m : Memory} {q rs : List HostWord} {a : BufAddr} {d : Byte}
    (h : s.Serves n m (requestWord (.bwr a d) :: q) rs) (ha : a.toNat < n) :
    ∃ t, step s = .next t ∧ t.Serves n (m.write a.toNat d) q (rs ++ [0]) := by
  refine ⟨(s.accepted q).stored a d, ?_, h.idle, h.phase, h.size, ?_, rfl, ?_⟩
  · rw [step_of_request h.idle h.hostReqs (decodeRequest_bwr a d),
      exec_bwr_inside (s := s.accepted q) h.phase (h.size ▸ ha)]
    exact settled_next h.idle.1.2.1
  · rw [← h.buf]; rfl
  · rw [← h.responses]; rfl

/-- A BRD inside the buffer is served by answering its byte (R420). -/
theorem State.Serves.brd {s : State} {n : Nat} {m : Memory} {q rs : List HostWord} {a : BufAddr}
    (h : s.Serves n m (requestWord (.brd a) :: q) rs) (ha : a.toNat < n) :
    ∃ t, step s = .next t ∧ t.Serves n m q (rs ++ [(0 : BitVec 8) ++ m.read a.toNat ++ (0 : BitVec 16)]) := by
  refine ⟨(s.accepted q).answeredByte (s.readBuf a.toNat), ?_, h.idle, h.phase, h.size, h.buf, rfl, ?_⟩
  · rw [step_of_request h.idle h.hostReqs (decodeRequest_brd a),
      exec_brd_inside (s := s.accepted q) h.phase (h.size ▸ ha)]
    exact settled_next h.idle.1.2.1
  · rw [← h.responses, ← h.buf]; rfl

/-- Settles O21: the BRD's step reads what the BWR's step stored. -/
theorem bwrThenBrdReadsBack : Obligations.BwrThenBrdReadsBack := by
  intro a d s rest hs h hwf hin hq
  have hserves : s.Serves _ s.buf _ s.responses := ⟨hs, h, rfl, rfl, hq, rfl⟩
  obtain ⟨t, hput, ht⟩ := hserves.bwr hin
  obtain ⟨u, hget, hu⟩ := ht.brd hin
  refine ⟨u, runs_succ hput (runs_one hget), hu.hostReqs, ?_⟩
  rw [hu.responses, Memory.read_write_same hwf, List.append_assoc]
  rfl

/-- `BWR a, d` with operands that fit, as numbers (R330). -/
theorem bwrWord_of_lt {a d : Nat} (ha : a < 65536) (hd : d < 256) :
    bwrWord a d = some (requestWord (.bwr (BitVec.ofNat 16 a) (BitVec.ofNat 8 d))) := by
  rw [← bwrWord_eq, BitVec.toNat_ofNat, BitVec.toNat_ofNat, Nat.mod_eq_of_lt ha, Nat.mod_eq_of_lt hd]

theorem brdWord_of_lt {a : Nat} (ha : a < 65536) : brdWord a = some (requestWord (.brd (BitVec.ofNat 16 a))) := by
  rw [← brdWord_eq, BitVec.toNat_ofNat, Nat.mod_eq_of_lt ha]

/-- Both bytes of a pixel of the panel lie inside the buffer (R202). -/
theorem pixelAddress_lt {w h x y : Nat} (hx : x < w) (hy : y < h) : pixelAddress w x y + 1 < 2 * w * h := by
  have hpixel : y * w + x + 1 ≤ h * w := calc
    y * w + x + 1 ≤ y * w + w := by omega
    _ = (y + 1) * w := (Nat.succ_mul y w).symm
    _ ≤ h * w := Nat.mul_le_mul_right w hy
  have hbytes : 2 * w * h = 2 * (h * w) := by ring
  unfold pixelAddress
  omega

/-- The two bytes of a 16-bit value, put together again (R207). -/
theorem high_append_low (v : BitVec 16) :
    (BitVec.ofNat 8 (v.toNat / 256) ++ BitVec.ofNat 8 (v.toNat % 256) : BitVec 16) = v := by
  have hv : v.toNat < 65536 := v.isLt
  refine BitVec.eq_of_toNat_eq ?_
  rw [BitVec.toNat_append, ← Nat.shiftLeft_add_eq_or_of_lt (BitVec.isLt _), BitVec.toNat_ofNat, BitVec.toNat_ofNat,
    Nat.shiftLeft_eq]
  omega

/-- The value of two responses that carry a byte each (R331). -/
theorem pixrValue_of_bytes (x y : Byte) :
    pixrValue ((0 : BitVec 8) ++ x ++ (0 : BitVec 16)) ((0 : BitVec 8) ++ y ++ (0 : BitVec 16)) = x ++ y := by
  have hbyte : ∀ z : Byte, ((0 : BitVec 8) ++ z ++ (0 : BitVec 16)).extractLsb' 16 8 = z := fun z =>
    (slice_of_high (0#8 ++ z) 0#16 rfl).trans BitVec.extractLsb'_append_eq_right
  exact congrArg₂ (· ++ ·) (hbyte x) (hbyte y)

/-- Two bytes are stored, one after the other, and then read back. -/
theorem State.Serves.bwr_bwr_brd_brd {s : State} {n : Nat} {m : Memory} {q rs : List HostWord} {a b : BufAddr} {x y : Byte}
    (h : s.Serves n m (requestWord (.bwr a x) :: requestWord (.bwr b y) :: requestWord (.brd a)
      :: requestWord (.brd b) :: q) rs) (hwf : Memory.wf m) (hab : a.toNat ≠ b.toNat) (ha : a.toNat < n)
    (hb : b.toNat < n) :
    ∃ t, runs 4 s t ∧ t.hostReqs = q ∧ t.responses
      = rs ++ [0, 0, (0 : BitVec 8) ++ x ++ (0 : BitVec 16), (0 : BitVec 8) ++ y ++ (0 : BitVec 16)] := by
  obtain ⟨t, hputX, ht⟩ := h.bwr ha
  obtain ⟨u, hputY, hu⟩ := ht.bwr hb
  obtain ⟨v, hgetX, hv⟩ := hu.brd ha
  obtain ⟨z, hgetY, hz⟩ := hv.brd hb
  have hx : ((m.write a.toNat x).write b.toNat y).read a.toNat = x :=
    (Memory.read_write_other _ hab y).trans (Memory.read_write_same hwf _ x)
  have hy : ((m.write a.toNat x).write b.toNat y).read b.toNat = y :=
    Memory.read_write_same (Memory.write_wf hwf _ x) _ y
  refine ⟨z, runs_succ hputX (runs_succ hputY (runs_succ hgetX (runs_one hgetY))), hz.hostReqs, ?_⟩
  rw [hz.responses, hx, hy]
  simp only [List.append_assoc, List.cons_append, List.nil_append]

/-- Settles O22: the four requests are the two bytes' BWRs and BRDs, at an even address and the one after it. -/
theorem pixwThenPixrReadsBack : Obligations.PixwThenPixrReadsBack := by
  intro x y v s rest hs h hwf hlegal hx hy
  have hin := pixelAddress_lt hx hy
  have hwidth : s.cfgWidth.toNat ≤ 255 := Nat.le_of_lt_succ s.cfgWidth.isLt
  have hheight : s.cfgHeight.toNat ≤ 128 := by
    obtain ⟨hh | hh, -⟩ := legalConfig_iff.1 hlegal <;> rw [hh] <;> decide
  have hsize : 2 * s.cfgWidth.toNat * s.cfgHeight.toNat ≤ 2 * 255 * 128 :=
    Nat.mul_le_mul (Nat.mul_le_mul_left 2 hwidth) hheight
  have hv : v.toNat < 65536 := v.isLt
  rw [pixw, pixr, if_pos hv]
  generalize pixelAddress s.cfgWidth.toNat x y = n at hin ⊢
  have hlow : (BitVec.ofNat 16 n).toNat = n := Nat.mod_eq_of_lt (show n < 2 ^ 16 by omega)
  have hhigh : (BitVec.ofNat 16 (n + 1)).toNat = n + 1 := Nat.mod_eq_of_lt (show n + 1 < 2 ^ 16 by omega)
  rw [bwrWord_of_lt (a := n) (by omega) (by omega), bwrWord_of_lt (a := n + 1) (by omega) (by omega),
    brdWord_of_lt (a := n) (by omega), brdWord_of_lt (a := n + 1) (by omega)]
  refine ⟨_, _, rfl, rfl, fun hq => ?_⟩
  have hserves : s.Serves _ s.buf _ s.responses := ⟨hs, h, rfl, rfl, hq, rfl⟩
  obtain ⟨t, hruns, hrest, hresponses⟩ := hserves.bwr_bwr_brd_brd hwf (by omega) (by omega) (by omega)
  exact ⟨t, _, _, hruns, hrest, hresponses, (pixrValue_of_bytes _ _).trans (high_append_low v)⟩

end Sys2Proof.Machine
end

section
/-! PROOFS. The invariant of the block: it holds at power-on, every step and every act of an agent keeps it, and where it holds the step answers a next state. -/

namespace Sys2Proof.Machine

/-! ## The clauses by phase -/

/-- The clauses of the invariant that do not depend on PHASE, over the fields they speak of. -/
structure SoundFields (rom : List Byte) (buf : Memory) (h w : BitVec 8) (idx : BitVec 6) (line : BitVec 8)
    (sticky : Bool) (failPhase : BitVec 4) (fetching : Bool) : Prop where
  rom : rom = initRom
  bufCanonical : Memory.wf buf
  bufBounded : ∀ c ∈ buf, c.1 < 2 * w.toNat * h.toNat
  initRange : idx.toNat ≤ 57
  lineRange : line.toNat ≤ 128
  noFailure : sticky = false → failPhase = 0
  failure : sticky = true → failPhase = 4 ∨ failPhase = 6 ∨ failPhase = 7
  settled : fetching = false

/-- What the invariant says in every PHASE. A change of any other field keeps it, by definition. -/
def State.Sound (s : State) : Prop :=
  SoundFields s.rom s.buf s.cfgHeight s.cfgWidth s.initIdx s.line s.errSticky s.failPhase s.fetching

theorem State.Consistent.sound {s : State} (h : s.Consistent) : s.Sound :=
  ⟨h.rom, h.bufCanonical, h.bufBounded, h.initRange, h.lineRange, h.noFailure, h.failure, h.settled⟩

/-- The request word that CUR_REQ holds while BUSY = 1 (R120). -/
def runningRequest (k : OpKind) (h w : BitVec 8) (cb : Bool) : HostWord :=
  match k with
  | .construct => requestWord (.construct h w cb)
  | .showFrame => requestWord .showFrame

/-- A request is running, with a legal configuration (R120, R452). -/
def State.Running (s : State) : Prop :=
  legalConfig s.cfgHeight s.cfgWidth = true ∧ s.curReq = runningRequest s.opKind s.cfgHeight s.cfgWidth s.cfgCbEn

theorem State.Consistent.legal {s : State} (h : s.Consistent) (hph : s.phase ≠ .unconf) :
    legalConfig s.cfgHeight s.cfgWidth = true := h.config.resolve_right fun hu => hph hu.1

theorem State.Consistent.running {s : State} (h : s.Consistent) (hb : s.busy = true) : s.Running := by
  refine ⟨h.legal fun hu => ?_, ?_⟩
  · rw [s.busy_eq_false_iff.2 (.inl hu)] at hb
    exact Bool.false_ne_true hb
  · cases hop : s.opKind with
    | construct => exact h.constructRequest hb hop
    | showFrame => exact h.showRequest hb hop

/-- Chip-select is idle, or a BusError left it selected (R603, R610). -/
def State.Deselected (s : State) : Prop := s.cs = (!s.params.csSelectLevel) ∨ s.errSticky = true

/-- Outside a WRITE chip-select is as `Deselected` says, and no transaction is at hand (R600, R603). -/
theorem State.Consistent.quiet {s : State} (h : s.Consistent) (hw : s.wait ≠ .bus) :
    s.Deselected ∧ s.txBytes = [] := by
  have hfits := h.waitPhase
  refine ⟨h.csIdle hw, h.noTransfer ?_ ?_ ?_⟩ <;> intro hph <;> rw [hph] at hfits <;> exact hw (beq_iff_eq.1 hfits)

theorem State.Consistent.resHigh {s : State} (h : s.Consistent) (hph : s.phase ≠ .rstLo) : s.res = true := by
  cases hr : s.res
  · exact absurd (h.resetLine.1 hr) hph
  · rfl

/-- The invariant in UNCONF and READY. -/
theorem State.Consistent.of_idle {s : State} (hs : s.Sound)
    (hph : (s.phase = .unconf ∧ (legalConfig s.cfgHeight s.cfgWidth = true
        ∨ s.cfgHeight = 0 ∧ s.cfgWidth = 0 ∧ s.cfgCbEn = false))
      ∨ (s.phase = .ready ∧ legalConfig s.cfgHeight s.cfgWidth = true ∧ s.initIdx = 57))
    (hwait : s.wait = .host) (hres : s.res = true) (hcs : s.Deselected) (htx : s.txBytes = []) : s.Consistent := by
  have hidle : s.busy = false := s.busy_eq_false_iff.2 (hph.imp And.left And.left)
  rcases hph with ⟨hp, hconfig⟩ | ⟨hp, hlegal, hidx⟩ <;> exact {
    rom := hs.rom
    bufCanonical := hs.bufCanonical
    bufBounded := hs.bufBounded
    config := by simp_all
    settled := hs.settled
    waitPhase := by rw [hp, hwait]; rfl
    initRange := hs.initRange
    initDone := by simp_all
    initNotBegun := by simp [hp]
    lineRange := hs.lineRange
    lineRunning := by simp [hp]
    constructing := by simp [hp]
    callback := by simp [hp]
    resetLine := by simp_all
    writeSelected := fun hb => nomatch hwait.symm.trans hb
    writeDataMode := by simp [hp]
    writeCmdMode := fun hb => nomatch hwait.symm.trans hb
    csIdle := fun _ => hcs
    blobTransfer := by simp [hp]
    discreteTransfer := by simp [hp]
    enableTransfer := by simp [hp]
    lineTransfer := by simp [hp]
    noTransfer := fun _ _ _ => htx
    noFailure := hs.noFailure
    failure := hs.failure
    constructRequest := fun hb => absurd (hidle.symm.trans hb) Bool.false_ne_true
    showRequest := fun hb => absurd (hidle.symm.trans hb) Bool.false_ne_true }

/-- The invariant during a reset hold. -/
theorem State.Consistent.of_hold {s : State} (hs : s.Sound) (hrun : s.Running)
    (hph : (s.phase = .rstLo ∧ s.res = false) ∨ (s.phase = .rstHi ∧ s.res = true))
    (hwait : s.wait = .delay) (hop : s.opKind = .construct) (hidx : s.initIdx = 0) (hcs : s.Deselected)
    (htx : s.txBytes = []) : s.Consistent := by
  rcases hph with ⟨hp, hres⟩ | ⟨hp, hres⟩ <;> exact {
    rom := hs.rom
    bufCanonical := hs.bufCanonical
    bufBounded := hs.bufBounded
    config := .inl hrun.1
    settled := hs.settled
    waitPhase := by rw [hp, hwait]; rfl
    initRange := hs.initRange
    initDone := by simp [hp]
    initNotBegun := fun _ => hidx
    lineRange := hs.lineRange
    lineRunning := by simp [hp]
    constructing := fun _ => hop
    callback := by simp [hp]
    resetLine := by simp_all
    writeSelected := fun hb => nomatch hwait.symm.trans hb
    writeDataMode := by simp [hp]
    writeCmdMode := fun hb => nomatch hwait.symm.trans hb
    csIdle := fun _ => hcs
    blobTransfer := by simp [hp]
    discreteTransfer := by simp [hp]
    enableTransfer := by simp [hp]
    lineTransfer := by simp [hp]
    noTransfer := fun _ _ _ => htx
    noFailure := hs.noFailure
    failure := hs.failure
    constructRequest := fun _ hop => by rw [hrun.2, hop]; rfl
    showRequest := fun _ hop => by rw [hrun.2, hop]; rfl }

/-- The invariant during a callback. -/
theorem State.Consistent.of_callback {s : State} (hs : s.Sound) (hrun : s.Running)
    (hph : (s.phase = .cbInit ∧ s.opKind = .construct ∧ s.initIdx = 0) ∨ (s.phase = .cbShow ∧ s.initIdx = 57))
    (hwait : s.wait = .cb) (hcb : s.cfgCbEn = true) (hres : s.res = true) (hcs : s.Deselected)
    (htx : s.txBytes = []) : s.Consistent := by
  rcases hph with ⟨hp, hop, hidx⟩ | ⟨hp, hidx⟩ <;> exact {
    rom := hs.rom
    bufCanonical := hs.bufCanonical
    bufBounded := hs.bufBounded
    config := .inl hrun.1
    settled := hs.settled
    waitPhase := by rw [hp, hwait]; rfl
    initRange := hs.initRange
    initDone := by simp_all
    initNotBegun := by simp_all
    lineRange := hs.lineRange
    lineRunning := by simp [hp]
    constructing := by simp_all
    callback := fun _ => hcb
    resetLine := by simp_all
    writeSelected := fun hb => nomatch hwait.symm.trans hb
    writeDataMode := by simp [hp]
    writeCmdMode := fun hb => nomatch hwait.symm.trans hb
    csIdle := fun _ => hcs
    blobTransfer := by simp [hp]
    discreteTransfer := by simp [hp]
    enableTransfer := by simp [hp]
    lineTransfer := by simp [hp]
    noTransfer := fun _ _ _ => htx
    noFailure := hs.noFailure
    failure := hs.failure
    constructRequest := fun _ hop => by rw [hrun.2, hop]; rfl
    showRequest := fun _ hop => by rw [hrun.2, hop]; rfl }

/-- The WRITE that runs is the one its phase is for, and the mode line says its mode (R457, R552, R553, R602). -/
def State.Transfers (s : State) : Prop :=
  (s.phase = .init ∧ s.opKind = .construct ∧ InitTransaction s.params s.initIdx s.txBytes
      ∧ s.dc = s.params.dcCmdLevel)
    ∨ (s.phase = .showCmd ∧ s.initIdx = 57 ∧ s.txBytes = [s.params.cmdWriteRam] ∧ s.dc = s.params.dcCmdLevel)
    ∨ (s.phase = .showLines ∧ s.initIdx = 57 ∧ s.line.toNat < 128 ∧ s.txBytes = s.lineData s.line.toNat
      ∧ s.dc = !s.params.dcCmdLevel)

/-- The invariant during a WRITE. -/
theorem State.Consistent.of_write {s : State} (hs : s.Sound) (hrun : s.Running) (hwrite : s.Transfers)
    (hwait : s.wait = .bus) (hres : s.res = true) (hcs : s.cs = s.params.csSelectLevel) : s.Consistent := by
  rcases hwrite with ⟨hp, hop, ⟨hblob, hdiscrete⟩, hdc⟩ | ⟨hp, hidx, htx, hdc⟩ | ⟨hp, hidx, hline, htx, hdc⟩ <;> exact {
    rom := hs.rom
    bufCanonical := hs.bufCanonical
    bufBounded := hs.bufBounded
    config := .inl hrun.1
    settled := hs.settled
    waitPhase := by rw [hp, hwait]; rfl
    initRange := hs.initRange
    initDone := by simp_all
    initNotBegun := by simp [hp]
    lineRange := hs.lineRange
    lineRunning := by simp_all
    constructing := by simp_all
    callback := by simp [hp]
    resetLine := by simp_all
    writeSelected := fun _ => hcs
    writeDataMode := by simp_all
    writeCmdMode := by simp_all
    csIdle := fun hne => absurd hwait hne
    blobTransfer := by simp_all
    discreteTransfer := by simp_all
    enableTransfer := by simp_all
    lineTransfer := by simp_all
    noTransfer := by simp [hp]
    noFailure := hs.noFailure
    failure := hs.failure
    constructRequest := fun _ hop => by rw [hrun.2, hop]; rfl
    showRequest := fun _ hop => by rw [hrun.2, hop]; rfl }

/-! ## Power-on and the agents -/

/-- Settles O49: the block is in UNCONF and has committed no configuration. -/
theorem consistentAtPowerOn : Obligations.ConsistentAtPowerOn := by
  intro p
  have hsound : (State.powerOn p).Sound :=
    ⟨rfl, Memory.wf_nil, nofun, Nat.zero_le _, Nat.zero_le _, fun _ => rfl, nofun, rfl⟩
  exact .of_idle hsound (.inl ⟨rfl, .inr ⟨rfl, rfl, rfl⟩⟩) rfl rfl (.inl rfl) rfl

/-- Settles O51: no clause of the invariant speaks of a mailbox. -/
theorem consistentKeptByAgents : Obligations.ConsistentKeptByAgents := by
  intro s a h
  cases a <;> exact { h with }

theorem State.Consistent.accepted {s : State} (h : s.Consistent) (rest : List HostWord) :
    (s.accepted rest).Consistent := { h with }

/-- A power-on reset of a block with the fixed ROM is a power-on, but for the record and the mailboxes (R802). -/
theorem State.Consistent.powerOnReset {s : State} (h : s.Consistent) (k : Nat) : (s.powerOnReset k).Consistent :=
  { consistentAtPowerOn s.params with rom := h.rom }

/-! ## Requests -/

theorem State.Consistent.respond {s : State} (h : s.Consistent) (rc : ResultCode) (w : HostWord) :
    (s.respond rc w).Consistent := { h with }

theorem State.Consistent.whenReady {s : State} {f : State → State} (h : s.Consistent)
    (hf : s.phase = .ready → (f s).Consistent) : (s.whenReady f).Consistent := by
  rcases s.whenReady_cases f with ⟨-, he⟩ | ⟨-, he⟩ | ⟨hr, he⟩ <;> rw [he]
  · exact h
  · exact h.respond _ _
  · exact hf hr

theorem State.Consistent.whenInBuf {s : State} {a : BufAddr} {f : State → State} (h : s.Consistent)
    (hf : a.toNat < s.bufBytes → (f s).Consistent) : (s.whenInBuf a f).Consistent := by
  rcases Nat.lt_or_ge a.toNat s.bufBytes with hin | hbeyond
  · rw [State.whenInBuf_inside hin]
    exact hf hin
  · rw [State.whenInBuf_beyond hbeyond]
    exact h.respond _ _

/-- A byte stored in READY inside the buffer: only the clauses about BUF have to be shown. -/
theorem State.Consistent.writeBuf {s : State} (h : s.Consistent) (hr : s.phase = .ready) {a : Nat}
    (ha : a < s.bufBytes) (v : Byte) : (s.writeBuf a v).Consistent :=
  { h with
    bufCanonical := Memory.write_wf h.bufCanonical a v
    bufBounded := Memory.write_bounded h.bufBounded ha v
    lineTransfer := fun hl => nomatch hr.symm.trans hl }

/-- An idle block drives no line to an active level but for what a BusError left. -/
theorem State.Consistent.idleLines {s : State} (h : s.Consistent) (hw : s.wait = .host) :
    s.res = true ∧ s.Deselected ∧ s.txBytes = [] := by
  refine ⟨h.resHigh fun hph => ?_, h.quiet (by rw [hw]; decide)⟩
  have hfits := h.waitPhase
  rw [hph, hw] at hfits
  exact Bool.false_ne_true hfits

/-- A legal CONSTRUCT starts the reset pulse with an empty buffer and its own configuration (R452, R454). -/
theorem State.Consistent.construct {s : State} (h : s.Consistent) (hw : s.wait = .host) {hgt w : Byte}
    (hlegal : legalConfig hgt w = true) (cb : Bool) :
    (((s.commitConstruct hgt w cb).goTo .rstLo).drive .res false).startHold.Consistent := by
  have hs := h.sound
  obtain ⟨-, hcs, htx⟩ := h.idleLines hw
  have hsound : (((s.commitConstruct hgt w cb).goTo .rstLo).drive .res false).startHold.Sound :=
    ⟨hs.rom, Memory.wf_nil, nofun, Nat.zero_le _, Nat.zero_le _, hs.noFailure, hs.failure, hs.settled⟩
  exact .of_hold hsound ⟨hlegal, rfl⟩ (.inl ⟨rfl, rfl⟩) rfl rfl rfl hcs htx

/-- A SHOW in READY with a callback starts it (R551). -/
theorem State.Consistent.showCallback {s : State} (h : s.Consistent) (hw : s.wait = .host) (hr : s.phase = .ready)
    (hc : s.cfgCbEn = true) : (s.commitShow.goTo .cbShow).startCallback.Consistent := by
  obtain ⟨hres, hcs, htx⟩ := h.idleLines hw
  have hlegal := h.legal (by rw [hr]; decide)
  have hidx := h.initDone (.inr (.inr (.inr hr)))
  exact .of_callback h.sound ⟨hlegal, rfl⟩ (.inr ⟨rfl, hidx⟩) rfl hc hres hcs htx

/-- Every request that ends at a waiting point keeps the invariant. -/
theorem State.Consistent.exec_request {i : Instr} {s t : State} (h : s.Consistent) (hw : s.wait = .host)
    (hb : s.busy = false) (hi : i.isRequest = true) (hexec : exec i s = .next t) (hf : t.fetching = false) :
    t.Consistent := by
  cases i <;> simp only [Instr.isRequest, Bool.false_eq_true] at hi
  case construct hgt w cb =>
    by_cases hlegal : legalConfig hgt w = true
    · rw [exec_construct_of_legal hb hlegal] at hexec
      injection hexec with hexec
      exact hexec ▸ h.construct hw hlegal cb
    · rw [exec_construct_of_illegal hb hlegal] at hexec
      injection hexec with hexec
      exact hexec ▸ h.respond _ _
  case showFrame =>
    injection hexec with hexec
    subst hexec
    rcases s.whenReady_cases fun t => t.commitShow.showBody with ⟨-, he⟩ | ⟨-, he⟩ | ⟨hr, he⟩ <;> rw [he] at hf ⊢
    · exact h
    · exact h.respond _ _
    · cases hc : s.cfgCbEn
      · rw [State.showBody_of_no_callback (s := s.commitShow) hc] at hf
        nomatch hf
      · rw [State.showBody_of_callback (s := s.commitShow) hc]
        exact h.showCallback hw hr hc
  case bwr a d =>
    injection hexec with hexec
    subst hexec
    exact h.whenReady fun hr => h.whenInBuf fun ha => (h.writeBuf hr ha d).respond _ _
  case brd a =>
    injection hexec with hexec
    subst hexec
    exact h.whenReady fun _ => h.whenInBuf fun _ => h.respond _ _
  case enc r g b =>
    injection hexec with hexec
    subst hexec
    rw [State.whenIdle_of_idle hb]
    exact h.respond _ _
  case remap l =>
    injection hexec with hexec
    subst hexec
    exact h.whenReady fun _ => h.respond _ _

/-! ## Transactions -/

/-- A WRITE changes none of the fields that `Sound` speaks of. -/
theorem State.Sound.write {s : State} (hs : s.Sound) (p : Phase) (m : BusMode) (bytes : List Byte) :
    ((s.enterFetch p).startTransaction m bytes).Sound :=
  { hs with settled := rfl }

/-- The enable-data-write command's WRITE, in whatever state ShowBody starts (R552). -/
theorem State.Consistent.enable {s : State} (hs : s.Sound) (hrun : s.Running) (hidx : s.initIdx = 57)
    (hres : s.res = true) :
    ((s.enterFetch .showCmd).startTransaction .cmd [s.params.cmdWriteRam]).Consistent :=
  .of_write (hs.write _ _ _) hrun (.inr (.inl ⟨rfl, hidx, rfl, rfl⟩)) rfl hres rfl

/-- The init WRITE that stands at INIT_IDX, in whatever state the streamer goes on (R457). -/
theorem State.Consistent.initWrite {s t : State} {bytes : List Byte} (hs : s.Sound) (hrun : s.Running)
    (hop : s.opKind = .construct) (hb : InitTransaction s.params s.initIdx bytes) (hres : s.res = true)
    (h : Sys2Proof.Machine.settled (.next (s.enterFetch .init)) = .next t) : t.Consistent := by
  rw [settled_of_initTransaction (s := s.enterFetch .init) ⟨rfl, rfl⟩ hs.rom rfl hb,
    ← State.startTransaction_eq_issued] at h
  injection h with h
  subst h
  exact .of_write (hs.write _ _ _) hrun (.inl ⟨rfl, hop, hb, rfl⟩) rfl hres rfl

/-- The first init WRITE, where INIT_IDX is still 0. -/
theorem State.Consistent.firstInitWrite {s t : State} (hs : s.Sound) (hrun : s.Running) (hop : s.opKind = .construct)
    (hidx : s.initIdx = 0) (hres : s.res = true) (h : Sys2Proof.Machine.settled (.next (s.enterFetch .init)) = .next t) :
    t.Consistent :=
  .initWrite hs hrun hop (hidx ▸ initTransaction_first s.params) hres h

/-- Every range ends where the ROM or another range does (R652). -/
theorem initRanges_next : ∀ r ∈ initRanges, r.2 = 57 ∨ ∃ r' ∈ initRanges, r.2 = r'.1 := by decide

/-- Where the running init WRITE ends, the stream ends or another transaction stands (R651, R652). -/
theorem State.Consistent.advanceInit_cases {s : State} (h : s.Consistent) (hph : s.phase = .init) :
    (s.advanceInit s.txBytes.length).initIdx = 57
      ∨ ((s.advanceInit s.txBytes.length).initIdx.toNat < 57
        ∧ ∃ bytes, InitTransaction s.params (s.advanceInit s.txBytes.length).initIdx bytes) := by
  cases hf : s.params.initFraming with
  | blob =>
    obtain ⟨hidx, htx⟩ := h.blobTransfer hph hf
    refine .inl ?_
    rw [State.advanceInit, hidx, htx, initRom_length]
    rfl
  | discrete =>
    obtain ⟨r, hr, hidx, htx⟩ := h.discreteTransfer hph hf
    obtain ⟨hlt, hle, hlen⟩ := initRanges_advance r hr
    have hnat : (s.advanceInit s.txBytes.length).initIdx.toNat = r.2 := by
      rw [State.advanceInit, BitVec.toNat_add, BitVec.toNat_ofNat, htx, hlen, hidx]
      omega
    rcases initRanges_next r hr with hlast | ⟨r', hr', hstart⟩
    · exact .inl (BitVec.eq_of_toNat_eq (hnat.trans hlast))
    · have hlt' := initRanges_advance r' hr'
      exact .inr ⟨by omega, _, ⟨fun hb => (nomatch hf.symm.trans hb), fun _ => ⟨r', hr', hnat.trans hstart, rfl⟩⟩⟩

/-- The WRITE of scan line LINE (R553). -/
theorem State.Consistent.sendLine {s : State} (hs : s.Sound) (hrun : s.Running) (hph : s.phase = .showLines)
    (hidx : s.initIdx = 57) (hline : s.line.toNat < 128) (hres : s.res = true) : s.sendLine.Consistent := by
  have hsound : s.sendLine.Sound := { hs with settled := rfl }
  exact .of_write hsound hrun (.inr (.inr ⟨hph, hidx, hline, rfl, rfl⟩)) rfl hres rfl

/-- The end of a request that made the block busy (R459, R550). -/
theorem State.Consistent.finish {s : State} (hs : s.Sound) (hlegal : legalConfig s.cfgHeight s.cfgWidth = true)
    (hidx : s.initIdx = 57) (hres : s.res = true) (hcs : s.Deselected) (htx : s.txBytes = []) : s.finish.Consistent :=
  .of_idle (s := s.finish) hs (.inr ⟨rfl, hlegal, hidx⟩) rfl hres hcs htx

/-- A scan line answered OK keeps the invariant: the next line is sent, or the request ends (R553, R554). -/
theorem State.Consistent.lineOk {s : State} (h : s.Consistent) (hph : s.phase = .showLines) (rest : List BusAnswer) :
    (s.afterOk rest).afterLineWrite.Consistent := by
  have hs := h.sound
  have hrun : s.Running := h.running (State.busy_of_phase hph rfl)
  have hidx : s.initIdx = 57 := h.initDone (by simp [hph])
  have hres := h.resHigh (by simp [hph])
  have hlt := h.lineRunning hph
  have hline : (s.line + 1).toNat ≤ 128 := by rw [BitVec.toNat_add]; exact (Nat.mod_le _ _).trans hlt
  have hsound : (s.afterOk rest).advanceLine.Sound := { hs with lineRange := hline }
  unfold State.afterLineWrite
  split
  · next hnext =>
    exact .sendLine hsound hrun hph hidx hnext hres
  · exact .finish hsound hrun.1 hidx hres (.inl rfl) rfl

/-- The BusError exit keeps the invariant: it locates the failure in one of three phases (R122, R705). -/
theorem State.Consistent.busError {s : State} (h : s.Consistent)
    (hph : s.phase = .init ∨ s.phase = .showCmd ∨ s.phase = .showLines) (k : Nat) (rest : List BusAnswer) :
    (s.tookAnswer rest k).busErrorExit.Consistent := by
  have hs := h.sound
  have hlegal := h.legal (by rcases hph with hph | hph | hph <;> simp [hph])
  have hres := h.resHigh (by rcases hph with hph | hph | hph <;> simp [hph])
  have hbits : s.phase.bits = 4 ∨ s.phase.bits = 6 ∨ s.phase.bits = 7 := by
    rcases hph with hph | hph | hph <;> rw [hph] <;> decide
  have hsound : (s.tookAnswer rest k).busErrorExit.Sound := { hs with noFailure := nofun, failure := fun _ => hbits }
  refine .of_idle hsound ?_ rfl hres (.inr rfl) rfl
  cases hop : s.opKind with
  | construct => exact .inl ⟨congrArg failedPhase hop, .inl hlegal⟩
  | showFrame =>
    refine .inr ⟨congrArg failedPhase hop, hlegal, h.initDone ?_⟩
    rcases hph with hph | hph | hph
    · exact nomatch hop.symm.trans (h.constructing (.inr (.inr (.inr hph))))
    · exact .inr (.inl hph)
    · exact .inr (.inr (.inl hph))

/-! ## The steps -/

theorem State.Consistent.holdOver {s : State} (h : s.Consistent) : s.holdOver.Consistent := by
  rw [s.holdOver_eq]
  exact { h with }

/-- What follows the first hold keeps the invariant (R455). -/
theorem State.Consistent.holdLow {s : State} (h : s.Consistent) (hph : s.phase = .rstLo) (hw : s.wait = .delay) :
    ((s.goTo .rstHi).drive .res true).startHold.Consistent := by
  obtain ⟨hcs, htx⟩ := h.quiet (by simp [hw])
  exact .of_hold h.sound (h.running (State.busy_of_phase hph rfl)) (.inr ⟨rfl, rfl⟩) rfl
    (h.constructing (.inl hph)) (h.initNotBegun (.inl hph)) hcs htx

/-- The callback that follows the second hold keeps the invariant (R455). -/
theorem State.Consistent.holdHighCallback {s : State} (h : s.Consistent) (hph : s.phase = .rstHi)
    (hw : s.wait = .delay) (hc : s.cfgCbEn = true) : (s.goTo .cbInit).startCallback.Consistent := by
  obtain ⟨hcs, htx⟩ := h.quiet (by simp [hw])
  exact .of_callback h.sound (h.running (State.busy_of_phase hph rfl))
    (.inl ⟨rfl, h.constructing (.inr (.inl hph)), h.initNotBegun (.inr (.inl hph))⟩) rfl hc
    (h.resHigh (by simp [hph])) hcs htx

/-- The init stream that follows the second hold, or a callback, starts with INIT_IDX 0 (R455, R456). -/
theorem State.Consistent.enterInit {s t : State} (h : s.Consistent) (hph : s.phase = .rstHi ∨ s.phase = .cbInit)
    (hs : Sys2Proof.Machine.settled (.next (s.enterFetch .init)) = .next t) : t.Consistent := by
  have hb : s.busy = true := by rcases hph with hph | hph <;> exact State.busy_of_phase hph rfl
  exact .firstInitWrite h.sound (h.running hb) (h.constructing (.inr (hph.imp_right .inl)))
    (h.initNotBegun (.inr hph)) (h.resHigh (by rcases hph with hph | hph <;> simp [hph])) hs

/-- Settles O50: each way a step can go keeps the invariant. -/
theorem consistentKeptByStep : Obligations.ConsistentKeptByStep := by
  intro s t h hstep
  have hs := h.sound
  cases stepsTo_of_step hstep
  case powerOnReset k hp ht => exact ht ▸ h.powerOnReset k
  case resumed bytes hp hf hph ht => exact nomatch h.settled.symm.trans hf
  case noRequest | noAck | noAnswer =>
    subst ‹t = s›
    exact h
  case request i w rest hw hb hq hd ht hf =>
    exact (h.accepted rest).exec_request hw.2.2 hb (isRequest_of_decodeRequest hd) ht hf
  case showEnable w rest hw hph hq hd hc ht =>
    subst ht
    exact .enable (s := (s.accepted rest).commitShow) hs ⟨h.legal (by simp [hph]), rfl⟩ (h.initDone (by simp [hph]))
      (h.idleLines hw.2.2).1
  case illegal e w rest hw hb hq hd ht => exact ht ▸ (h.accepted rest).respond _ _
  case holdLow hw hph ht =>
    subst ht
    exact h.holdOver.holdLow (by rw [s.holdOver_eq]; exact hph) (by rw [s.holdOver_eq]; exact hw.2.2)
  case holdHighCallback hw hph hc ht =>
    subst ht
    exact h.holdOver.holdHighCallback (by rw [s.holdOver_eq]; exact hph) (by rw [s.holdOver_eq]; exact hw.2.2)
      (by rw [s.holdOver_eq]; exact hc)
  case holdHigh bytes hw hph hc hset ht =>
    exact h.holdOver.enterInit (.inl (by rw [s.holdOver_eq]; exact hph)) hset
  case ackInit n bytes hw hq hph hset ht =>
    have hack : (s.tookAck n).Consistent := { h with }
    exact hack.enterInit (.inr hph) hset
  case ackShow n hw hq hph ht =>
    subst ht
    exact .enable (s := s.tookAck n) hs (h.running (State.busy_of_phase hph rfl)) (h.initDone (.inl hph))
      (h.resHigh (by simp [hph]))
  case initOk rest bytes hw hq hph hlt hset ht =>
    rcases h.advanceInit_cases hph with hend | ⟨hidx, b, hb⟩
    · have hnot : ¬ (57 : BitVec 6).toNat < initLen := by decide
      exact absurd (hend ▸ hlt) hnot
    · have hsound : ((s.afterOk rest).advanceInit s.txBytes.length).Sound := { hs with initRange := hidx.le }
      exact .initWrite hsound (h.running (State.busy_of_phase hph rfl)) (h.constructing (by simp [hph])) hb
        (h.resHigh (by simp [hph])) hset
  case initDoneCallback rest hw hq hph hge hc ht =>
    rcases h.advanceInit_cases hph with hend | ⟨hidx, -⟩
    · subst ht
      have hsound : ((s.afterOk rest).advanceInit s.txBytes.length).Sound :=
        { hs with initRange := (congrArg BitVec.toNat hend).le }
      exact .of_callback hsound (h.running (State.busy_of_phase hph rfl)) (.inr ⟨rfl, hend⟩) rfl hc
        (h.resHigh (by simp [hph])) (.inl rfl) rfl
    · exact absurd hge (Nat.not_le.2 hidx)
  case initDone rest hw hq hph hge hc ht =>
    rcases h.advanceInit_cases hph with hend | ⟨hidx, -⟩
    · subst ht
      have hsound : ((s.afterOk rest).advanceInit s.txBytes.length).Sound :=
        { hs with initRange := (congrArg BitVec.toNat hend).le }
      exact .enable hsound (h.running (State.busy_of_phase hph rfl)) hend (h.resHigh (by simp [hph]))
    · exact absurd hge (Nat.not_le.2 hidx)
  case enableOk rest hw hq hph ht =>
    subst ht
    have hsound : (s.afterOk rest).enterLines.Sound := { hs with lineRange := Nat.zero_le _ }
    exact .sendLine hsound (h.running (State.busy_of_phase hph rfl)) rfl (h.initDone (by simp [hph]))
      (by decide : (0 : BitVec 8).toNat < 128) (h.resHigh (by simp [hph]))
  case lineOk rest hw hq hph ht => exact ht ▸ h.lineOk hph rest
  case busError k rest hw hq hph ht => exact ht ▸ h.busError hph k rest

/-! ## Progress -/

/-- With nothing presented an idle block stays as it is (R301). -/
theorem step_of_noRequest {s : State} (hs : s.idle) (hq : s.hostReqs = []) : step s = .next s := by
  obtain ⟨⟨hp, hf, hw⟩, hb⟩ := hs
  have hhost : s.stepHost = .next s := by
    unfold State.stepHost State.takeRequest
    simp only [hb, hq, Bool.false_eq_true, if_false]
  unfold step State.advance
  simp only [hp, hf, hw, hhost, Bool.false_eq_true, if_false]
  exact settled_next hf

/-- An idle block answers whatever is presented to it (R301, R309). -/
theorem step_next_of_idle {s : State} (hs : s.idle) : ∃ t, step s = .next t := by
  cases hq : s.hostReqs with
  | nil => exact ⟨s, step_of_noRequest hs hq⟩
  | cons w rest =>
    cases hd : decodeRequest w with
    | error e => exact ⟨_, step_of_undecodable hs hq hd⟩
    | ok i =>
      have hi := isRequest_of_decodeRequest hd
      rw [step_of_request hs hq hd]
      by_cases hne : i ≠ .showFrame ∨ s.phase ≠ .ready ∨ s.cfgCbEn = true
      · rw [settled_exec_request (s := s.accepted rest) hi hs.1.2.1 hne]
        exact exec_request_next hi _
      · simp only [ne_eq, not_or, not_not, Bool.not_eq_true] at hne
        obtain ⟨rfl, hr, hc⟩ := hne
        rw [exec_showFrame_of_ready (s := s.accepted rest) hr,
          State.showBody_of_no_callback (s := (s.accepted rest).commitShow) hc]
        exact ⟨_, settled_enterShowCmd _⟩

/-- The init stream goes on wherever a transaction stands at INIT_IDX. -/
theorem settled_enterInit_next {s : State} {bytes : List Byte} (hrom : s.rom = initRom)
    (hb : InitTransaction s.params s.initIdx bytes) : ∃ t, settled (.next (s.enterFetch .init)) = .next t :=
  ⟨_, settled_of_initTransaction (s := s.enterFetch .init) ⟨rfl, rfl⟩ hrom rfl hb⟩

/-- Which phases wait for the timer, the callback agent, the transport and the host (R119). -/
theorem phase_of_waitFits : ∀ p : Phase,
    (waitFits p .delay = true → p = .rstLo ∨ p = .rstHi) ∧ (waitFits p .cb = true → p = .cbInit ∨ p = .cbShow)
      ∧ (waitFits p .bus = true → p = .init ∨ p = .showCmd ∨ p = .showLines)
      ∧ (waitFits p .host = true → p.busy = false) := by
  intro p
  cases p <;> decide

/-- A running hold ends (R7), and the block goes on. -/
theorem State.Consistent.step_next_of_delay {s : State} (h : s.Consistent) (hw : s.waitsFor .delay) :
    ∃ t, step s = .next t := by
  have hover := h.holdOver
  have hwait : s.holdOver.wait = .delay := by rw [s.holdOver_eq]; exact hw.2.2
  rw [step_of_hold hw]
  rcases (phase_of_waitFits _).1 (hwait ▸ hover.waitPhase) with hph | hph
  · rw [State.afterHold_of_rstLo hph]
    exact ⟨_, settled_next hover.settled⟩
  · rw [State.afterHold_of_rstHi hph]
    split
    · exact ⟨_, settled_next hover.settled⟩
    · exact settled_enterInit_next hover.rom (hover.initNotBegun (.inr (.inl hph)) ▸ initTransaction_first _)

theorem State.Consistent.step_next_of_cb {s : State} (h : s.Consistent) (hw : s.waitsFor .cb) :
    ∃ t, step s = .next t := by
  cases hq : s.cbAcks with
  | zero => exact ⟨s, step_of_noAck hw hq⟩
  | succ n =>
    rw [step_of_ack hw hq]
    rcases (phase_of_waitFits _).2.1 (hw.2.2 ▸ h.waitPhase) with hph | hph
    · rw [State.afterCallback_of_cbInit (s := s.tookAck n) hph]
      exact settled_enterInit_next (s := s.tookAck n) h.rom
        (h.initNotBegun (.inr (.inr hph)) ▸ initTransaction_first _)
    · rw [State.afterCallback_of_cbShow (s := s.tookAck n) hph]
      exact ⟨_, settled_enterShowCmd _⟩

theorem State.Consistent.step_next_of_initOk {s : State} {rest : List BusAnswer} (h : s.Consistent)
    (hw : s.waitsFor .bus) (hph : s.phase = .init) (hq : s.busAnswers = .ok :: rest) : ∃ t, step s = .next t := by
  rw [step_of_initOk hw hph hq rfl]
  rcases h.advanceInit_cases hph with hend | ⟨hidx, b, hb⟩
  · have hdone : initLen ≤ ((s.answeredOk rest).advanceInit s.txBytes.length).initIdx.toNat :=
      (congrArg BitVec.toNat hend).ge
    rw [if_pos hdone]
    exact ⟨_, rfl⟩
  · have hgoes : ¬ initLen ≤ ((s.answeredOk rest).advanceInit s.txBytes.length).initIdx.toNat := Nat.not_le.2 hidx
    rw [if_neg hgoes]
    exact settled_enterInit_next (s := (s.answeredOk rest).advanceInit s.txBytes.length) h.rom hb

theorem State.Consistent.step_next_of_bus {s : State} (h : s.Consistent) (hw : s.waitsFor .bus) :
    ∃ t, step s = .next t := by
  have hph := (phase_of_waitFits _).2.2.1 (hw.2.2 ▸ h.waitPhase)
  rcases hq : s.busAnswers with _ | ⟨_ | k, rest⟩
  · exact ⟨s, step_of_noAnswer hw hq⟩
  · rcases hph with hph | hph | hph
    · exact h.step_next_of_initOk hw hph hq
    · exact ⟨_, step_of_enableOk hw hph hq⟩
    · exact ⟨_, step_of_lineOk hw hph hq⟩
  · exact ⟨_, step_of_busError hw hph hq⟩

/-- Settles O52: by what the block waits for. -/
theorem consistentBlockNeverStops : Obligations.ConsistentBlockNeverStops := by
  intro s h
  cases hp : s.porIn with
  | some k => exact ⟨_, step_of_porIn hp⟩
  | none =>
    cases hw : s.wait with
    | host =>
      have hb : s.busy = false := (phase_of_waitFits _).2.2.2 (hw ▸ h.waitPhase)
      exact step_next_of_idle ⟨⟨hp, h.settled, hw⟩, hb⟩
    | delay => exact h.step_next_of_delay ⟨hp, h.settled, hw⟩
    | cb => exact h.step_next_of_cb ⟨hp, h.settled, hw⟩
    | bus => exact h.step_next_of_bus ⟨hp, h.settled, hw⟩

/-- Settles O53: by induction over the run, from O49 to O52. -/
theorem reachableStatesAreConsistent : Obligations.ReachableStatesAreConsistent := by
  have hconsistent : ∀ s, Reachable s → s.Consistent := fun s hs => by
    induction hs with
    | powerOn p => exact consistentAtPowerOn p
    | step s t _ hstep ih => exact consistentKeptByStep s t ih hstep
    | agent s a _ ih => exact consistentKeptByAgents s a ih
  exact fun s hs => ⟨hconsistent s hs, consistentBlockNeverStops s (hconsistent s hs)⟩

end Sys2Proof.Machine
end

section
/-! PROOFS. What a step leaves as it is: the configuration, the ROM and the parameters (R10, R9, R650) and BUF (R411) but for the two requests that write them, and the output lines but for their events (R8, R15). -/

namespace Sys2Proof.Machine

/-! ## Configuration and stores -/

/-- The ROM and the parameters, which are fixed for a run, are in t as they are in s (R9, R203). -/
structure State.KeepsFixed (s t : State) : Prop where
  rom : t.rom = s.rom
  params : t.params = s.params

/-- The configuration registers are in t as they are in s (R102, R104, R105). -/
structure State.KeepsConfig (s t : State) : Prop where
  cfgHeight : t.cfgHeight = s.cfgHeight
  cfgWidth : t.cfgWidth = s.cfgWidth
  cfgCbEn : t.cfgCbEn = s.cfgCbEn

/-- Configuration, BUF, ROM and parameters are in t as they are in s. -/
structure State.KeepsStores (s t : State) : Prop where
  fixed : s.KeepsFixed t
  config : s.KeepsConfig t
  buf : t.buf = s.buf

theorem State.KeepsStores.refl (s : State) : s.KeepsStores s := ⟨⟨rfl, rfl⟩, ⟨rfl, rfl, rfl⟩, rfl⟩

theorem State.KeepsStores.trans {s t u : State} (h : s.KeepsStores t) (h' : t.KeepsStores u) : s.KeepsStores u where
  fixed := ⟨h'.fixed.rom.trans h.fixed.rom, h'.fixed.params.trans h.fixed.params⟩
  config := ⟨h'.config.cfgHeight.trans h.config.cfgHeight, h'.config.cfgWidth.trans h.config.cfgWidth,
    h'.config.cfgCbEn.trans h.config.cfgCbEn⟩
  buf := h'.buf.trans h.buf

/-- What running the request i may do to configuration and stores. -/
inductive State.StoresAfter (s : State) (i : Instr) (t : State) : Prop where
  /-- Nothing. -/
  | keeps (h : s.KeepsStores t)
  /-- A legal CONSTRUCT commits its operands and a zeroed buffer (R452). -/
  | commits (h w : Byte) (cb : Bool) (hi : i = .construct h w cb) (hlegal : legalConfig h w = true)
      (hfixed : s.KeepsFixed t) (hconfig : t.cfgHeight = h ∧ t.cfgWidth = w ∧ t.cfgCbEn = cb) (hbuf : t.buf = [])
  /-- A BWR in READY, inside the buffer, stores its byte (R410). -/
  | stores (a : BufAddr) (d : Byte) (hi : i = .bwr a d) (hph : s.phase = .ready) (ha : a.toNat < s.bufBytes)
      (hfixed : s.KeepsFixed t) (hconfig : s.KeepsConfig t) (hbuf : t.buf = s.buf.write a.toNat d)

theorem State.KeepsStores.of_respond (s : State) (rc : ResultCode) (w : HostWord) :
    s.KeepsStores (s.respond rc w) := ⟨⟨rfl, rfl⟩, ⟨rfl, rfl, rfl⟩, rfl⟩

theorem State.KeepsStores.of_afterOk (s : State) (rest : List BusAnswer) : s.KeepsStores (s.afterOk rest) :=
  ⟨⟨rfl, rfl⟩, ⟨rfl, rfl, rfl⟩, rfl⟩

theorem State.KeepsStores.of_afterLineWrite (s : State) : s.KeepsStores s.afterLineWrite := by
  unfold State.afterLineWrite
  split <;> exact ⟨⟨rfl, rfl⟩, ⟨rfl, rfl, rfl⟩, rfl⟩

theorem State.KeepsStores.of_showBody (s : State) : s.KeepsStores s.showBody := by
  unfold State.showBody
  split <;> exact ⟨⟨rfl, rfl⟩, ⟨rfl, rfl, rfl⟩, rfl⟩

theorem State.KeepsStores.of_whenReady {s : State} {f : State → State} (hf : s.KeepsStores (f s)) :
    s.KeepsStores (s.whenReady f) := by
  rcases s.whenReady_cases f with ⟨-, he⟩ | ⟨-, he⟩ | ⟨-, he⟩ <;> rw [he]
  · exact .refl s
  · exact .of_respond s _ _
  · exact hf

theorem exec_bwr_storesAfter (a : BufAddr) (d : Byte) (s : State) : ∃ t, exec (.bwr a d) s = .next t
    ∧ s.StoresAfter (.bwr a d) t := by
  refine ⟨_, rfl, ?_⟩
  rcases s.whenReady_cases fun t => t.whenInBuf a fun u => (u.writeBuf a.toNat d).respondOk 0 false 0 with
    ⟨-, he⟩ | ⟨-, he⟩ | ⟨hr, he⟩ <;> rw [he]
  · exact .keeps (.refl s)
  · exact .keeps (.of_respond s _ _)
  · rcases Nat.lt_or_ge a.toNat s.bufBytes with hin | hbeyond
    · rw [State.whenInBuf_inside hin]
      exact .stores a d rfl hr hin ⟨rfl, rfl⟩ ⟨rfl, rfl, rfl⟩ rfl
    · rw [State.whenInBuf_beyond hbeyond]
      exact .keeps (.of_respond s _ _)

theorem exec_request_storesAfter {i : Instr} {s t : State} (hi : i.isRequest = true) (hb : s.busy = false)
    (h : exec i s = .next t) : s.StoresAfter i t := by
  cases i <;> simp only [Instr.isRequest, Bool.false_eq_true] at hi
  case construct hgt w cb =>
    by_cases hlegal : legalConfig hgt w = true
    · rw [exec_construct_of_legal hb hlegal] at h
      injection h with h
      subst h
      exact .commits hgt w cb rfl hlegal ⟨rfl, rfl⟩ ⟨rfl, rfl, rfl⟩ rfl
    · rw [exec_construct_of_illegal hb hlegal] at h
      injection h with h
      exact .keeps (h ▸ .of_respond s _ _)
  case bwr a d =>
    obtain ⟨u, hu, hafter⟩ := exec_bwr_storesAfter a d s
    injection hu.symm.trans h with h
    exact h ▸ hafter
  case showFrame =>
    injection h with h
    have hcommit : s.KeepsStores s.commitShow := ⟨⟨rfl, rfl⟩, ⟨rfl, rfl, rfl⟩, rfl⟩
    exact .keeps (h ▸ .of_whenReady (hcommit.trans (.of_showBody _)))
  case brd a =>
    injection h with h
    refine .keeps (h ▸ .of_whenReady ?_)
    unfold State.whenInBuf
    split <;> exact .of_respond s _ _
  case enc r g b =>
    injection h with h
    rw [State.whenIdle_of_idle hb] at h
    exact .keeps (h ▸ .of_respond s _ _)
  case remap l =>
    injection h with h
    exact .keeps (h ▸ .of_whenReady (.of_respond s _ _))

/-- A step without a power-on reset keeps configuration and stores, or runs the oldest request of an idle block. -/
theorem storesAfter_of_step {s t : State} (hp : s.porIn = none) (h : step s = .next t) :
    s.KeepsStores t ∨ (s.idle ∧ ∃ i rest, s.hostReqs = requestWord i :: rest ∧ s.StoresAfter i t) := by
  cases stepsTo_of_step h
  case powerOnReset k hp' _ => exact nomatch hp.symm.trans hp'
  case request i w rest hw hb hq hd ht _ =>
    obtain ⟨hi, hword⟩ := requestWordOfDecode w i hd
    refine .inr ⟨⟨hw, hb⟩, i, rest, hword ▸ hq, ?_⟩
    cases exec_request_storesAfter (s := s.accepted rest) hi hb ht with
    | keeps hkeep =>
      have haccepted : s.KeepsStores (s.accepted rest) := ⟨⟨rfl, rfl⟩, ⟨rfl, rfl, rfl⟩, rfl⟩
      exact .keeps (haccepted.trans hkeep)
    | commits hgt w cb hi hlegal hfixed hconfig hbuf =>
      exact .commits hgt w cb hi hlegal ⟨hfixed.rom, hfixed.params⟩ hconfig hbuf
    | stores a d hi hph ha hfixed hconfig hbuf =>
      exact .stores a d hi hph ha ⟨hfixed.rom, hfixed.params⟩
        ⟨hconfig.cfgHeight, hconfig.cfgWidth, hconfig.cfgCbEn⟩ hbuf
  case holdLow | holdHighCallback | holdHigh =>
    subst ‹t = _›
    rw [s.holdOver_eq]
    exact .inl ⟨⟨rfl, rfl⟩, ⟨rfl, rfl, rfl⟩, rfl⟩
  case lineOk rest _ _ _ ht => exact .inl (ht ▸ (State.KeepsStores.of_afterOk s rest).trans (.of_afterLineWrite _))
  case initOk rest _ _ _ _ _ _ ht | initDoneCallback rest _ _ _ _ _ ht | initDone rest _ _ _ _ _ ht
      | enableOk rest _ _ _ ht =>
    exact .inl (ht ▸ (State.KeepsStores.of_afterOk s rest).trans ⟨⟨rfl, rfl⟩, ⟨rfl, rfl, rfl⟩, rfl⟩)
  -- the other steps are compositions of operations none of which writes a store
  all_goals
    subst ‹t = _›
    exact .inl ⟨⟨rfl, rfl⟩, ⟨rfl, rfl, rfl⟩, rfl⟩

theorem keepsFixed_of_step {s t : State} (h : step s = .next t) : s.KeepsFixed t := by
  cases hp : s.porIn with
  | some k =>
    rw [step_of_porIn hp] at h
    injection h with h
    subst h
    exact ⟨rfl, rfl⟩
  | none =>
    rcases storesAfter_of_step hp h with hkeep | ⟨-, i, rest, -, hkeep | ⟨_, _, _, _, _, hfixed, _, _⟩
      | ⟨_, _, _, _, _, hfixed, _, _⟩⟩
    · exact hkeep.fixed
    · exact hkeep.fixed
    · exact hfixed
    · exact hfixed

/-- Settles O55: of what a request may do, only the commit writes the configuration. -/
theorem configurationWrittenOnlyByConstruct : Obligations.ConfigurationWrittenOnlyByConstruct := by
  intro s t h
  obtain ⟨hrom, hparams⟩ := keepsFixed_of_step h
  refine ⟨hrom, hparams, fun hp => ?_⟩
  have hkept : s.KeepsConfig t → t.cfgHeight = s.cfgHeight ∧ t.cfgWidth = s.cfgWidth ∧ t.cfgCbEn = s.cfgCbEn :=
    fun hc => ⟨hc.cfgHeight, hc.cfgWidth, hc.cfgCbEn⟩
  rcases storesAfter_of_step hp h with hkeep | ⟨hidle, i, rest, hq, hafter⟩
  · exact .inl (hkept hkeep.config)
  · cases hafter with
    | keeps hkeep => exact .inl (hkept hkeep.config)
    | commits hgt w cb hi hlegal _ hconfig _ => exact .inr ⟨hgt, w, cb, rest, hidle, hi ▸ hq, hlegal, hconfig⟩
    | stores a d hi hph ha _ hconfig _ => exact .inl (hkept hconfig)

/-- Settles O56: the commit leaves nothing listed, and BWR's write leaves every other address. -/
theorem bufferWrittenOnlyByBwrAndConstruct : Obligations.BufferWrittenOnlyByBwrAndConstruct := by
  intro s t hp h
  rcases storesAfter_of_step hp h with hkeep | ⟨hidle, i, rest, hq, hafter⟩
  · exact .inl hkeep.buf
  · cases hafter with
    | keeps hkeep => exact .inl hkeep.buf
    | commits hgt w cb hi hlegal _ _ hbuf =>
      refine .inr (.inl ⟨hgt, w, cb, rest, hidle, hi ▸ hq, hlegal, fun a => ?_⟩)
      rw [State.readBuf, hbuf, Memory.read_nil]
    | stores a d hi hph ha _ _ hbuf =>
      refine .inr (.inr ⟨a, d, rest, hidle, hph, hi ▸ hq, ha, fun x hx => ?_⟩)
      rw [State.readBuf, hbuf, Memory.read_write_other _ hx]
      rfl

/-! ## Output lines -/

theorem levelAfter_append (p : Pin) (v : Level) (e e' : List Event) :
    levelAfter p v (e ++ e') = levelAfter p (levelAfter p v e) e' := List.foldl_append

/-- From s to t the events are emitted, and each line is at the level of its last PIN event in them (R8, R15). -/
structure State.Emits (s : State) (events : List Event) (t : State) : Prop where
  trace : t.trace = s.trace ++ events
  res : t.res = levelAfter .res s.res events
  cs : t.cs = levelAfter .cs s.cs events
  dc : t.dc = levelAfter .dc s.dc events

theorem State.Emits.trans {s t u : State} {e e' : List Event} (h : s.Emits e t) (h' : t.Emits e' u) :
    s.Emits (e ++ e') u where
  trace := by rw [h'.trace, h.trace, List.append_assoc]
  res := by rw [h'.res, h.res, levelAfter_append]
  cs := by rw [h'.cs, h.cs, levelAfter_append]
  dc := by rw [h'.dc, h.dc, levelAfter_append]

/-- A change of none of the lines, and of nothing recorded, emits nothing. -/
theorem State.Emits.nothing {s t : State} (htrace : t.trace = s.trace) (hres : t.res = s.res) (hcs : t.cs = s.cs)
    (hdc : t.dc = s.dc) : s.Emits [] t :=
  ⟨by rw [htrace, List.append_nil], hres, hcs, hdc⟩

theorem State.emits_startTransaction (s : State) (m : BusMode) (bytes : List Byte) :
    s.Emits (framedStart s.params m bytes) (s.startTransaction m bytes) := by
  rw [State.startTransaction_eq_issued]
  exact ⟨rfl, rfl, rfl, rfl⟩

theorem State.emits_afterOk (s : State) (rest : List BusAnswer) :
    s.Emits [.pin .cs s.params.csIdle] (s.afterOk rest) := ⟨rfl, rfl, rfl, rfl⟩

theorem State.emits_startHold (s : State) : s.Emits [.delay] s.startHold := ⟨rfl, rfl, rfl, rfl⟩

theorem State.emits_startCallback (s : State) : s.Emits [.cbReq] s.startCallback := ⟨rfl, rfl, rfl, rfl⟩

theorem State.emits_driveRes (s : State) (v : Level) : s.Emits [.pin .res v] (s.drive .res v) := ⟨rfl, rfl, rfl, rfl⟩

/-- A phase that performs transactions (R600). -/
def Phase.transacts (p : Phase) : Prop := p = .init ∨ p = .showCmd ∨ p = .showLines

/-- Where a step from s to t may write the lines: RES on going to a level of the reset pulse, CS and DC on leaving or
reaching a phase that performs transactions (R464, R600). -/
structure EventsInPlace (s t : State) (events : List Event) : Prop where
  reset : ∀ v, .pin .res v ∈ events → t.phase = .rstLo ∨ t.phase = .rstHi
  transaction : ∀ v, .pin .cs v ∈ events ∨ .pin .dc v ∈ events → s.phase.transacts ∨ t.phase.transacts

theorem eventsInPlace_of_no_pin {s t : State} {events : List Event} (h : ∀ p v, .pin p v ∉ events) :
    EventsInPlace s t events :=
  ⟨fun v hv => absurd hv (h _ v), fun v hv => hv.elim (fun hv => absurd hv (h _ v)) fun hv => absurd hv (h _ v)⟩

theorem eventsInPlace_of_transaction {s t : State} {events : List Event} (h : ∀ v, .pin .res v ∉ events)
    (hph : s.phase.transacts ∨ t.phase.transacts) : EventsInPlace s t events :=
  ⟨fun v hv => absurd hv (h v), fun _ _ => hph⟩

theorem eventsInPlace_of_pulse {s t : State} (v : Level) (hph : t.phase = .rstLo ∨ t.phase = .rstHi) :
    EventsInPlace s t ([.pin .res v] ++ [.delay]) :=
  ⟨fun _ _ => hph, fun w hw => by simp at hw⟩

theorem res_not_mem_framedStart (p : Params) (m : BusMode) (bytes : List Byte) (v : Level) :
    .pin .res v ∉ framedStart p m bytes := by
  simp [framedStart]

theorem State.Emits.of_whenReady {s : State} {f : State → State} (h : s.Emits [] (f s)) :
    s.Emits [] (s.whenReady f) := by
  rcases s.whenReady_cases f with ⟨-, he⟩ | ⟨-, he⟩ | ⟨-, he⟩ <;> rw [he]
  · exact .nothing rfl rfl rfl rfl
  · exact .nothing rfl rfl rfl rfl
  · exact h

theorem State.Emits.of_whenInBuf {s : State} {a : BufAddr} {f : State → State} (h : s.Emits [] (f s)) :
    s.Emits [] (s.whenInBuf a f) := by
  unfold State.whenInBuf
  split
  · exact .nothing rfl rfl rfl rfl
  · exact h

/-- The events of a request's meaning: those that start the reset pulse or a callback, and else none. -/
theorem exec_request_emits {i : Instr} {s t : State} (hi : i.isRequest = true) (hb : s.busy = false)
    (h : exec i s = .next t) : ∃ events, s.Emits events t ∧ EventsInPlace s t events := by
  have hsilent : s.Emits [] t → ∃ events, s.Emits events t ∧ EventsInPlace s t events :=
    fun he => ⟨[], he, eventsInPlace_of_no_pin (by simp)⟩
  cases i <;> simp only [Instr.isRequest, Bool.false_eq_true] at hi
  case construct hgt w cb =>
    by_cases hlegal : legalConfig hgt w = true
    · rw [exec_construct_of_legal hb hlegal] at h
      injection h with h
      subst h
      have hcommit : s.Emits [] ((s.commitConstruct hgt w cb).goTo .rstLo) := .nothing rfl rfl rfl rfl
      exact ⟨_, (hcommit.trans (State.emits_driveRes _ false)).trans (State.emits_startHold _),
        eventsInPlace_of_pulse false (.inl rfl)⟩
    · rw [exec_construct_of_illegal hb hlegal] at h
      injection h with h
      exact hsilent (h ▸ .nothing rfl rfl rfl rfl)
  case showFrame =>
    injection h with h
    subst h
    rcases s.whenReady_cases fun t => t.commitShow.showBody with ⟨-, he⟩ | ⟨-, he⟩ | ⟨-, he⟩ <;> rw [he] at hsilent ⊢
    · exact hsilent (.nothing rfl rfl rfl rfl)
    · exact hsilent (.nothing rfl rfl rfl rfl)
    · cases hc : s.cfgCbEn
      · rw [State.showBody_of_no_callback (s := s.commitShow) hc] at hsilent ⊢
        exact hsilent (.nothing rfl rfl rfl rfl)
      · rw [State.showBody_of_callback (s := s.commitShow) hc]
        exact ⟨[.cbReq], ⟨rfl, rfl, rfl, rfl⟩, eventsInPlace_of_no_pin (by simp)⟩
  case bwr a d =>
    injection h with h
    exact hsilent (h ▸ .of_whenReady (.of_whenInBuf (.nothing rfl rfl rfl rfl)))
  case brd a =>
    injection h with h
    exact hsilent (h ▸ .of_whenReady (.of_whenInBuf (.nothing rfl rfl rfl rfl)))
  case enc r g b =>
    injection h with h
    rw [State.whenIdle_of_idle hb] at h
    exact hsilent (h ▸ .nothing rfl rfl rfl rfl)
  case remap l =>
    injection h with h
    exact hsilent (h ▸ .of_whenReady (.nothing rfl rfl rfl rfl))

/-- From a state reached without events, a WRITE is issued in a phase that performs transactions. -/
theorem State.emits_write {s u : State} {m : BusMode} {bytes : List Byte} (hu : s.Emits [] u)
    (hph : u.phase.transacts) : ∃ events, s.Emits events (u.startTransaction m bytes)
      ∧ EventsInPlace s (u.startTransaction m bytes) events :=
  ⟨_, hu.trans (u.emits_startTransaction m bytes),
    eventsInPlace_of_transaction (res_not_mem_framedStart _ _ _) (.inr hph)⟩

/-- After an answer OK, the next WRITE is issued. -/
theorem State.emits_nextWrite {s u : State} {m : BusMode} {bytes : List Byte} {rest : List BusAnswer}
    (hu : (s.afterOk rest).Emits [] u) (hph : s.phase.transacts) : ∃ events,
      s.Emits events (u.startTransaction m bytes) ∧ EventsInPlace s (u.startTransaction m bytes) events :=
  ⟨_, (s.emits_afterOk rest).trans (hu.trans (u.emits_startTransaction m bytes)),
    eventsInPlace_of_transaction (by simp [framedStart]) (.inl hph)⟩

theorem State.holdOver_emits (s : State) : s.Emits [] s.holdOver := by
  rw [s.holdOver_eq]
  exact .nothing rfl rfl rfl rfl

/-- The events of a step that is no power-on reset. -/
theorem emits_of_step {s t : State} (hp : s.porIn = none) (h : step s = .next t) :
    ∃ events, s.Emits events t ∧ EventsInPlace s t events := by
  cases stepsTo_of_step h
  case powerOnReset k hp' _ => exact nomatch hp.symm.trans hp'
  case resumed bytes _ _ hph ht =>
    exact ht ▸ State.emits_write (.nothing rfl rfl rfl rfl) (hph.elim .inl fun h => .inr (.inl h))
  case noRequest | noAck | noAnswer =>
    subst ‹t = s›
    exact ⟨[], .nothing rfl rfl rfl rfl, eventsInPlace_of_no_pin (by simp)⟩
  case request i w rest _ hb _ hd ht _ =>
    obtain ⟨events, hemits, hplace⟩ := exec_request_emits (s := s.accepted rest) (isRequest_of_decodeRequest hd) hb ht
    exact ⟨events, ⟨hemits.trace, hemits.res, hemits.cs, hemits.dc⟩, hplace.reset, hplace.transaction⟩
  case illegal e w rest _ _ _ _ ht =>
    subst ht
    exact ⟨[], .nothing rfl rfl rfl rfl, eventsInPlace_of_no_pin (by simp)⟩
  case holdLow _ _ ht =>
    subst ht
    have hgo : s.holdOver.Emits [] (s.holdOver.goTo .rstHi) := .nothing rfl rfl rfl rfl
    exact ⟨_, ((s.holdOver_emits.trans hgo).trans (State.emits_driveRes _ true)).trans (State.emits_startHold _),
      eventsInPlace_of_pulse true (.inr rfl)⟩
  case holdHighCallback _ _ _ ht =>
    subst ht
    have hgo : s.holdOver.Emits [] (s.holdOver.goTo .cbInit) := .nothing rfl rfl rfl rfl
    exact ⟨_, (s.holdOver_emits.trans hgo).trans (State.emits_startCallback _), eventsInPlace_of_no_pin (by simp)⟩
  case holdHigh bytes _ _ _ _ ht =>
    have hgo : s.holdOver.Emits [] (s.holdOver.enterFetch .init) := .nothing rfl rfl rfl rfl
    exact ht ▸ State.emits_write (s.holdOver_emits.trans hgo) (.inl rfl)
  case showEnable | ackShow =>
    subst ‹t = _›
    exact State.emits_write (.nothing rfl rfl rfl rfl) (.inr (.inl rfl))
  case ackInit n bytes _ _ _ _ ht => exact ht ▸ State.emits_write (.nothing rfl rfl rfl rfl) (.inl rfl)
  case initOk rest bytes _ _ hph _ _ ht => exact ht ▸ State.emits_nextWrite (.nothing rfl rfl rfl rfl) (.inl hph)
  case initDoneCallback rest _ _ hph _ _ ht =>
    subst ht
    have hgo : (s.afterOk rest).Emits [] (((s.afterOk rest).advanceInit s.txBytes.length).goTo .cbShow) :=
      .nothing rfl rfl rfl rfl
    exact ⟨_, (s.emits_afterOk rest).trans (hgo.trans (State.emits_startCallback _)),
      eventsInPlace_of_transaction (by simp) (.inl (.inl hph))⟩
  case initDone rest _ _ hph _ _ ht => exact ht ▸ State.emits_nextWrite (.nothing rfl rfl rfl rfl) (.inl hph)
  case enableOk rest _ _ hph ht =>
    exact ht ▸ State.emits_nextWrite (u := (s.afterOk rest).enterLines) (.nothing rfl rfl rfl rfl) (.inr (.inl hph))
  case lineOk rest _ _ hph ht =>
    have htransacts : s.phase.transacts := .inr (.inr hph)
    subst ht
    unfold State.afterLineWrite
    split
    · exact State.emits_nextWrite (u := (s.afterOk rest).advanceLine) (.nothing rfl rfl rfl rfl) htransacts
    · have hend : (s.afterOk rest).Emits [] (s.afterOk rest).advanceLine.finish := .nothing rfl rfl rfl rfl
      exact ⟨_, (s.emits_afterOk rest).trans hend, eventsInPlace_of_transaction (by simp) (.inl htransacts)⟩
  case busError k rest _ _ _ ht =>
    subst ht
    exact ⟨[], .nothing rfl rfl rfl rfl, eventsInPlace_of_no_pin (by simp)⟩

/-- Settles O57, from the events of each way a step can go. -/
theorem linesFollowTheirEvents : Obligations.LinesFollowTheirEvents := by
  intro s t hp h
  obtain ⟨events, hemits, hplace⟩ := emits_of_step hp h
  refine ⟨events, hemits.trace, hemits.res, hemits.cs, hemits.dc, hplace.reset, fun v hv => ?_⟩
  rcases hplace.transaction v hv with hph | hph
  · exact ⟨s.phase, by simp, hph⟩
  · exact ⟨t.phase, by simp, hph⟩

end Sys2Proof.Machine
end

section
/-! PROOFS. Whole init streams and refreshes, as exact states: where n transactions of a stream, or n scan lines, are done and the next WRITE is running (R457, R551 to R554, R651, R652). -/

namespace Sys2Proof.Machine

/-! ## The init stream under DISCRETE -/

/-- INIT_IDX after n init transactions (R652). -/
def romStart (n : Nat) : Nat :=
  match initRanges[n]? with
  | some r => r.1
  | none => 57

/-- The events of the first n init transactions under DISCRETE (R652). -/
def initEvents (p : Params) (n : Nat) : List Event :=
  (initRanges.take n).flatMap fun r => framed p .cmd (romSlice initRom r)

/-- n init transactions are answered OK, with step e of the last of them done. -/
def State.initSent (s : State) (n : Nat) (rest : List BusAnswer) : State :=
  { s with
    phase := .init, wait := .bus, fetching := false, txBytes := []
    initIdx := BitVec.ofNat 6 (romStart n), busAnswers := rest
    cs := !s.params.csSelectLevel, dc := s.params.dcCmdLevel
    trace := s.trace ++ initEvents s.params n, wire := s.wire ++ initRom.take (romStart n) }

/-- The waiting point that follows: the next transaction's WRITE, or ShowBody's start (R457, R652). -/
def State.initStage (s : State) (n : Nat) (rest : List BusAnswer) : State :=
  match initRanges[n]? with
  | some r => (s.initSent n rest).issued .cmd (romSlice initRom r)
  | none => (s.initSent n rest).showStarted

theorem State.initStage_of_range {s : State} {n : Nat} {r : Nat × Nat} (hr : initRanges[n]? = some r)
    (rest : List BusAnswer) : s.initStage n rest = (s.initSent n rest).issued .cmd (romSlice initRom r) := by
  rw [State.initStage, hr]

theorem State.initStage_end (s : State) (rest : List BusAnswer) :
    s.initStage 16 rest = (s.initSent 16 rest).showStarted := rfl

theorem romStart_of_range {n : Nat} {r : Nat × Nat} (hr : initRanges[n]? = some r) : romStart n = r.1 := by
  rw [romStart, hr]

/-- A range ends where the next one, or nothing, begins; and its bytes are the ROM's from there (R652, R670). -/
theorem romStart_succ_of_range {n : Nat} {r : Nat × Nat} (hr : initRanges[n]? = some r) :
    romStart (n + 1) = r.2 ∧ initRom.take r.1 ++ romSlice initRom r = initRom.take r.2 := by
  have hn : n < 16 := (List.getElem?_eq_some_iff.1 hr).1
  have hall : ∀ k, k < 16 → ∀ q, initRanges[k]? = some q →
      romStart (k + 1) = q.2 ∧ initRom.take q.1 ++ romSlice initRom q = initRom.take q.2 := by decide
  exact hall n hn r hr

theorem initEvents_succ {n : Nat} {r : Nat × Nat} (hr : initRanges[n]? = some r) (p : Params) :
    initEvents p (n + 1) = initEvents p n ++ framed p .cmd (romSlice initRom r) := by
  rw [initEvents, List.take_add_one, hr, List.flatMap_append]
  rfl

/-- A completed transaction is its start and step e (R601). -/
theorem framed_eq (p : Params) (m : BusMode) (bytes : List Byte) :
    framed p m bytes = framedStart p m bytes ++ [.pin .cs (!p.csSelectLevel)] := rfl

/-- The answer OK to the n-th transaction's WRITE. -/
theorem State.initSent_succ {s : State} {n : Nat} {r : Nat × Nat} (hr : initRanges[n]? = some r)
    (rest rest' : List BusAnswer) :
    (((s.initSent n rest').issued .cmd (romSlice initRom r)).answeredOk rest).advanceInit (romSlice initRom r).length
      = s.initSent (n + 1) rest := by
  obtain ⟨hnext, hbytes⟩ := romStart_succ_of_range hr
  obtain ⟨hlt, -, hlen⟩ := initRanges_advance r (List.mem_of_getElem? hr)
  have hidx : BitVec.ofNat 6 r.1 + BitVec.ofNat 6 (r.2 - r.1) = BitVec.ofNat 6 r.2 := by
    rw [← BitVec.ofNat_add, Nat.add_sub_cancel' hlt.le]
  simp only [State.advanceInit, State.answeredOk, State.issued, State.initSent, romStart_of_range hr, hnext, hlen, hidx,
    initEvents_succ hr, framed_eq, ← hbytes, List.append_assoc, dcOf]

/-- The stream has ended exactly after the last range. -/
theorem initLen_le_romStart_iff : ∀ n, n ≤ 16 →
    (initLen ≤ (BitVec.ofNat 6 (romStart n)).toNat ↔ initRanges[n]? = none) := by decide

/-- Every range starts where an init WRITE may stand under DISCRETE. -/
theorem initTransaction_of_range {p : Params} (hf : p.initFraming = .discrete) {n : Nat} {r : Nat × Nat}
    (hr : initRanges[n]? = some r) : InitTransaction p (BitVec.ofNat 6 (romStart n)) (romSlice initRom r) where
  blob hb := nomatch hf.symm.trans hb
  discrete _ := by
    obtain ⟨hlt, hle, -⟩ := initRanges_advance r (List.mem_of_getElem? hr)
    refine ⟨r, List.mem_of_getElem? hr, ?_, rfl⟩
    rw [romStart_of_range hr, BitVec.toNat_ofNat]
    exact Nat.mod_eq_of_lt (by omega)

/-- DISCRETE: an answer OK brings the block from one stage of the stream to the next (R457, R652). -/
theorem step_initStage {s : State} {n : Nat} {rest : List BusAnswer} (hp : s.porIn = none) (hrom : s.rom = initRom)
    (hf : s.params.initFraming = .discrete) (hn : n < 16) :
    step (s.initStage n (.ok :: rest)) = .next (s.initStage (n + 1) rest) := by
  obtain ⟨r, hr⟩ : ∃ r, initRanges[n]? = some r := ⟨_, List.getElem?_eq_getElem (l := initRanges) hn⟩
  have hend : initLen ≤ (s.initSent (n + 1) rest).initIdx.toNat ↔ initRanges[n + 1]? = none :=
    initLen_le_romStart_iff (n + 1) hn
  rw [State.initStage_of_range hr, step_of_initOk (s := (s.initSent n (.ok :: rest)).issued .cmd (romSlice initRom r))
    ⟨hp, rfl, rfl⟩ rfl rfl (State.initSent_succ hr rest _)]
  cases hnext : initRanges[n + 1]? with
  | none => rw [if_pos (hend.2 hnext), State.initStage, hnext]
  | some r' =>
    rw [if_neg (by simp [hend, hnext]), State.initStage_of_range hnext]
    exact settled_of_initTransaction (s := (s.initSent (n + 1) rest).enterFetch .init) ⟨rfl, rfl⟩ hrom rfl
      (initTransaction_of_range hf hnext)

/-- DISCRETE: k answers OK bring the block k stages on. -/
theorem runs_initStage {s : State} (hp : s.porIn = none) (hrom : s.rom = initRom)
    (hf : s.params.initFraming = .discrete) (rest : List BusAnswer) (k : Nat) :
    ∀ n, n + k ≤ 16 → runs k (s.initStage n (List.replicate k .ok ++ rest)) (s.initStage (n + k) rest) := by
  induction k with
  | zero => exact fun n _ => rfl
  | succ k ih =>
    intro n hn
    rw [List.replicate_succ, List.cons_append, show n + (k + 1) = n + 1 + k by omega]
    exact runs_succ (step_initStage hp hrom hf (by omega)) (ih (n + 1) (by omega))

theorem State.showStarted_trace (s : State) : s.showStarted.trace = s.trace ++ s.showStart := by
  unfold State.showStarted State.showStart
  split <;> rfl

theorem State.showStarted_phase (s : State) :
    s.showStarted.phase = if s.cfgCbEn then .cbShow else .showCmd := by
  unfold State.showStarted
  split <;> rfl

theorem State.showStarted_initIdx (s : State) : s.showStarted.initIdx = s.initIdx := by
  unfold State.showStarted
  split <;> rfl

/-- The trace at a stage: the transactions done, and the start of what comes next. -/
theorem State.initStage_trace (s : State) (n : Nat) (rest : List BusAnswer) :
    (s.initStage n rest).trace = s.trace ++ initEvents s.params n ++ s.initStartAfter n := by
  cases hr : initRanges[n]? with
  | some r =>
    rw [State.initStage, State.initStartAfter, hr]
    rfl
  | none =>
    rw [State.initStage, State.initStartAfter, hr]
    exact State.showStarted_trace _

theorem State.initStage_initIdx (s : State) (n : Nat) (rest : List BusAnswer) :
    (s.initStage n rest).initIdx = BitVec.ofNat 6 (romStart n) := by
  unfold State.initStage
  split
  · rfl
  · exact State.showStarted_initIdx _

/-- The first WRITE of the stream is its first stage. -/
theorem State.issued_eq_initStage {s : State} (hph : s.phase = .init) (hidx : s.initIdx = 0) :
    s.issued .cmd (romSlice initRom (0, 1)) = s.initStage 0 s.busAnswers := by
  have hstart : BitVec.ofNat 6 (romStart 0) = s.initIdx := hidx.symm
  have htake : initRom.take (romStart 0) = [] := rfl
  have hevents : initEvents s.params 0 = [] := rfl
  rw [State.initStage_of_range (r := (0, 1)) rfl]
  simp only [State.issued, State.initSent, hevents, htake, hstart, hph, List.append_nil]

/-- Settles O42: from the first WRITE, n answers OK lead to stage n, and one more to stage n + 1. -/
theorem discreteInitStream : Obligations.DiscreteInitStream := by
  intro s rest hp hs hidx htx hrom hf hq n a b hr
  have hn : n < 16 := (List.getElem?_eq_some_iff.1 hr).1
  have hfirst : step s = .next (s.initStage 0 s.busAnswers) := by
    rw [step_of_fetching hp hs.2, ← State.issued_eq_initStage hs.1 hidx]
    exact settled_of_initTransaction hs hrom htx (hidx ▸ initTransaction_of_range hf (n := 0) rfl)
  have hstage : ∀ k, k ≤ 16 → ∃ q, runs (k + 1) s (s.initStage k q) := fun k hk => by
    have hsplit : s.busAnswers = List.replicate k .ok ++ (List.replicate (16 - k) .ok ++ rest) := by
      rw [hq, ← List.append_assoc, List.replicate_append_replicate, Nat.add_sub_cancel' hk]
    have hruns := runs_initStage hp hrom hf (List.replicate (16 - k) .ok ++ rest) k 0 (by omega)
    rw [← hsplit, Nat.zero_add] at hruns
    exact ⟨_, runs_succ hfirst hruns⟩
  refine ⟨?running, ?ended⟩
  case running =>
    obtain ⟨q, hruns⟩ := hstage n hn.le
    refine ⟨_, hruns, ?_, ?_, ?_, ?_⟩
    · rw [State.initStage_of_range hr]; rfl
    · rw [State.initStage_of_range hr]; rfl
    · obtain ⟨hlt, hle, -⟩ := initRanges_advance _ (List.mem_of_getElem? hr)
      rw [State.initStage_initIdx, romStart_of_range hr, BitVec.toNat_ofNat]
      exact Nat.mod_eq_of_lt (by omega)
    · rw [State.initStage_trace, State.initStartAfter, hr]
      rfl
  case ended =>
    obtain ⟨q, hruns⟩ := hstage (n + 1) hn
    refine ⟨_, hruns, ?_, State.initStage_trace s (n + 1) q⟩
    obtain ⟨-, hle, -⟩ := initRanges_advance _ (List.mem_of_getElem? hr)
    rw [State.initStage_initIdx, (romStart_succ_of_range hr).1, BitVec.toNat_ofNat]
    exact Nat.mod_eq_of_lt (by omega)

/-! ## The init stream under either framing -/

/-- The init stream is done: INIT_IDX is 57, and the ROM has reached the wire (R457, R651, R652). -/
def State.initDone (s : State) (rest : List BusAnswer) : State :=
  { s with
    phase := .init, wait := .bus, fetching := false, txBytes := [], initIdx := 57, busAnswers := rest
    cs := !s.params.csSelectLevel, dc := s.params.dcCmdLevel
    trace := s.trace ++ initTrace s.params, wire := s.wire ++ initRom }

theorem State.initSent_eq_initDone {s : State} (hf : s.params.initFraming = .discrete) (rest : List BusAnswer) :
    s.initSent 16 rest = s.initDone rest := by
  have hevents : initEvents s.params 16 = initTrace s.params := by
    rw [initTrace, hf]
    rfl
  have htake : initRom.take (romStart 16) = initRom := by decide
  simp only [State.initSent, State.initDone, hevents, htake]
  rfl

/-- BLOB: the answer OK to the one WRITE (R651). -/
theorem State.initDone_of_blob {s : State} (hph : s.phase = .init) (hidx : s.initIdx = 0)
    (hf : s.params.initFraming = .blob) (rest : List BusAnswer) :
    ((s.issued .cmd initRom).answeredOk rest).advanceInit initRom.length = s.initDone rest := by
  have hevents : initTrace s.params
      = framedStart s.params .cmd initRom ++ [.pin .cs (!s.params.csSelectLevel)] := by
    rw [initTrace, hf]
    rfl
  have hend : (0 : BitVec 6) + BitVec.ofNat 6 57 = 57 := by decide
  simp only [State.issued, State.answeredOk, State.advanceInit, State.initDone, initRom_length, hidx, hend, hph, hevents,
    List.append_assoc, dcOf]

/-- BLOB: the WRITE of the whole ROM, answered OK, leads to ShowBody's start (R651, R551). -/
theorem step_of_blobOk {s : State} {rest : List BusAnswer} (hp : s.porIn = none) (hph : s.phase = .init)
    (hidx : s.initIdx = 0) (hf : s.params.initFraming = .blob) (hq : s.busAnswers = .ok :: rest) :
    step (s.issued .cmd initRom) = .next (s.initDone rest).showStarted := by
  have hend : initLen ≤ (s.initDone rest).initIdx.toNat := Nat.le_refl 57
  rw [step_of_initOk (s := s.issued .cmd initRom) ⟨hp, rfl, rfl⟩ hph hq (State.initDone_of_blob hph hidx hf rest),
    if_pos hend]

/-- Settles O41: the commands are gathered within one step, and the answer to their WRITE ends the stream. -/
theorem blobInitStream : Obligations.BlobInitStream := by
  intro s hp hs hidx htx hrom hf
  have hfirst : step s = .next (s.issued .cmd initRom) := by
    rw [step_of_fetching hp hs.2, settled_of_blob hs hrom hf htx hidx, State.startTransaction_eq_issued]
  refine ⟨hfirst, fun rest hq => ?_⟩
  refine ⟨_, runs_succ hfirst (runs_one (step_of_blobOk hp hs.1 hidx hf hq)), ?_, ?_, ?_⟩
  · rw [State.showStarted_initIdx]
    rfl
  · have hevents : initTrace s.params = framed s.params .cmd initRom := by rw [initTrace, hf]
    rw [State.showStarted_trace, ← hevents]
    rfl
  · rw [State.showStarted_phase]
    rfl

/-- From the first init WRITE to ShowBody's start, where every transaction is answered OK. -/
theorem runs_initStream {s : State} {rest : List BusAnswer} (hp : s.porIn = none) (hrom : s.rom = initRom)
    (hph : s.phase = .init) (hidx : s.initIdx = 0)
    (hq : s.busAnswers = List.replicate (initWrites s.params.initFraming) .ok ++ rest) :
    runs (initWrites s.params.initFraming) (s.issued .cmd (firstInitBytes s.params)) (s.initDone rest).showStarted := by
  cases hf : s.params.initFraming with
  | blob =>
    rw [hf] at hq
    have hbytes : firstInitBytes s.params = initRom := by rw [firstInitBytes, hf]
    rw [hbytes]
    exact runs_one (step_of_blobOk hp hph hidx hf hq)
  | discrete =>
    rw [hf] at hq
    have hbytes : firstInitBytes s.params = romSlice initRom (0, 1) := by rw [firstInitBytes, hf]
    rw [hbytes, State.issued_eq_initStage hph hidx, hq, ← State.initSent_eq_initDone hf, ← State.initStage_end]
    exact runs_initStage hp hrom hf rest 16 0 (by decide)

/-! ## ShowBody -/

/-- The enable-data-write command's WRITE is running (R552). -/
def State.enabling (s : State) (rest : List BusAnswer) : State :=
  { s with phase := .showCmd, busAnswers := rest }.issued .cmd [s.params.cmdWriteRam]

/-- The bytes of the scan lines 0 to n - 1 (R553). -/
def State.linesBytes (s : State) (n : Nat) : List Byte := (List.range n).flatMap fun l => s.lineData l

/-- The enable-data-write command and the scan lines 0 to n - 1 have been sent, with LINE and the record so far. -/
def State.linesSent (s : State) (n : Nat) (rest : List BusAnswer) : State :=
  { s with
    phase := .showLines, wait := .bus, fetching := false, txBytes := [], line := BitVec.ofNat 8 n, busAnswers := rest
    cs := !s.params.csSelectLevel, dc := dcOf s.params .data
    trace := s.trace ++ framed s.params .cmd [s.params.cmdWriteRam] ++ s.linesTrace n
    wire := s.wire ++ s.params.cmdWriteRam :: s.linesBytes n }

/-- Then the WRITE of scan line n is running (R553). -/
def State.sendingLine (s : State) (n : Nat) (rest : List BusAnswer) : State :=
  (s.linesSent n rest).issued .data (s.lineData n)

theorem State.linesTrace_succ (s : State) (n : Nat) :
    s.linesTrace (n + 1) = s.linesTrace n ++ framed s.params .data (s.lineData n) := by
  rw [State.linesTrace, List.range_succ, List.flatMap_append, List.flatMap_singleton]
  rfl

theorem State.linesBytes_succ (s : State) (n : Nat) : s.linesBytes (n + 1) = s.linesBytes n ++ s.lineData n := by
  rw [State.linesBytes, List.range_succ, List.flatMap_append, List.flatMap_singleton]
  rfl

/-- The enable-data-write command answered OK: scan line 0 is being sent (R552). -/
theorem step_enabling {s : State} (hp : s.porIn = none) (rest : List BusAnswer) :
    step (s.enabling (.ok :: rest)) = .next (s.sendingLine 0 rest) := by
  have h := enableDataWriteCompletes (s.enabling (.ok :: rest)) rest ⟨hp, rfl, rfl⟩ rfl rfl
  have htrace : s.linesTrace 0 = [] := rfl
  have hbytes : s.linesBytes 0 = [] := rfl
  rw [h]
  simp only [State.enabling, State.sendingLine, State.linesSent, State.issued, State.answeredOk, framed_eq, htrace,
    hbytes, List.append_assoc, List.append_nil]
  rfl

/-- A scan line answered OK, as an update of the record. -/
theorem State.linesSent_succ (s : State) (n : Nat) (rest rest' : List BusAnswer) :
    { (s.sendingLine n rest').answeredOk rest with line := BitVec.ofNat 8 n + 1 } = s.linesSent (n + 1) rest := by
  have hline : BitVec.ofNat 8 n + 1 = BitVec.ofNat 8 (n + 1) := (BitVec.ofNat_add n 1).symm
  simp only [State.sendingLine, State.linesSent, State.issued, State.answeredOk, framed_eq, hline, s.linesTrace_succ,
    s.linesBytes_succ, List.append_assoc, List.cons_append]

/-- A scan line before the last answered OK: the next one is being sent (R553). -/
theorem step_sendingLine {s : State} (hp : s.porIn = none) {n : Nat} (hn : n < 127) (rest : List BusAnswer) :
    step (s.sendingLine n (.ok :: rest)) = .next (s.sendingLine (n + 1) rest) := by
  have hline : (s.sendingLine n (.ok :: rest)).line.toNat = n := by
    show (BitVec.ofNat 8 n).toNat = n
    rw [BitVec.toNat_ofNat]
    exact Nat.mod_eq_of_lt (by omega)
  have h := (scanLineCompletes (s.sendingLine n (.ok :: rest)) rest ⟨hp, rfl, rfl⟩ rfl rfl).1 (by rw [hline]; exact hn)
  rw [h, hline]
  exact congrArg (fun t => Host.Outcome.next (State.issued t .data (s.lineData (n + 1)))) (s.linesSent_succ n rest _)

/-- n scan lines answered OK, one after the other. -/
theorem runs_sendingLine {s : State} (hp : s.porIn = none) (rest : List BusAnswer) (k : Nat) :
    ∀ n, n + k ≤ 127 → runs k (s.sendingLine n (List.replicate k .ok ++ rest)) (s.sendingLine (n + k) rest) := by
  induction k with
  | zero => exact fun n _ => rfl
  | succ k ih =>
    intro n hn
    rw [List.replicate_succ, List.cons_append, show n + (k + 1) = n + 1 + k by omega]
    exact runs_succ (step_sendingLine hp (by omega) _) (ih (n + 1) (by omega))

/-- The refresh is done and its request answered with OK (R459, R550, R554). -/
def State.shown (s : State) (rest : List BusAnswer) : State :=
  { s with
    phase := .ready, wait := .host, fetching := false, txBytes := [], line := 128, busAnswers := rest
    cs := !s.params.csSelectLevel, dc := !s.params.dcCmdLevel
    trace := s.trace ++ framed s.params .cmd [s.params.cmdWriteRam] ++ s.linesTrace nScan, wire := s.wire ++ s.showBytes
    lastRc := .ok, responses := s.responses ++ [0], curReq := freeCurReq s.draws, draws := s.draws + 1 }

/-- Scan line 127 answered OK (R554). -/
theorem step_lastLine {s : State} (hp : s.porIn = none) (rest : List BusAnswer) :
    step (s.sendingLine 127 (.ok :: rest)) = .next (s.shown rest) := by
  have h := (scanLineCompletes (s.sendingLine 127 (.ok :: rest)) rest ⟨hp, rfl, rfl⟩ rfl rfl).2 rfl
  have htrace : s.linesTrace nScan = s.linesTrace 127 ++ framed s.params .data (s.lineData 127) := s.linesTrace_succ 127
  have hbytes : s.showBytes = s.params.cmdWriteRam :: (s.linesBytes 127 ++ s.lineData 127) :=
    congrArg (s.params.cmdWriteRam :: ·) (s.linesBytes_succ 127)
  rw [h]
  simp only [State.sendingLine, State.linesSent, State.issued, State.answeredOk, State.shown, framed_eq, htrace, hbytes,
    List.append_assoc, List.cons_append, dcOf]

/-- A callback, where one is configured, has been requested and answered, and acks of its agent's CB_ACKs are left
(R608, R609). -/
def State.calledBack (s : State) (acks : Nat) : State :=
  { s with trace := s.trace ++ callbackEvents s.cfgCbEn, cbAcks := acks }

/-- ShowBody up to the enable-data-write command's WRITE: with a callback, its answer comes first (R551). -/
theorem runs_showStarted {s : State} {acks : Nat} (hp : s.porIn = none) (hf : s.fetching = false)
    (hacks : s.cbAcks = acks + cbCount s.cfgCbEn) :
    runs (cbCount s.cfgCbEn) s.showStarted ((s.calledBack acks).enabling s.busAnswers) := by
  by_cases hc : s.cfgCbEn = true
  · have hcount : cbCount s.cfgCbEn = 1 := by rw [hc]; rfl
    have hevents : callbackEvents s.cfgCbEn = [.cbReq] := by rw [hc]; rfl
    rw [hcount] at hacks ⊢
    rw [State.showStarted_of_callback hc, State.calledBack, hevents]
    exact runs_one <| ((callbackGoesOnAtAck { s with phase := .cbShow, wait := .cb, trace := s.trace ++ [.cbReq] }
      ⟨hp, hf, rfl⟩).2 acks hacks).2 rfl
  · have hc : s.cfgCbEn = false := by simpa using hc
    have hcount : cbCount s.cfgCbEn = 0 := by rw [hc]; rfl
    have hevents : callbackEvents s.cfgCbEn = [] := by rw [hc]; rfl
    have hacks : s.cbAcks = acks := by rw [hacks, hcount, Nat.add_zero]
    rw [hcount, State.showStarted_of_no_callback hc, State.calledBack, hevents, List.append_nil, ← hacks]
    rfl

/-- ShowBody's answers OK: the enable-data-write command and n scan lines. -/
theorem runs_enabling {s : State} (hp : s.porIn = none) {n : Nat} (hn : n ≤ 127) (rest : List BusAnswer) :
    runs (n + 1) (s.enabling (.ok :: (List.replicate n .ok ++ rest))) (s.sendingLine n rest) := by
  have hlines := runs_sendingLine hp rest n 0 (by omega)
  rw [Nat.zero_add] at hlines
  exact runs_succ (step_enabling hp _) hlines

/-- ShowBody from its start to its end, where the callback and every WRITE are answered (R551 to R554). -/
theorem runs_showBody {s : State} {answers : List BusAnswer} {acks : Nat} (hp : s.porIn = none)
    (hf : s.fetching = false) (hq : s.busAnswers = List.replicate 129 .ok ++ answers)
    (hacks : s.cbAcks = acks + cbCount s.cfgCbEn) :
    runs (129 + cbCount s.cfgCbEn) s.showStarted ((s.calledBack acks).shown answers) := by
  have hstart := runs_showStarted hp hf hacks
  have hanswers : s.busAnswers = .ok :: (List.replicate 127 .ok ++ (.ok :: answers)) := hq
  rw [hanswers] at hstart
  have hlines := runs_enabling (s := s.calledBack acks) hp (Nat.le_refl 127) (.ok :: answers)
  rw [Nat.add_comm]
  exact runs_trans hstart (runs_trans hlines (runs_one (step_lastLine (s := s.calledBack acks) hp answers)))

end Sys2Proof.Machine
end

section
/-! PROOFS. Whole requests: a SHOW that completes, one whose transaction fails, and a CONSTRUCT that completes, with their traces (R462, R550, R557, R705). -/

namespace Sys2Proof.Machine

/-! ## Counting events -/

theorem framed_length (p : Params) (m : BusMode) (bytes : List Byte) : (framed p m bytes).length = 5 := rfl

theorem callbackEvents_length (cb : Bool) : (callbackEvents cb).length = cbCount cb := by cases cb <;> rfl

/-- Five events for each transaction (R601). -/
theorem flatMap_framed_length {α : Type} (p : Params) (m : BusMode) (bytes : α → List Byte) (l : List α) :
    (l.flatMap fun x => framed p m (bytes x)).length = 5 * l.length := by
  rw [List.length_flatMap]
  simp [framed_length, Nat.mul_comm]

theorem State.showTrace_length (s : State) : s.showTrace.length = 645 + cbCount s.cfgCbEn := by
  have hlines : (s.linesTrace nScan).length = 5 * 128 := by
    rw [State.linesTrace, flatMap_framed_length, List.length_range]
    rfl
  rw [State.showTrace, List.length_append, List.length_append, callbackEvents_length, framed_length, hlines]
  omega

theorem initTrace_length (p : Params) : (initTrace p).length = if p.initFraming = .blob then 5 else 80 := by
  cases hf : p.initFraming with
  | blob => rw [initTrace, hf]; rfl
  | discrete =>
    rw [initTrace, hf]
    exact flatMap_framed_length p .cmd (romSlice initRom) initRanges

theorem State.constructTrace_length (s : State) : s.constructTrace.length
    = (if s.params.initFraming = .blob then 654 else 729) + 2 * cbCount s.cfgCbEn := by
  simp only [State.constructTrace, List.length_append, callbackEvents_length, initTrace_length, s.showTrace_length,
    List.length_cons, List.length_nil]
  split <;> omega

/-! ## SHOW -/

/-- SHOW accepted by an idle block in READY, up to the step's end (R550, R551). -/
theorem step_showFrame {s : State} {rest : List HostWord} (hs : s.idle) (h : s.phase = .ready)
    (hq : s.hostReqs = requestWord .showFrame :: rest) :
    step s = .next (s.accepted rest).commitShow.showStarted := by
  rw [step_of_request hs hq decodeRequest_showFrame, exec_showFrame_of_ready (s := s.accepted rest) h]
  exact settled_showBody hs.1.2.1

/-- Settles O58: acceptance, and then ShowBody to its end. -/
theorem showRunTrace : Obligations.ShowRunTrace := by
  intro s rest answers acks hs h hq hanswers hacks
  refine ⟨?_, s.showTrace_length⟩
  have hbody := runs_showBody (s := (s.accepted rest).commitShow) hs.1.1 hs.1.2.1 hanswers hacks
  have hruns := runs_succ (step_showFrame hs h hq) hbody
  have hend : (((s.accepted rest).commitShow.calledBack acks).shown answers) = { s with
      opKind := .showFrame, line := 128, lastRc := .ok, responses := s.responses ++ [0]
      curReq := freeCurReq s.draws, draws := s.draws + 1
      cs := !s.params.csSelectLevel, dc := !s.params.dcCmdLevel, txBytes := []
      trace := s.trace ++ s.showTrace, wire := s.wire ++ s.showBytes
      hostReqs := rest, busAnswers := answers, cbAcks := acks } := by
    simp only [State.shown, State.calledBack, State.commitShow, State.accepted, State.showTrace, h, hs.1.2.1, hs.1.2.2,
      List.append_assoc]
    rfl
  rw [← hend, show 130 + cbCount s.cfgCbEn = 129 + cbCount s.cfgCbEn + 1 by omega]
  exact hruns

/-! ## A refresh that fails -/

/-- The WRITE of a refresh's transaction n is running: the enable-data-write command's, or scan line n - 1's (R552, R553). -/
def State.showStage (s : State) (n : Nat) (rest : List BusAnswer) : State :=
  match n with
  | 0 => s.enabling rest
  | n + 1 => s.sendingLine n rest

/-- n transactions of a refresh answered OK. -/
theorem runs_showStage {s : State} (hp : s.porIn = none) {n : Nat} (hn : n < 129) (rest : List BusAnswer) :
    runs n (s.enabling (List.replicate n .ok ++ rest)) (s.showStage n rest) := by
  cases n with
  | zero => rfl
  | succ n => exact runs_enabling hp (by omega) rest

/-- The answer ERR to a refresh's transaction (R705). -/
theorem step_showStage_err {s : State} (hp : s.porIn = none) (n k : Nat) (rest : List BusAnswer) :
    step (s.showStage n (.err k :: rest)) = .next ((s.showStage n (.err k :: rest)).tookAnswer rest k).busErrorExit := by
  cases n with
  | zero => exact step_of_busError ⟨hp, rfl, rfl⟩ (.inr (.inl rfl)) rfl
  | succ n => exact step_of_busError ⟨hp, rfl, rfl⟩ (.inr (.inr rfl)) rfl

/-- Settles O60: acceptance, the callback, the transactions before n, and the BusError exit. -/
theorem failedShowRunTrace : Obligations.FailedShowRunTrace := by
  intro s rest answers acks n k hs h hq hn hanswers hacks
  have hstart := runs_succ (step_showFrame hs h hq)
    (runs_showStarted (s := (s.accepted rest).commitShow) hs.1.1 hs.1.2.1 hacks)
  have hb : (s.accepted rest).commitShow.busAnswers = List.replicate n .ok ++ .err k :: answers := hanswers
  rw [hb] at hstart
  have hsent := runs_showStage (s := (s.accepted rest).commitShow.calledBack acks) hs.1.1 hn (.err k :: answers)
  have hfail := runs_one (step_showStage_err (s := (s.accepted rest).commitShow.calledBack acks) hs.1.1 n k answers)
  have hruns := runs_trans hstart (runs_trans hsent hfail)
  rw [show cbCount (s.accepted rest).commitShow.cfgCbEn + 1 + (n + 1) = 2 + n + cbCount s.cfgCbEn by
    show cbCount s.cfgCbEn + 1 + (n + 1) = _
    omega] at hruns
  refine ⟨_, hruns, ?_⟩
  cases n with
  | zero => exact ⟨rfl, ⟨rfl, rfl, rfl, rfl⟩, rfl, rfl, rfl, rfl, rfl, rfl⟩
  | succ n =>
    refine ⟨?_, ⟨rfl, rfl, rfl, rfl⟩, rfl, rfl, rfl, rfl, rfl, rfl⟩
    rw [if_neg n.succ_ne_zero, Nat.add_sub_cancel, ← List.append_assoc, ← List.append_assoc]
    rfl

/-! ## CONSTRUCT -/

/-- A hold of d microseconds has ended (R454, log 12). -/
def State.held (s : State) (d : Nat) : State :=
  { s with
    holds := s.holds.tail, holdTimes := s.holdTimes ++ [d], draws := if s.holds = [] then s.draws + 1 else s.draws }

/-- The hold of RST_LO has ended, and RST_HI begins (R455). -/
def State.resetHigh (s : State) (d : Nat) : State :=
  { s.held d with phase := .rstHi, res := true, trace := s.trace ++ [.pin .res true, .delay] }

/-- The hold of RST_HI has ended, and so has the callback where one is configured; acks of its agent's CB_ACKs are left
(R455, R456). -/
def State.resetDone (s : State) (d acks : Nat) : State :=
  { s.held d with phase := .init, cbAcks := acks, trace := s.trace ++ callbackEvents s.cfgCbEn }

/-- From RST_HI to the first init WRITE (R455 to R457). -/
theorem runs_rstHi {s : State} {acks : Nat} (hw : s.waitsFor .delay) (hph : s.phase = .rstHi) (hrom : s.rom = initRom)
    (hidx : s.initIdx = 0) (hacks : s.cbAcks = acks + cbCount s.cfgCbEn) :
    ∃ d ≥ 1000, runs (cbCount s.cfgCbEn + 1) s ((s.resetDone d acks).issued .cmd (firstInitBytes s.params)) := by
  obtain ⟨d, hd, -, hstep⟩ := resetPulseHolds s hw
  obtain ⟨-, hcallback, hplain⟩ := hstep (s.held d) rfl
  refine ⟨d, hd, ?_⟩
  by_cases hc : s.cfgCbEn = true
  · have hcount : cbCount s.cfgCbEn = 1 := by rw [hc]; rfl
    have hevents : callbackEvents s.cfgCbEn = [.cbReq] := by rw [hc]; rfl
    rw [hcount] at hacks ⊢
    rw [State.resetDone, hevents]
    have hanswered := ((callbackGoesOnAtAck
      { s.held d with phase := .cbInit, wait := .cb, trace := s.trace ++ [.cbReq] } ⟨hw.1, hw.2.1, rfl⟩).2
        acks hacks).1 rfl hrom hidx
    exact runs_succ (hcallback hph hc) (runs_one hanswered)
  · have hc : s.cfgCbEn = false := by simpa using hc
    have hcount : cbCount s.cfgCbEn = 0 := by rw [hc]; rfl
    have hevents : callbackEvents s.cfgCbEn = [] := by rw [hc]; rfl
    have hacks : s.cbAcks = acks := by rw [hacks, hcount, Nat.add_zero]
    rw [hcount, State.resetDone, hevents, List.append_nil, ← hacks]
    exact runs_one (hplain hph hc hrom hidx)

/-- Both holds of the reset pulse, and the callback where one is configured, have ended (R454 to R456). -/
def State.pulsed (s : State) (d₁ d₂ acks : Nat) : State := (s.resetHigh d₁).resetDone d₂ acks

/-- From RST_LO to the first init WRITE (R454 to R457). -/
theorem runs_rstLo {s : State} {acks : Nat} (hw : s.waitsFor .delay) (hph : s.phase = .rstLo) (hrom : s.rom = initRom)
    (hidx : s.initIdx = 0) (hacks : s.cbAcks = acks + cbCount s.cfgCbEn) :
    ∃ d₁ ≥ 1000, ∃ d₂ ≥ 1000,
      runs (cbCount s.cfgCbEn + 2) s ((s.pulsed d₁ d₂ acks).issued .cmd (firstInitBytes s.params)) := by
  obtain ⟨d₁, hd₁, -, hstep⟩ := resetPulseHolds s hw
  have hlow : step s = .next (s.resetHigh d₁) := (hstep (s.held d₁) rfl).1 hph
  obtain ⟨d₂, hd₂, hhigh⟩ := runs_rstHi (s := s.resetHigh d₁) hw rfl hrom hidx hacks
  exact ⟨d₁, hd₁, d₂, hd₂, runs_succ hlow hhigh⟩

/-- A legal CONSTRUCT is committed, and its reset pulse has begun (R452, R454). -/
def State.constructing (s : State) (h w : Byte) (cb : Bool) : State :=
  (((s.commitConstruct h w cb).goTo .rstLo).drive .res false).startHold

/-- CONSTRUCT accepted by an idle block, up to the step's end (R450, R454). -/
theorem step_construct {s : State} {h w : Byte} {cb : Bool} {rest : List HostWord} (hs : s.idle)
    (hlegal : legalConfig h w = true) (hq : s.hostReqs = requestWord (.construct h w cb) :: rest) :
    step s = .next ((s.accepted rest).constructing h w cb) := by
  rw [step_of_request hs hq (decodeRequest_construct h w cb), exec_construct_of_legal (s := s.accepted rest) hs.2 hlegal]
  exact settled_next hs.1.2.1

/-- The reset pulse, the init stream and ShowBody of a CONSTRUCT are done, after holds of d₁ and d₂ microseconds
(R452 to R459). -/
def State.constructed (s : State) (h w : Byte) (cb : Bool) (d₁ d₂ acks : Nat) (answers : List BusAnswer) : State :=
  (((((s.constructing h w cb).pulsed d₁ d₂ (acks + cbCount cb)).initDone
    (List.replicate 129 .ok ++ answers)).calledBack acks).shown answers)

/-- A CONSTRUCT that completes has the trace of R462, in the configuration it commits. -/
theorem State.constructed_trace (s : State) (h w : Byte) (cb : Bool) (d₁ d₂ acks : Nat) (answers : List BusAnswer) :
    (s.constructed h w cb d₁ d₂ acks answers).trace
      = s.trace ++ { s with cfgHeight := h, cfgWidth := w, cfgCbEn := cb, buf := [] }.constructTrace := by
  have hstart : (s.constructing h w cb).trace = s.trace ++ [.pin .res false] ++ [.delay] := rfl
  simp only [State.constructed, State.shown, State.calledBack, State.initDone, State.pulsed, State.resetDone,
    State.resetHigh, State.held, hstart, State.constructTrace, State.showTrace, List.append_assoc, List.cons_append,
    List.nil_append]
  rfl

/-- The run of a CONSTRUCT that completes: acceptance, the reset pulse, the init stream and ShowBody. -/
theorem runs_construct {s : State} {h w : Byte} {cb : Bool} {rest : List HostWord} {answers : List BusAnswer}
    {acks : Nat} (hs : s.idle) (hrom : s.rom = initRom) (hlegal : legalConfig h w = true)
    (hq : s.hostReqs = requestWord (.construct h w cb) :: rest)
    (hanswers : s.busAnswers = List.replicate (initWrites s.params.initFraming + 129) .ok ++ answers)
    (hacks : s.cbAcks = acks + 2 * cbCount cb) :
    ∃ d₁ ≥ 1000, ∃ d₂ ≥ 1000, runs (132 + initWrites s.params.initFraming + 2 * cbCount cb) s
      ((s.accepted rest).constructed h w cb d₁ d₂ acks answers) := by
  obtain ⟨hp, hf, -⟩ := hs.1
  have htwice : s.cbAcks = acks + cbCount cb + cbCount cb := by omega
  have hsplit : s.busAnswers
      = List.replicate (initWrites s.params.initFraming) .ok ++ (List.replicate 129 .ok ++ answers) := by
    rw [hanswers, List.replicate_add, List.append_assoc]
  obtain ⟨d₁, hd₁, d₂, hd₂, hreset⟩ :=
    runs_rstLo (s := (s.accepted rest).constructing h w cb) ⟨hp, hf, rfl⟩ rfl hrom rfl htwice
  have hinit := runs_initStream (s := ((s.accepted rest).constructing h w cb).pulsed d₁ d₂ (acks + cbCount cb))
    hp hrom rfl rfl hsplit
  have hbody := runs_showBody (acks := acks) (answers := answers)
    (s := (((s.accepted rest).constructing h w cb).pulsed d₁ d₂ (acks + cbCount cb)).initDone
      (List.replicate 129 .ok ++ answers)) hp rfl rfl rfl
  have hruns := runs_succ (step_construct hs hlegal hq) (runs_trans hreset (runs_trans hinit hbody))
  have hcount : cbCount cb + 2 + (initWrites s.params.initFraming + (129 + cbCount cb)) + 1
      = 132 + initWrites s.params.initFraming + 2 * cbCount cb := by omega
  exact ⟨d₁, hd₁, d₂, hd₂, hcount ▸ hruns⟩

/-- Settles O59: the run's last state, read off field by field. -/
theorem constructRunTrace : Obligations.ConstructRunTrace := by
  intro s h w cb rest answers acks hs hrom hlegal hq hanswers hacks c hc
  obtain ⟨d₁, hd₁, d₂, hd₂, hruns⟩ := runs_construct hs hrom hlegal hq hanswers hacks
  subst hc
  exact ⟨State.constructTrace_length _, _, hruns, (s.accepted rest).constructed_trace h w cb d₁ d₂ acks answers,
    ⟨rfl, rfl, rfl, rfl, rfl⟩, ⟨rfl, rfl, rfl, rfl, fun _ => rfl⟩, ⟨rfl, rfl, rfl⟩, ⟨rfl, rfl⟩, ⟨rfl, rfl, rfl⟩,
    d₁, hd₁, d₂, hd₂, List.append_assoc _ _ _⟩

end Sys2Proof.Machine
end
